-- ==== Sys2Proof/Word.lean ====
section
/-! DEFINITION. The word types of the core, and the plainest operations on them.
A data value of n bits is a `BitVec n` read in DES numbering (00_scope.md R7): position 0 is the most significant bit
of byte 0. With byte 0 in the most significant byte (20_memory.md R52) position p of a value x is `x.getMsbD p`, and
`x ++ y` is the spec's concatenation, x's bits at the lower positions (R8). Command words and STATUS are numbered
conventionally, bit 0 least significant (R9). -/

namespace Sys2Proof

/-- A 32-bit command word, numbered conventionally (30_encoding.md R80, 00_scope.md R9). -/
abbrev CmdWord := BitVec 32

/-- Eight data bytes in DES numbering: a block, a key, a bus value, a register's storage (20_memory.md R52). -/
abbrev Block := BitVec 64

/-- A 32-bit half of a block (45_feistel.md R216). -/
abbrev Half := BitVec 32

/-- A 48-bit round key (00_scope.md R5). -/
abbrev RoundKey := BitVec 48

/-- The 56-bit CD value: C at positions 0..27, D at positions 28..55 (10_state.md R26). -/
abbrev CDValue := BitVec 56

/-- Sixteen round keys, indexed 0..15 (10_state.md R28, R29). -/
abbrev Schedule := Vector RoundKey 16

/-- The cipher instance a successful LDK builds (00_scope.md R12): KEY, CD and the two schedules
(10_state.md R25, R26, R28, R29). -/
structure CipherInstance where
  key : Block
  cd  : CDValue
  rk  : Schedule
  rkd : Schedule
deriving DecidableEq, Repr, Inhabited

end Sys2Proof
end

