-- ==== Sys2Proof/Syntax.lean ====
section
/-! DEFINITION. The instructions: one constructor of `Instr` for each row of spec/opcode_table.json (30_encoding.md
R85), with the operands of R81 to R83. -/

namespace Sys2Proof

/-- A data register V0 to V7: every value 0..7 is legal (30_encoding.md R82). -/
abbrev Reg := Fin 8

/-- The permutation tables TBL selects (42_permutation.md R154). -/
inductive Table where
  | ip | fp | pc1 | pc2 | e | p
deriving DecidableEq, Repr

/-- The schedule RKRD reads: DIR = 0 is RK, DIR = 1 is RKD (44_key_schedule.md R197). -/
inductive Direction where
  | fwd | rev
deriving DecidableEq, Repr

/-- The commands (30_encoding.md R85), operands as in the assembler syntax (R92): destination first. -/
inductive Instr where
  /-- No operation (40_host_transfer.md R120). -/
  | nop
  /-- Load V[d] with the first n bytes of din (R121). -/
  | ldv (d : Reg) (n : Fin 16)
  /-- Store V[s] to dout (R124). -/
  | stv (s : Reg)
  /-- Copy V[s] to V[d] (R126). -/
  | mov (d s : Reg)
  /-- Clear ERR and ECODE (R128). -/
  | clrerr
  /-- Test bit pos of V[s] (41_bitfield.md R140). -/
  | btst (s : Reg) (pos : Fin 64)
  /-- Set bit pos of V[d] to val (R141). -/
  | bset (d : Reg) (pos : Fin 64) (val : Bool)
  /-- Apply a permutation table (42_permutation.md R153). -/
  | perm (d s : Reg) (tbl : Table)
  /-- Rotate both 28-bit halves of V[d] by k (43_rotator.md R174). -/
  | rot28 (d : Reg) (k : Fin 4)
  /-- Load the key of n bytes and build the cipher instance (44_key_schedule.md R195). -/
  | ldk (n : Fin 16)
  /-- Read round key idx of a schedule (R197). -/
  | rkrd (d : Reg) (dir : Direction) (idx : Fin 16)
  /-- Exclusive OR of V[s] and V[t] (45_feistel.md R210). -/
  | xor (d s t : Reg)
  /-- S-box substitution (R215). -/
  | sbox (d s : Reg)
  /-- The round function f of half V[s] and round key V[t] (R217). -/
  | ffn (d s t : Reg)
  /-- One Feistel round of block V[s] with round key V[t] (R218). -/
  | fround (d s t : Reg)
  /-- Exchange the halves of a block (46_block_cipher.md R242). -/
  | swap (d s : Reg)
  /-- Encrypt one block (R244). -/
  | enc (d s : Reg)
  /-- Decrypt one block (R245). -/
  | dec (d s : Reg)
deriving DecidableEq, Repr

/-- The operations of the opcode map, without their operands (30_encoding.md R85). -/
inductive Op where
  | nop | ldv | stv | mov | clrerr | btst | bset | perm | rot28 | ldk | rkrd
  | xor | sbox | ffn | fround | swap | enc | dec
deriving DecidableEq, Repr

/-- The operation of an instruction. -/
def Instr.op : Instr → Op
  | .nop => .nop
  | .ldv _ _ => .ldv
  | .stv _ => .stv
  | .mov _ _ => .mov
  | .clrerr => .clrerr
  | .btst _ _ => .btst
  | .bset _ _ _ => .bset
  | .perm _ _ _ => .perm
  | .rot28 _ _ => .rot28
  | .ldk _ => .ldk
  | .rkrd _ _ _ => .rkrd
  | .xor _ _ _ => .xor
  | .sbox _ _ => .sbox
  | .ffn _ _ _ => .ffn
  | .fround _ _ _ => .fround
  | .swap _ _ => .swap
  | .enc _ _ => .enc
  | .dec _ _ => .dec

end Sys2Proof
end

