-- ==== Sys2Proof/WellFormed.lean ====
section
/-! DEFINITION. Which instructions some legal command word stands for. Register fields, POS, VAL, IDX, DIR, K and the
N of LDK take every value their fields hold (30_encoding.md R82, R88), and a table is one of the six by its type; the
one check left is LDV's byte count. -/

namespace Sys2Proof

/-- Whether a legal command word stands for the instruction: LDV's N is in 1..8 (30_encoding.md R88). -/
def Instr.wellFormed : Instr → Bool
  | .ldv _ n => decide (1 ≤ n.val) && decide (n.val ≤ 8)
  | .nop | .stv _ | .mov _ _ | .clrerr | .btst _ _ | .bset _ _ _ | .perm _ _ _ | .rot28 _ _ | .ldk _ | .rkrd _ _ _
  | .xor _ _ _ | .sbox _ _ | .ffn _ _ _ | .fround _ _ _ | .swap _ _ | .enc _ _ | .dec _ _ => true

/-- The same as a proposition, for statements. -/
abbrev Instr.WellFormed (i : Instr) : Prop := i.wellFormed = true

end Sys2Proof
end

