-- ==== Sys2Proof/Decode.lean ====
section
/-! DEFINITION. The decoder, total on every 32-bit word (30_encoding.md R91), and after it the encoder, both from the
encoding tables R81 and R86. -/

namespace Sys2Proof

/-! ## Fields of a command word (R81, R83) -/

/-- Bits hi..lo of a command word, `width` of them from bit `lo` up, as an unsigned number (00_scope.md R9). -/
def cmdField (w : CmdWord) (lo width : Nat) : BitVec width := w.extractLsb' lo width

/-- OP, bits 31:26. -/
def fieldOp (w : CmdWord) : BitVec 6 := cmdField w 26 6
/-- D, bits 25:23. -/
def fieldD (w : CmdWord) : Reg := (cmdField w 23 3).toFin
/-- S, bits 22:20. -/
def fieldS (w : CmdWord) : Reg := (cmdField w 20 3).toFin
/-- T, bits 19:17. -/
def fieldT (w : CmdWord) : Reg := (cmdField w 17 3).toFin
/-- VAL, bit 6. -/
def fieldVal (w : CmdWord) : Bool := w.getLsbD 6
/-- POS, bits 5:0. -/
def fieldPos (w : CmdWord) : Fin 64 := (cmdField w 0 6).toFin
/-- DIR, bit 4: 0 is the forward schedule RK, 1 the reversed RKD. -/
def fieldDir (w : CmdWord) : Direction := if w.getLsbD 4 then .rev else .fwd
/-- N, bits 3:0. -/
def fieldN (w : CmdWord) : Fin 16 := (cmdField w 0 4).toFin
/-- IDX, bits 3:0. -/
def fieldIdx (w : CmdWord) : Fin 16 := (cmdField w 0 4).toFin
/-- TBL, bits 2:0. -/
def fieldTbl (w : CmdWord) : Fin 8 := (cmdField w 0 3).toFin
/-- K, bits 1:0. -/
def fieldK (w : CmdWord) : Fin 4 := (cmdField w 0 2).toFin

/-- The table a selector names; 6 and 7 are reserved (42_permutation.md R154). -/
def Table.ofSelector (n : Fin 8) : Option Table :=
  match n.val with
  | 0 => some .ip
  | 1 => some .fp
  | 2 => some .pc1
  | 3 => some .pc2
  | 4 => some .e
  | 5 => some .p
  | _ => none

/-! ## The opcode map (R85, R86) -/

/-- Every row of the map, in its order. -/
def opTable : List Op :=
  [.nop, .ldv, .stv, .mov, .clrerr, .btst, .bset, .perm, .rot28] ++
  [.ldk, .rkrd, .xor, .sbox, .ffn, .fround, .swap, .enc, .dec]

/-- The OP value of a row (R85). -/
def Op.code : Op → BitVec 6
  | .nop => 0x00 | .ldv => 0x01 | .stv => 0x02 | .mov => 0x03 | .clrerr => 0x04
  | .btst => 0x08 | .bset => 0x09 | .perm => 0x0A
  | .rot28 => 0x10 | .ldk => 0x11 | .rkrd => 0x12
  | .xor => 0x18 | .sbox => 0x19 | .ffn => 0x1A | .fround => 0x1B
  | .swap => 0x20 | .enc => 0x21 | .dec => 0x22

/-- The match column of R86. -/
def Op.matchWord : Op → CmdWord
  | .nop => 0x00000000 | .ldv => 0x04000000 | .stv => 0x08000000 | .mov => 0x0C000000 | .clrerr => 0x10000000
  | .btst => 0x20000000 | .bset => 0x24000000 | .perm => 0x28000000
  | .rot28 => 0x40000000 | .ldk => 0x44000000 | .rkrd => 0x48000000
  | .xor => 0x60000000 | .sbox => 0x64000000 | .ffn => 0x68000000 | .fround => 0x6C000000
  | .swap => 0x80000000 | .enc => 0x84000000 | .dec => 0x88000000

/-- The mask column of R86: OP and every bit the opcode does not use. -/
def Op.mask : Op → CmdWord
  | .nop => 0xFFFFFFFF | .ldv => 0xFC7FFFF0 | .stv => 0xFF8FFFFF | .mov => 0xFC0FFFFF | .clrerr => 0xFFFFFFFF
  | .btst => 0xFF8FFFC0 | .bset => 0xFC7FFF80 | .perm => 0xFC0FFFF8
  | .rot28 => 0xFC7FFFFC | .ldk => 0xFFFFFFF0 | .rkrd => 0xFC7FFFE0
  | .xor => 0xFC01FFFF | .sbox => 0xFC0FFFFF | .ffn => 0xFC01FFFF | .fround => 0xFC01FFFF
  | .swap => 0xFC0FFFFF | .enc => 0xFC0FFFFF | .dec => 0xFC0FFFFF

/-- The row with an OP value, if the map lists it. -/
def Op.ofCode (c : BitVec 6) : Option Op := opTable.find? (fun o => o.code == c)

/-! ## The decoder (R91) -/

/-- Why a word is illegal; the core answers each with `IllegalCommand` (30_encoding.md R87, R88). -/
inductive Illegal where
  /-- OP is not in the map (R87 a). -/
  | reservedOpcode
  /-- A must-be-zero bit is set (R87 b). -/
  | mustBeZero
  /-- LDV with N outside 1..8 (R88). -/
  | byteCount
  /-- PERM with TBL 6 or 7 (R88). -/
  | tableSelector
deriving DecidableEq, Repr

/-- The instruction of a word whose row is known and whose must-be-zero bits are zero: its fields (R83) and the two
checks R91 makes on them. -/
def decodeRow (o : Op) (w : CmdWord) : Except Illegal Instr :=
  match o with
  | .nop => .ok .nop
  | .ldv => if 1 ≤ (fieldN w).val ∧ (fieldN w).val ≤ 8 then .ok (.ldv (fieldD w) (fieldN w)) else .error .byteCount
  | .stv => .ok (.stv (fieldS w))
  | .mov => .ok (.mov (fieldD w) (fieldS w))
  | .clrerr => .ok .clrerr
  | .btst => .ok (.btst (fieldS w) (fieldPos w))
  | .bset => .ok (.bset (fieldD w) (fieldPos w) (fieldVal w))
  | .perm =>
    match Table.ofSelector (fieldTbl w) with
    | some t => .ok (.perm (fieldD w) (fieldS w) t)
    | none => .error .tableSelector
  | .rot28 => .ok (.rot28 (fieldD w) (fieldK w))
  | .ldk => .ok (.ldk (fieldN w))
  | .rkrd => .ok (.rkrd (fieldD w) (fieldDir w) (fieldIdx w))
  | .xor => .ok (.xor (fieldD w) (fieldS w) (fieldT w))
  | .sbox => .ok (.sbox (fieldD w) (fieldS w))
  | .ffn => .ok (.ffn (fieldD w) (fieldS w) (fieldT w))
  | .fround => .ok (.fround (fieldD w) (fieldS w) (fieldT w))
  | .swap => .ok (.swap (fieldD w) (fieldS w))
  | .enc => .ok (.enc (fieldD w) (fieldS w))
  | .dec => .ok (.dec (fieldD w) (fieldS w))

/-- The decoder, total on any word (R91). -/
def decode (w : CmdWord) : Except Illegal Instr :=
  match Op.ofCode (fieldOp w) with
  | none => .error .reservedOpcode
  | some o => if w &&& o.mask = o.matchWord then decodeRow o w else .error .mustBeZero

/-- The host's reading of an opcode-table row: every row is one 32-bit word, and the command word reaches the port as
one number (00_scope.md R9), so there is no byte order to lay out (log entry 15). Bits above `nbits` are 0. -/
def decodeTableWord (nbits w : Nat) : Option Instr :=
  if nbits ≤ 32 then
    match decode (BitVec.ofNat 32 (w % 2 ^ nbits)) with
    | .ok i => some i
    | .error _ => none
  else none

/-! ## The encoder (R81, R86) -/

/-- The word with a field's value at bit `lo` and zeros elsewhere. -/
def placeField (lo value : Nat) : CmdWord := BitVec.ofNat 32 value <<< lo

/-- D at bits 25:23. -/
def placeD (d : Reg) : CmdWord := placeField 23 d.val
/-- S at bits 22:20. -/
def placeS (s : Reg) : CmdWord := placeField 20 s.val
/-- T at bits 19:17. -/
def placeT (t : Reg) : CmdWord := placeField 17 t.val

/-- The selector of a table (42_permutation.md R154). -/
def Table.selector : Table → Nat
  | .ip => 0
  | .fp => 1
  | .pc1 => 2
  | .pc2 => 3
  | .e => 4
  | .p => 5

/-- The DIR bit of a direction (R81). -/
def Direction.bit : Direction → Nat
  | .fwd => 0
  | .rev => 1

/-- The operand bits of an instruction (the encoding column of R86). -/
def operandBits : Instr → CmdWord
  | .nop => 0
  | .ldv d n => placeD d ||| placeField 0 n.val
  | .stv s => placeS s
  | .mov d s => placeD d ||| placeS s
  | .clrerr => 0
  | .btst s pos => placeS s ||| placeField 0 pos.val
  | .bset d pos val => placeD d ||| placeField 6 val.toNat ||| placeField 0 pos.val
  | .perm d s tbl => placeD d ||| placeS s ||| placeField 0 tbl.selector
  | .rot28 d k => placeD d ||| placeField 0 k.val
  | .ldk n => placeField 0 n.val
  | .rkrd d dir idx => placeD d ||| placeField 4 dir.bit ||| placeField 0 idx.val
  | .xor d s t => placeD d ||| placeS s ||| placeT t
  | .sbox d s => placeD d ||| placeS s
  | .ffn d s t => placeD d ||| placeS s ||| placeT t
  | .fround d s t => placeD d ||| placeS s ||| placeT t
  | .swap d s => placeD d ||| placeS s
  | .enc d s => placeD d ||| placeS s
  | .dec d s => placeD d ||| placeS s

/-- The command word of a well-formed instruction: its row's match with the operand bits filled in (R86). -/
def encode (i : Instr) : CmdWord := i.op.matchWord ||| operandBits i

end Sys2Proof
end

