-- ==== Sys2Proof/Config.lean ====
section
/-! DEFINITION. What the spec leaves open, as constants without a body: nothing in Lean can evaluate them or prove a
value of them. The engine's fixed parameters (00_scope.md R5: 8 registers of 8 bytes, 64-bit key and block, 48-bit
round keys, 16 rounds, 56-bit CD in two 28-bit halves, 32-bit commands, 8-byte buses) are the widths of the types in
Word.lean, Syntax.lean and Machine/State.lean; none is an argument of the model. -/

namespace Sys2Proof

/-- The free value of KEY, CD, RK and RKD after a reset asserted during a run (10_state.md R41: "unspecified;
unobservable"). It may depend on how many resets came before, on the command that was outstanding, if any, and on what
the four held before: nothing constrains it (log entry 2). -/
opaque Config.instanceAfterReset : Nat → Option (CmdWord × Block) → CipherInstance → CipherInstance

/-- The open parameter CMD_LATENCY(op, operands): finite and otherwise unspecified (00_scope.md R9; 92_eei_decisions.md
OPEN-1). No rule depends on it, so no definition of the model reads it (log entry 9). -/
opaque Config.cmdLatency : CmdWord → Block → Nat

end Sys2Proof
end

