-- ==== Sys2Proof/Machine/State.lean ====
section
/-! DEFINITION. The machine's state as plain data: every piece 10_state.md R20 names, and the two sides of the command
port (20_memory.md R55, R56), which one deterministic step needs as data. -/

namespace Sys2Proof.Machine

/-- A data register: 64 bits of storage in DES numbering and the length in bytes, 0..8 (10_state.md R21, R22). LEN = 0
is the empty register, which holds no value. -/
structure DataReg where
  storage : Block
  len     : Fin 9
deriving DecidableEq, Repr

/-- The writable fields of STATUS (10_state.md R30). Bit 7 is reserved and reads 0; `Status.word` gives the 8-bit
value (log entry 12). -/
structure Status where
  err   : Bool
  ecode : BitVec 4
  sv    : Bool
  f     : Bool
deriving DecidableEq, Repr

/-- The response of a command (10_state.md R38, 20_memory.md R56). -/
structure Response where
  code   : BitVec 4
  status : BitVec 8
  dout   : Block
  olen   : Fin 9
deriving DecidableEq, Repr

/-- What the host can do at the port. -/
inductive HostMove where
  /-- Present a command word with its data-in bytes and wait for the response (20_memory.md R55). -/
  | command (cmd : CmdWord) (din : Block)
  /-- Assert reset (70_reset_and_hazards.md R340), with the command that is outstanding at that moment, if any: it gets
  no response (R341; DEDUCED, log entry 14). -/
  | reset (outstanding : Option (CmdWord × Block))
deriving DecidableEq, Repr

/-- The state. `regs`, `inst` and `status` are the architectural state of 10_state.md R20 (V and LEN; KEY, CD, RK and
RKD; STATUS). The other four are the model's own (log entries 2 to 5): the host's moves still to come, the data-in bus
as presented with the command that executes, the responses returned so far, oldest first, and the number of resets
asserted so far. -/
structure State where
  regs      : Vector DataReg 8
  inst      : CipherInstance
  status    : Status
  pending   : List HostMove
  din       : Block
  responses : List Response
  resets    : Nat
deriving DecidableEq, Repr

/-- Why a step could stop with a fault: there is no reason. An error completes its command with a nonzero result code
and the core goes on (60_exceptions.md R303, R304), and no command hangs (70_reset_and_hazards.md R347). Nothing raises
a fault, which is safe: the type has no value, so no step can hide an effect behind one. -/
inductive Fault where
deriving DecidableEq, Repr

/-- Why an instruction could be refused. -/
inductive Refusal where
  /-- The instruction has no meaning in this model yet: raised by an arm of `exec` alone, and by none now that every
  arm has its meaning. Safe: the model stops where the hardware goes on. -/
  | notModelled (mnemonic : String)
deriving DecidableEq, Repr

/-- An empty register with zero storage (10_state.md R41). -/
def DataReg.empty : DataReg := { storage := 0, len := 0 }

/-- STATUS after reset: 0x00 (10_state.md R41). -/
def Status.reset : Status := { err := false, ecode := 0, sv := false, f := false }

/-- KEY, CD, RK and RKD right after power-on: the spec gives no value; zero is the model's choice (DESIGN CHOICE, log
entry 1, unsafe). -/
def CipherInstance.reset : CipherInstance :=
  { key := 0, cd := 0, rk := Vector.replicate 16 0, rkd := Vector.replicate 16 0 }

/-- The machine right after reset (10_state.md R41, 70_reset_and_hazards.md R340): every register empty, STATUS 0x00,
nothing presented at the port and nothing returned from it yet. -/
def State.reset : State :=
  { regs := Vector.replicate 8 DataReg.empty
    inst := CipherInstance.reset
    status := Status.reset
    pending := []
    din := 0
    responses := []
    resets := 0 }

end Sys2Proof.Machine
end

