-- ==== Sys2Proof/Machine/Flags.lean ====
section
/-! DEFINITION. The error codes and every write to STATUS (10_state.md R30 to R33, 60_exceptions.md R300, R303). -/

namespace Sys2Proof.Machine

/-- The errors of 60_exceptions.md R300 that a command can raise. Codes 9 (MalformedPadding) and 10 (IOFailure) are kept
for the host and never raised by the core, and 11 to 15 are reserved, so none of these is here (log
entry 16). -/
inductive ErrorKind where
  | illegalCommand | invalidKeyLength | invalidBlockLength | bitIndexOutOfRange
  | rotateAmount | operandLength | emptyOperand | noSchedule
deriving DecidableEq, Repr

/-- The result code of an error (60_exceptions.md R300). -/
def ErrorKind.code : ErrorKind → BitVec 4
  | .illegalCommand => 1
  | .invalidKeyLength => 2
  | .invalidBlockLength => 3
  | .bitIndexOutOfRange => 4
  | .rotateAmount => 5
  | .operandLength => 6
  | .emptyOperand => 7
  | .noSchedule => 8

/-- The 8-bit value of STATUS: ERR bit 0, ECODE bits 4:1, SV bit 5, F bit 6, bit 7 zero (10_state.md R30). -/
def Status.word (st : Status) : BitVec 8 :=
  0#1 ++ BitVec.ofBool st.f ++ BitVec.ofBool st.sv ++ st.ecode ++ BitVec.ofBool st.err

/-- STATUS after an error: ERR is set, and ECODE takes the code if ERR was 0 (60_exceptions.md R303). -/
def Status.recordError (st : Status) (e : ErrorKind) : Status :=
  { st with err := true, ecode := if st.err then st.ecode else e.code }

/-- STATUS with ERR and ECODE cleared (40_host_transfer.md R128). -/
def Status.clearError (st : Status) : Status := { st with err := false, ecode := 0 }

/-- STATUS with F written (41_bitfield.md R140). -/
def Status.setF (st : Status) (b : Bool) : Status := { st with f := b }

/-- STATUS with SV set (44_key_schedule.md R195). -/
def Status.setSV (st : Status) : Status := { st with sv := true }

end Sys2Proof.Machine
end

