-- ==== Sys2Proof/Machine/Operands.lean ====
section
/-! DEFINITION. Operand forms: how a data register is read and how a value is placed in one (10_state.md R21 to R24). -/

namespace Sys2Proof.Machine

/-- The first n bits of a 64-bit storage as an n-bit value: positions 0..n-1 (10_state.md R22). -/
def leadingBits (n : Nat) (x : Block) : BitVec n := x.extractLsb' (64 - n) n

/-- An n-bit value at positions 0..n-1 of a storage, zeros after it (10_state.md R23). -/
def leftJustify {n : Nat} (v : BitVec n) : Block := v.setWidth 64 <<< (64 - n)

/-- The first `len` bytes of a storage, zeros after them (10_state.md R23; log entry 10). -/
def keepBytes (len : Fin 9) (x : Block) : Block := (x >>> (64 - 8 * len.val)) <<< (64 - 8 * len.val)

/-- A storage with the bit at position p (DES numbering) set to b. -/
def setBitAt (x : Block) (p : Nat) (b : Bool) : Block :=
  if b then x ||| BitVec.twoPow 64 (63 - p) else x &&& ~~~(BitVec.twoPow 64 (63 - p))

/-- Register i (30_encoding.md R82). -/
def State.reg (s : State) (i : Reg) : DataReg := s.regs[i.val]

/-- LEN[i] (10_state.md R22). -/
def State.lenOf (s : State) (i : Reg) : Nat := (s.reg i).len.val

/-- Whether register i is empty: LEN[i] = 0 (10_state.md R22, 60_exceptions.md R301). -/
def State.isEmpty (s : State) (i : Reg) : Bool := (s.reg i).len == 0

/-- The storage of register i, whose first 8 * LEN[i] bits are its value (10_state.md R22). -/
def State.storage (s : State) (i : Reg) : Block := (s.reg i).storage

/-- The value of register i where its length is n bits, or its first n bits where it is longer (20_memory.md R53). -/
def State.value (s : State) (i : Reg) (n : Nat) : BitVec n := leadingBits n (s.storage i)

/-- Round key r of a schedule. -/
def roundKeyAt (k : Schedule) (r : Fin 16) : RoundKey := k[r.val]

end Sys2Proof.Machine
end

