-- ==== Sys2Proof/Machine/Ops.lean ====
section
/-! DEFINITION. The named operations on the state: writes, the response, raising an error and acknowledging one, taking
a command from the port, and reset. There is no memory (20_memory.md R50). -/

namespace Sys2Proof.Machine

/-- How a step of this machine ends. -/
abbrev Result := Host.Outcome State Fault Refusal

/-! ## Writes -/

/-- Replace register d. -/
def State.setReg (s : State) (d : Reg) (r : DataReg) : State := { s with regs := s.regs.set d.val r d.isLt }

/-- V[d] <- the first `len` bytes of x, LEN[d] <- len; the rest of the storage is zero (10_state.md R23, R24). -/
def State.writeReg (s : State) (d : Reg) (len : Fin 9) (x : Block) : State :=
  s.setReg d { storage := keepBytes len x, len := len }

/-- Replace STATUS. -/
def State.setStatus (s : State) (st : Status) : State := { s with status := st }

/-- Replace KEY, CD, RK and RKD in one step (44_key_schedule.md R195, R196). -/
def State.setInst (s : State) (c : CipherInstance) : State := { s with inst := c }

/-! ## The response and how a command ends -/

/-- Return one response; its status is the value of STATUS after the command (20_memory.md R56). -/
def State.respond (s : State) (code : BitVec 4) (dout : Block) (olen : Fin 9) : State :=
  { s with responses := s.responses ++ [{ code := code, status := s.status.word, dout := dout, olen := olen }] }

/-- The state after a command raised error e (60_exceptions.md R303): only STATUS.ERR and STATUS.ECODE change, and the
response carries the code with dout and olen zero. This is the one way an error is taken; there is no trap (R307). -/
def State.raise (s : State) (e : ErrorKind) : State := (s.setStatus (s.status.recordError e)).respond e.code 0 0

/-- Acknowledge errors, the counterpart of `State.raise`: there is no return from trap, CLRERR clears ERR and ECODE
(60_exceptions.md R308, 40_host_transfer.md R128). -/
def State.acknowledge (s : State) : State := s.setStatus s.status.clearError

/-- The command ends with error e. -/
def fail (e : ErrorKind) (s : State) : Result := .next (s.raise e)

/-- The command succeeds and returns no data (10_state.md R38). -/
def done (s : State) : Result := .next (s.respond 0 0 0)

/-- The command succeeds and returns `olen` bytes of dout (40_host_transfer.md R124). -/
def doneWith (dout : Block) (olen : Fin 9) (s : State) : Result := .next (s.respond 0 dout olen)

/-! ## The port -/

/-- Take a command's data-in bytes from the port; `rest` are the host's later moves (20_memory.md R55). -/
def State.accept (s : State) (din : Block) (rest : List HostMove) : State := { s with pending := rest, din := din }

/-- The state after the host asserted reset (10_state.md R41, 70_reset_and_hazards.md R340, R341): whatever was
outstanding, the registers are empty, STATUS is 0x00, and no response is returned. KEY, CD, RK and RKD take a free value
(log entry 2). The port's own fields are the host's side and go on. -/
def State.resetBy (s : State) (outstanding : Option (CmdWord × Block)) (rest : List HostMove) : State :=
  { regs := State.reset.regs
    inst := Config.instanceAfterReset s.resets outstanding s.inst
    status := State.reset.status
    pending := rest
    din := s.din
    responses := s.responses
    resets := s.resets + 1 }

/-- Put a move of the host's in front of those still to come. -/
def State.present (s : State) (m : HostMove) : State := { s with pending := m :: s.pending }

end Sys2Proof.Machine
end

