-- ==== Sys2Proof/Machine/BitField.lean ====
section
/-! DEFINITION. Bit-field commands (41_bitfield.md): BTST, BSET. A position p addresses a register only when
p < 8 * LEN (R142). -/

namespace Sys2Proof.Machine

/-- BTST (R140): STATUS.F <- bit POS of V[S]. -/
def execBtst (src : Reg) (pos : Fin 64) (s : State) : Result :=
  if s.isEmpty src then fail .emptyOperand s
  else if 8 * s.lenOf src ≤ pos.val then fail .bitIndexOutOfRange s
  else done (s.setStatus (s.status.setF ((s.storage src).getMsbD pos.val)))

/-- BSET (R141): bit POS of V[D] <- VAL, LEN[D] unchanged. -/
def execBset (d : Reg) (pos : Fin 64) (val : Bool) (s : State) : Result :=
  if s.isEmpty d then fail .emptyOperand s
  else if 8 * s.lenOf d ≤ pos.val then fail .bitIndexOutOfRange s
  else done (s.writeReg d (s.reg d).len (setBitAt (s.storage d) pos.val val))

end Sys2Proof.Machine
end

