-- ==== Sys2Proof/Machine/Permutation.lean ====
section
/-! DEFINITION. The bit-permutation engine and PERM (42_permutation.md R151 to R154). -/

namespace Sys2Proof.Machine

/-- permute(T, x) (R151): bit d of the result is bit T[d] of x. The result has m bits, m = len(T) at every use. -/
def permute {n : Nat} (m : Nat) (t : List Nat) (x : BitVec n) : BitVec m :=
  (BitVec.ofBoolListBE (t.map x.getMsbD)).setWidth m

/-- The length in bytes of a table's result, len(T)/8 (R154). -/
def tableBytes (t : Table) : Fin 9 := Fin.ofNat 9 ((tableEntries t).length / 8)

/-- A table applied to a register's storage, at the first len(T) positions of the result (R153). Only the positions the
table names are read, so a longer source is read in its leading bits (R152). -/
def permuteStorage (t : Table) (x : Block) : Block := leftJustify (permute (tableEntries t).length (tableEntries t) x)

/-- PERM (R153): V[D] <- permute(TABLE[TBL], V[S]), LEN[D] <- len(T)/8. -/
def execPerm (d src : Reg) (tbl : Table) (s : State) : Result :=
  if s.isEmpty src then fail .emptyOperand s
  else if 8 * s.lenOf src ≤ maxEntry (tableEntries tbl) then fail .bitIndexOutOfRange s
  else done (s.writeReg d (tableBytes tbl) (permuteStorage tbl (s.storage src)))

end Sys2Proof.Machine
end

