-- ==== Sys2Proof/Machine/Feistel.lean ====
section
/-! DEFINITION. The Feistel round unit and the S-box pipeline (45_feistel.md): XOR, SBOX, FFN, FROUND. -/

namespace Sys2Proof.Machine

/-- The row of a 6-bit group: 2 * g<0> + g<5>, the first outer bit high (R211). -/
def groupRow (g : BitVec 6) : Fin 4 := (BitVec.ofBool (g.getMsbD 0) ++ BitVec.ofBool (g.getMsbD 5)).toFin

/-- The column of a 6-bit group: its four inner bits, g<1> most significant (R211). -/
def groupCol (g : BitVec 6) : Fin 16 := (g.extractLsb' 1 4).toFin

/-- Group i of a 48-bit value: positions 6i..6i+5 (R211). -/
def groupAt (x : BitVec 48) (i : Fin 8) : BitVec 6 := x.extractLsb' (42 - 6 * i.val) 6

/-- The output nibble of lane i (R211, R212). -/
def sboxLane (x : BitVec 48) (i : Fin 8) : BitVec 4 := sboxEntry i (groupRow (groupAt x i)) (groupCol (groupAt x i))

/-- sbox(x) (R212): nibble i at positions 4i..4i+3. -/
def sbox (x : BitVec 48) : BitVec 32 :=
  sboxLane x 0 ++ sboxLane x 1 ++ sboxLane x 2 ++ sboxLane x 3 ++
  sboxLane x 4 ++ sboxLane x 5 ++ sboxLane x 6 ++ sboxLane x 7

/-- f(r, k) (R214). -/
def roundFunction (r : Half) (k : RoundKey) : Half := permute 32 tableP (sbox (permute 48 tableE r ^^^ k))

/-- The left half of a block, positions 0..31 (R216). -/
def leftHalf (b : Block) : Half := b.extractLsb' 32 32

/-- The right half of a block, positions 32..63 (R216). -/
def rightHalf (b : Block) : Half := b.extractLsb' 0 32

/-- round(b, k) (R216): the new left half is the old right one, the new right half is L xor f(R, k). -/
def feistelRound (b : Block) (k : RoundKey) : Block :=
  rightHalf b ++ (leftHalf b ^^^ roundFunction (rightHalf b) k)

/-- XOR (R210): V[D] <- V[S] xor V[T], which must have equal lengths. -/
def execXor (d src tgt : Reg) (s : State) : Result :=
  if s.isEmpty src then fail .emptyOperand s
  else if s.isEmpty tgt then fail .emptyOperand s
  else if s.lenOf src ≠ s.lenOf tgt then fail .operandLength s
  else done (s.writeReg d (s.reg src).len (s.storage src ^^^ s.storage tgt))

/-- SBOX (R215): V[D] <- sbox(V[S]), 6 bytes to 4. -/
def execSbox (d src : Reg) (s : State) : Result :=
  if s.isEmpty src then fail .emptyOperand s
  else if s.lenOf src ≠ 6 then fail .operandLength s
  else done (s.writeReg d 4 (leftJustify (sbox (s.value src 48))))

/-- FFN (R217): V[D] <- f(V[S], V[T]), a 4-byte half and a 6-byte round key. -/
def execFfn (d src tgt : Reg) (s : State) : Result :=
  if s.isEmpty src then fail .emptyOperand s
  else if s.isEmpty tgt then fail .emptyOperand s
  else if s.lenOf src ≠ 4 then fail .operandLength s
  else if s.lenOf tgt ≠ 6 then fail .operandLength s
  else done (s.writeReg d 4 (leftJustify (roundFunction (s.value src 32) (s.value tgt 48))))

/-- FROUND (R218): V[D] <- round(V[S], V[T]), an 8-byte block and a 6-byte round key. -/
def execFround (d src tgt : Reg) (s : State) : Result :=
  if s.isEmpty src then fail .emptyOperand s
  else if s.isEmpty tgt then fail .emptyOperand s
  else if s.lenOf src ≠ 8 then fail .invalidBlockLength s
  else if s.lenOf tgt ≠ 6 then fail .operandLength s
  else done (s.writeReg d 8 (leftJustify (feistelRound (s.value src 64) (s.value tgt 48))))

end Sys2Proof.Machine
end

