-- ==== Sys2Proof/Machine/BlockCipher.lean ====
section
/-! DEFINITION. The block-cipher sequencer (46_block_cipher.md): SWAP, ENC, DEC. -/

namespace Sys2Proof.Machine

/-- swap(b) (R241): the right half first. -/
def swapHalves (b : Block) : Block := rightHalf b ++ leftHalf b

/-- The rounds of a list of round keys, each round's output the next round's input (R243 step 2). -/
def runRounds (keys : List RoundKey) (x : Block) : Block := keys.foldl feistelRound x

/-- cipher(b, K) (R243): IP, sixteen rounds, the un-swap, FP. -/
def cipher (b : Block) (k : Schedule) : Block :=
  permute 64 tableFP (swapHalves (runRounds k.toList (permute 64 tableIP b)))

/-- SWAP (R242): V[D] <- swap(V[S]). -/
def execSwap (d src : Reg) (s : State) : Result :=
  if s.isEmpty src then fail .emptyOperand s
  else if s.lenOf src ≠ 8 then fail .invalidBlockLength s
  else done (s.writeReg d 8 (leftJustify (swapHalves (s.value src 64))))

/-- ENC (R244): V[D] <- cipher(V[S], RK). -/
def execEnc (d src : Reg) (s : State) : Result :=
  if s.isEmpty src then fail .emptyOperand s
  else if s.status.sv = false then fail .noSchedule s
  else if s.lenOf src ≠ 8 then fail .invalidBlockLength s
  else done (s.writeReg d 8 (leftJustify (cipher (s.value src 64) s.inst.rk)))

/-- DEC (R245): V[D] <- cipher(V[S], RKD). -/
def execDec (d src : Reg) (s : State) : Result :=
  if s.isEmpty src then fail .emptyOperand s
  else if s.status.sv = false then fail .noSchedule s
  else if s.lenOf src ≠ 8 then fail .invalidBlockLength s
  else done (s.writeReg d 8 (leftJustify (cipher (s.value src 64) s.inst.rkd)))

end Sys2Proof.Machine
end

