-- ==== Sys2Proof/Machine/HostTransfer.lean ====
section
/-! DEFINITION. Host transfer and control commands (40_host_transfer.md): NOP, LDV, STV, MOV, CLRERR. -/

namespace Sys2Proof.Machine

/-- NOP (R120): only the response. -/
def execNop (s : State) : Result := done s

/-- LDV (R121): V[D] <- din.b0 .. din.b(N-1). N outside 1..8, which the decoder already refuses, is IllegalCommand (log
entry 13). -/
def execLdv (d : Reg) (n : Fin 16) (s : State) : Result :=
  if h : 1 ≤ n.val ∧ n.val ≤ 8 then
    done (s.writeReg d ⟨n.val, Nat.lt_succ_of_le h.2⟩ s.din)
  else fail .illegalCommand s

/-- STV (R124): dout <- V[S] and zeros, olen <- LEN[S]. -/
def execStv (src : Reg) (s : State) : Result :=
  if s.isEmpty src then fail .emptyOperand s
  else doneWith (keepBytes (s.reg src).len (s.storage src)) (s.reg src).len s

/-- MOV (R126): V[D] <- V[S], LEN[D] <- LEN[S]. -/
def execMov (d src : Reg) (s : State) : Result :=
  if s.isEmpty src then fail .emptyOperand s
  else done (s.writeReg d (s.reg src).len (s.storage src))

/-- CLRERR (R128): ERR and ECODE <- 0. -/
def execClrerr (s : State) : Result := done s.acknowledge

end Sys2Proof.Machine
end

