-- ==== Sys2Proof/Machine/Rotator.lean ====
section
/-! DEFINITION. The 28-bit independent register rotator and ROT28 (43_rotator.md). -/

namespace Sys2Proof.Machine

/-- C, positions 0..27 of a CD value (R171). -/
def halfC (cd : CDValue) : BitVec 28 := cd.extractLsb' 28 28

/-- D, positions 28..55 of a CD value (R171). -/
def halfD (cd : CDValue) : BitVec 28 := cd.extractLsb' 0 28

/-- rot28(cd, k) (R171): each half turns left by k, toward lower DES positions, and no bit crosses between them. -/
def rot28 (cd : CDValue) (k : Nat) : CDValue := (halfC cd).rotateLeft k ++ (halfD cd).rotateLeft k

/-- The left half by the 32-bit technique of R172, with the patch that agrees with R171: C in word bits 31..4. No
command uses it; R172 is informative. -/
def foldLeft28 (c : BitVec 28) (k : Nat) : BitVec 28 :=
  let r : BitVec 32 := (c.setWidth 32 <<< 4).rotateLeft k
  (((r &&& 0xFFFFFFF0#32) ||| ((r &&& (BitVec.twoPow 32 k - 1#32)) <<< 4)) >>> 4).setWidth 28

/-- The right half by the 32-bit technique of R172: D in word bits 27..0. -/
def foldRight28 (d : BitVec 28) (k : Nat) : BitVec 28 :=
  let r : BitVec 32 := (d.setWidth 32).rotateLeft k
  ((r &&& 0x0FFFFFFF#32) ||| (r >>> 28)).setWidth 28

/-- ROT28 (R174): V[D] <- rot28(V[D], K), in place; K is checked first. -/
def execRot28 (d : Reg) (k : Fin 4) (s : State) : Result :=
  if ¬(k.val = 1 ∨ k.val = 2) then fail .rotateAmount s
  else if s.isEmpty d then fail .emptyOperand s
  else if s.lenOf d ≠ 7 then fail .operandLength s
  else done (s.writeReg d 7 (leftJustify (rot28 (s.value d 56) k.val)))

end Sys2Proof.Machine
end

