-- ==== Sys2Proof/Machine/KeySchedule.lean ====
section
/-! DEFINITION. The key-schedule engine, LDK and RKRD (44_key_schedule.md). -/

namespace Sys2Proof.Machine

/-- CD after r rotations: CD_0 is PC-1 of the key, and CD_(r+1) is CD_r turned by SHIFT[r] (R191). -/
def cdAfter (key : Block) : Nat → CDValue
  | 0 => permute 56 tablePC1 key
  | r + 1 => rot28 (cdAfter key r) (shiftOf r)

/-- Round key r: PC-2 of CD_(r+1); the rotation comes before PC-2 in every round (R191). -/
def roundKeyOf (key : Block) (r : Nat) : RoundKey := permute 48 tablePC2 (cdAfter key (r + 1))

/-- The sixteen round keys of a key (R191). -/
def scheduleOf (key : Block) : Schedule := Vector.ofFn fun r : Fin 16 => roundKeyOf key r.val

/-- The decryption schedule: RKD[r] = RK[15 - r] (R192). -/
def reverseSchedule (k : Schedule) : Schedule := Vector.ofFn fun r : Fin 16 => k[15 - r.val]

/-- The cipher instance of a key: KEY, the final CD, and both schedules (R191, R192, R195). -/
def instanceOf (key : Block) : CipherInstance :=
  { key := key
    cd := cdAfter key 16
    rk := scheduleOf key
    rkd := reverseSchedule (scheduleOf key) }

/-- LDK (R195): the whole instance and SV in one step. A length other than 8 changes nothing of it (R196). -/
def execLdk (n : Fin 16) (s : State) : Result :=
  if n.val ≠ 8 then fail .invalidKeyLength s
  else done ((s.setInst (instanceOf s.din)).setStatus s.status.setSV)

/-- The schedule RKRD reads (R197). -/
def scheduleFor (dir : Direction) (c : CipherInstance) : Schedule :=
  match dir with
  | .fwd => c.rk
  | .rev => c.rkd

/-- RKRD (R197): V[D] <- RK[IDX] or RKD[IDX], LEN[D] <- 6. -/
def execRkrd (d : Reg) (dir : Direction) (idx : Fin 16) (s : State) : Result :=
  if s.status.sv = false then fail .noSchedule s
  else done (s.writeReg d 6 (leftJustify (roundKeyAt (scheduleFor dir s.inst) idx)))

end Sys2Proof.Machine
end

