-- ==== Sys2Proof/Machine/Dispatch.lean ====
section
/-! DEFINITION. One arm per constructor of `Instr` (30_encoding.md R85). -/

namespace Sys2Proof.Machine

def exec (i : Instr) (s : State) : Host.Outcome State Fault Refusal :=
  match i with
  | .nop => Sys2Proof.Machine.execNop s
  | .ldv d n => Sys2Proof.Machine.execLdv d n s
  | .stv src => Sys2Proof.Machine.execStv src s
  | .mov d src => Sys2Proof.Machine.execMov d src s
  | .clrerr => Sys2Proof.Machine.execClrerr s
  | .btst src pos => Sys2Proof.Machine.execBtst src pos s
  | .bset d pos val => Sys2Proof.Machine.execBset d pos val s
  | .perm d src tbl => Sys2Proof.Machine.execPerm d src tbl s
  | .rot28 d k => Sys2Proof.Machine.execRot28 d k s
  | .ldk n => Sys2Proof.Machine.execLdk n s
  | .rkrd d dir idx => Sys2Proof.Machine.execRkrd d dir idx s
  | .xor d src tgt => Sys2Proof.Machine.execXor d src tgt s
  | .sbox d src => Sys2Proof.Machine.execSbox d src s
  | .ffn d src tgt => Sys2Proof.Machine.execFfn d src tgt s
  | .fround d src tgt => Sys2Proof.Machine.execFround d src tgt s
  | .swap d src => Sys2Proof.Machine.execSwap d src s
  | .enc d src => Sys2Proof.Machine.execEnc d src s
  | .dec d src => Sys2Proof.Machine.execDec d src s

end Sys2Proof.Machine
end

