-- ==== Sys2Proof/Machine/Step.lean ====
section
/-! DEFINITION. One step: the core takes the host's next move (20_memory.md R55, R57). -/

namespace Sys2Proof.Machine

/-- Execute a command word whose din has been taken: the decoded instruction, or IllegalCommand (30_encoding.md R87,
R91). -/
def runWord (w : CmdWord) (s : State) : Host.Outcome State Fault Refusal :=
  match decode w with
  | .ok i => exec i s
  | .error _ => fail .illegalCommand s

/-- One step. A command is executed completely and atomically and returns its response (20_memory.md R55); a reset puts
the core in its reset state (70_reset_and_hazards.md R340, R341); with no move of the host's the core holds its state
(60_exceptions.md R316; DEDUCED, log entry 6). -/
def step (s : State) : Host.Outcome State Fault Refusal :=
  match s.pending with
  | [] => .next s
  | .command w din :: rest => runWord w (s.accept din rest)
  | .reset outstanding :: rest => .next (s.resetBy outstanding rest)

/-- s with a command word presented next at the port, the data-in bus as it stands in s, so that the very next step
executes it (log entry 7). Bits of w above `nbits` are 0. -/
def State.withFetchWord (s : State) (nbits w : Nat) : State :=
  s.present (.command (BitVec.ofNat 32 (w % 2 ^ nbits)) s.din)

end Sys2Proof.Machine
end

