-- ==== Sys2Proof/Machine/Assembler.lean ====
section
/-! DEFINITION. The assembler syntax and its pseudo-instructions (30_encoding.md R92, R93). A line is a list of
characters. The assembler is no part of the core: no meaning uses this file. Spaces beside a token are ignored, and
letters are taken as the spec writes them (log entry 17). -/

namespace Sys2Proof.Assembler

/-- A line of assembler text. -/
abbrev Text := List Char

/-! ## Writing (R92) -/

/-- A register: v0 to v7. -/
def regText (r : Reg) : Text := 'v' :: Nat.toDigits 10 r.val

/-- An immediate: a decimal number. -/
def numText (n : Nat) : Text := Nat.toDigits 10 n

/-- A table by its name. -/
def tableText : Table → Text
  | .ip => ['I', 'P']
  | .fp => ['F', 'P']
  | .pc1 => ['P', 'C', '1']
  | .pc2 => ['P', 'C', '2']
  | .e => ['E']
  | .p => ['P']

/-- A schedule direction. -/
def directionText : Direction → Text
  | .fwd => ['F', 'W', 'D']
  | .rev => ['R', 'E', 'V']

/-- The mnemonic of a row (R85). -/
def mnemonicText : Op → Text
  | .nop => ['N', 'O', 'P']
  | .ldv => ['L', 'D', 'V']
  | .stv => ['S', 'T', 'V']
  | .mov => ['M', 'O', 'V']
  | .clrerr => ['C', 'L', 'R', 'E', 'R', 'R']
  | .btst => ['B', 'T', 'S', 'T']
  | .bset => ['B', 'S', 'E', 'T']
  | .perm => ['P', 'E', 'R', 'M']
  | .rot28 => ['R', 'O', 'T', '2', '8']
  | .ldk => ['L', 'D', 'K']
  | .rkrd => ['R', 'K', 'R', 'D']
  | .xor => ['X', 'O', 'R']
  | .sbox => ['S', 'B', 'O', 'X']
  | .ffn => ['F', 'F', 'N']
  | .fround => ['F', 'R', 'O', 'U', 'N', 'D']
  | .swap => ['S', 'W', 'A', 'P']
  | .enc => ['E', 'N', 'C']
  | .dec => ['D', 'E', 'C']

/-- The operands of an instruction in the order of its form, destination first. -/
def operandTexts : Instr → List Text
  | .nop | .clrerr => []
  | .ldv d n => [regText d, numText n.val]
  | .stv s => [regText s]
  | .mov d s | .sbox d s | .swap d s | .enc d s | .dec d s => [regText d, regText s]
  | .btst s pos => [regText s, numText pos.val]
  | .bset d pos val => [regText d, numText pos.val, numText val.toNat]
  | .perm d s tbl => [regText d, regText s, tableText tbl]
  | .rot28 d k => [regText d, numText k.val]
  | .ldk n => [numText n.val]
  | .rkrd d dir idx => [regText d, numText idx.val, directionText dir]
  | .xor d s t | .ffn d s t | .fround d s t => [regText d, regText s, regText t]

/-- A line: the mnemonic and the operands, separated by commas. -/
def lineText (mnemonic : Text) (operands : List Text) : Text :=
  match operands with
  | [] => mnemonic
  | o :: os => mnemonic ++ ' ' :: o ++ os.flatMap (fun x => ',' :: ' ' :: x)

/-- The line of an instruction. -/
def disassemble (i : Instr) : Text := lineText (mnemonicText i.op) (operandTexts i)

/-! ## Pseudo-instructions (R93) -/

/-- The pseudo-instructions: LDK without an operand, LDB, ROT1, ROT2, CLR, IPERM, FPERM. -/
inductive Pseudo where
  | ldk
  | ldb (d : Reg)
  | rot1 (d : Reg)
  | rot2 (d : Reg)
  | clr (d : Reg)
  | iperm (d s : Reg)
  | fperm (d s : Reg)
deriving DecidableEq, Repr

/-- The one command each stands for. -/
def expand : Pseudo → Instr
  | .ldk => .ldk 8
  | .ldb d => .ldv d 8
  | .rot1 d => .rot28 d 1
  | .rot2 d => .rot28 d 2
  | .clr d => .xor d d d
  | .iperm d s => .perm d s .ip
  | .fperm d s => .perm d s .fp

/-- The mnemonic of a pseudo-instruction. -/
def pseudoMnemonic : Pseudo → Text
  | .ldk => ['L', 'D', 'K']
  | .ldb _ => ['L', 'D', 'B']
  | .rot1 _ => ['R', 'O', 'T', '1']
  | .rot2 _ => ['R', 'O', 'T', '2']
  | .clr _ => ['C', 'L', 'R']
  | .iperm _ _ => ['I', 'P', 'E', 'R', 'M']
  | .fperm _ _ => ['F', 'P', 'E', 'R', 'M']

/-- The operands of a pseudo-instruction, destination first. -/
def pseudoOperands : Pseudo → List Text
  | .ldk => []
  | .ldb d | .rot1 d | .rot2 d | .clr d => [regText d]
  | .iperm d s | .fperm d s => [regText d, regText s]

/-- The line of a pseudo-instruction. -/
def pseudoText (p : Pseudo) : Text := lineText (pseudoMnemonic p) (pseudoOperands p)

/-! ## The forms a line may have (R92, R93) -/

/-- A spelling of an operand: as it is written, or for an immediate with # or zeros before it (R92; the zeros are log
entry 17). -/
def Spells (written spelling : Text) : Prop :=
  spelling = written ∨
    ∃ n k : Nat, written = numText n ∧
      (spelling = List.replicate k '0' ++ written ∨ spelling = '#' :: (List.replicate k '0' ++ written))

/-- A mnemonic and operands are of the form of instruction i (R92). -/
def FormOf (i : Instr) (line : Text × List Text) : Prop :=
  line.1 = mnemonicText i.op ∧ List.Forall₂ Spells (operandTexts i) line.2

/-- A mnemonic and operands are of the form of pseudo-instruction p (R93). -/
def PseudoFormOf (p : Pseudo) (line : Text × List Text) : Prop :=
  line.1 = pseudoMnemonic p ∧ line.2 = pseudoOperands p

/-! ## Reading (R92) -/

/-- A text without the spaces before and after it. -/
def trim (t : Text) : Text := ((t.dropWhile (· == ' ')).reverse.dropWhile (· == ' ')).reverse

/-- The pieces of a text between commas. -/
def splitCommas : Text → List Text
  | [] => [[]]
  | c :: cs =>
    match splitCommas cs with
    | [] => [[c]]
    | w :: ws => if c == ',' then [] :: w :: ws else (c :: w) :: ws

/-- A line as its mnemonic and its operands. -/
def tokens (t : Text) : Text × List Text :=
  let line := trim t
  let rest := trim (line.dropWhile (· != ' '))
  (line.takeWhile (· != ' '), if rest.isEmpty then [] else (splitCommas rest).map trim)

/-- The value of a decimal digit. -/
def digit (c : Char) : Option Nat := if '0'.toNat ≤ c.toNat ∧ c.toNat ≤ '9'.toNat then some (c.toNat - '0'.toNat) else none

/-- The value of decimal digits, at least one. -/
def decimal (t : Text) : Option Nat :=
  if t.isEmpty then none
  else t.foldl (fun acc c => acc.bind fun a => (digit c).map fun d => 10 * a + d) (some 0)

/-- An immediate below n: a decimal number, with or without # before it. -/
def readNum (n : Nat) (t : Text) : Option (Fin n) :=
  let digits := match t with
    | '#' :: ds => ds
    | _ => t
  (decimal digits).bind fun v => if h : v < n then some ⟨v, h⟩ else none

/-- A register. -/
def readReg (t : Text) : Option Reg :=
  match t with
  | ['v', c] => (digit c).bind fun v => if h : v < 8 then some ⟨v, h⟩ else none
  | _ => none

/-- A table. -/
def readTable (t : Text) : Option Table := [Table.ip, .fp, .pc1, .pc2, .e, .p].find? (fun x => tableText x == t)

/-- A schedule direction. -/
def readDirection (t : Text) : Option Direction := [Direction.fwd, .rev].find? (fun x => directionText x == t)

/-- The row of a mnemonic. -/
def readMnemonic (t : Text) : Option Op := opTable.find? (fun o => mnemonicText o == t)

/-- An instruction from its row and its operands, if they are of the row's form. -/
def readForm (o : Op) (operands : List Text) : Option Instr :=
  match o, operands with
  | .nop, [] => some .nop
  | .clrerr, [] => some .clrerr
  | .ldv, [a, b] => do
    let n ← readNum 16 b
    if 1 ≤ n.val ∧ n.val ≤ 8 then return .ldv (← readReg a) n else none
  | .stv, [a] => do return .stv (← readReg a)
  | .mov, [a, b] => do return .mov (← readReg a) (← readReg b)
  | .btst, [a, b] => do return .btst (← readReg a) (← readNum 64 b)
  | .bset, [a, b, c] => do return .bset (← readReg a) (← readNum 64 b) ((← readNum 2 c).val == 1)
  | .perm, [a, b, c] => do return .perm (← readReg a) (← readReg b) (← readTable c)
  | .rot28, [a, b] => do return .rot28 (← readReg a) (← readNum 4 b)
  | .ldk, [a] => do return .ldk (← readNum 16 a)
  | .rkrd, [a, b, c] => do return .rkrd (← readReg a) (← readDirection c) (← readNum 16 b)
  | .xor, [a, b, c] => do return .xor (← readReg a) (← readReg b) (← readReg c)
  | .sbox, [a, b] => do return .sbox (← readReg a) (← readReg b)
  | .ffn, [a, b, c] => do return .ffn (← readReg a) (← readReg b) (← readReg c)
  | .fround, [a, b, c] => do return .fround (← readReg a) (← readReg b) (← readReg c)
  | .swap, [a, b] => do return .swap (← readReg a) (← readReg b)
  | .enc, [a, b] => do return .enc (← readReg a) (← readReg b)
  | .dec, [a, b] => do return .dec (← readReg a) (← readReg b)
  | _, _ => none

/-- A pseudo-instruction from its mnemonic and its operands. -/
def readPseudo (m : Text) (operands : List Text) : Option Pseudo :=
  match m, operands with
  | ['L', 'D', 'K'], [] => some .ldk
  | ['L', 'D', 'B'], [a] => (readReg a).map .ldb
  | ['R', 'O', 'T', '1'], [a] => (readReg a).map .rot1
  | ['R', 'O', 'T', '2'], [a] => (readReg a).map .rot2
  | ['C', 'L', 'R'], [a] => (readReg a).map .clr
  | ['I', 'P', 'E', 'R', 'M'], [a, b] => do return .iperm (← readReg a) (← readReg b)
  | ['F', 'P', 'E', 'R', 'M'], [a, b] => do return .fperm (← readReg a) (← readReg b)
  | _, _ => none

/-- The instruction of a line: one of the forms of R92, or a pseudo-instruction's expansion. -/
def readLine (t : Text) : Option Instr :=
  let (m, operands) := tokens t
  match readPseudo m operands with
  | some p => some (expand p)
  | none => (readMnemonic m).bind fun o => readForm o operands

/-- The assembler: the word of a line, or none for a line it refuses. -/
def assemble (t : Text) : Option CmdWord := (readLine t).map encode

end Sys2Proof.Assembler
end

