-- ==== Sys2Proof/Safety.lean ====
section
/-! DEFINITION. The terms claims about the machine are stated in: what a register holds, what a command left unchanged,
what it returned, what an error did, which registers a command reads and writes, the order of the checks, the invariant
of the machine, and what the host can observe. -/

namespace Sys2Proof.Machine

/-! ## What a state shows -/

/-- Bit p of register r, in DES numbering. -/
def State.bit (s : State) (r : Reg) (p : Nat) : Bool := (s.storage r).getMsbD p

/-- Register r holds the value of `len` bytes whose bit p is `bits p`, with zeros after it (10_state.md R22, R23). -/
def RegHolds (s : State) (r : Reg) (len : Nat) (bits : Nat → Bool) : Prop :=
  s.lenOf r = len ∧ ∀ p < 64, s.bit r p = (decide (p < 8 * len) && bits p)

/-- The storage after the value is zero, as every write leaves it (10_state.md R23). -/
def CanonicalReg (r : DataReg) : Prop := ∀ p < 64, 8 * r.len.val ≤ p → r.storage.getMsbD p = false

/-- The model's own port fields, but for the responses, are the same (log entries 2, 3, 5). -/
def SamePort (s t : State) : Prop := t.pending = s.pending ∧ t.din = s.din ∧ t.resets = s.resets

/-- Every register is the same. -/
def SameRegs (s t : State) : Prop := ∀ r : Reg, t.reg r = s.reg r

/-- Of the architectural state only register d may differ (10_state.md R24). -/
def WroteOnly (d : Reg) (s t : State) : Prop :=
  (∀ r : Reg, r ≠ d → t.reg r = s.reg r) ∧ t.inst = s.inst ∧ t.status = s.status ∧ SamePort s t

/-- t is s after exactly one more response, whose status is the value of STATUS in t (20_memory.md R56). -/
def Returned (code : BitVec 4) (dout : Block) (olen : Fin 9) (s t : State) : Prop :=
  t.responses = s.responses ++ [{ code := code, status := t.status.word, dout := dout, olen := olen }]

/-- t is s after a command that raised e and had no other effect (60_exceptions.md R303, R304). -/
def Raised (e : ErrorKind) (s t : State) : Prop :=
  SameRegs s t ∧ t.inst = s.inst ∧ SamePort s t ∧
  t.status.err = true ∧ t.status.ecode = (if s.status.err then s.status.ecode else e.code) ∧
  t.status.sv = s.status.sv ∧ t.status.f = s.status.f ∧ Returned e.code 0 0 s t

/-- Instruction i raises e in s. -/
def Raises (i : Instr) (s : State) (e : ErrorKind) : Prop := ∃ t, exec i s = .next t ∧ Raised e s t

/-- Command word w raises e in s. -/
def WordRaises (w : CmdWord) (s : State) (e : ErrorKind) : Prop := ∃ t, runWord w s = .next t ∧ Raised e s t

/-- Instruction i succeeds in s, writes register d alone, and leaves in it the value of `len` bytes whose bit p is
`bits p`. -/
def Writes (i : Instr) (s : State) (d : Reg) (len : Nat) (bits : Nat → Bool) : Prop :=
  ∃ t, exec i s = .next t ∧ RegHolds t d len bits ∧ WroteOnly d s t ∧ Returned 0 0 0 s t

/-- Instruction i succeeds in s and leaves r in register d. -/
def Leaves (i : Instr) (s : State) (d : Reg) (r : DataReg) : Prop :=
  ∃ t, exec i s = .next t ∧ t.reg d = r ∧ Returned 0 0 0 s t

end Sys2Proof.Machine

namespace Sys2Proof

open Machine

/-! ## Which registers a command reads and writes (10_state.md R24, 60_exceptions.md R301) -/

/-- The data registers an instruction reads, in the order they are checked: S, then T, then D for BSET and ROT28. -/
def Instr.reads : Instr → List Reg
  | .nop | .ldv _ _ | .clrerr | .ldk _ | .rkrd _ _ _ => []
  | .stv a | .mov _ a | .btst a _ | .perm _ a _ | .sbox _ a | .swap _ a | .enc _ a | .dec _ a => [a]
  | .bset d _ _ | .rot28 d _ => [d]
  | .xor _ a b | .ffn _ a b | .fround _ a b => [a, b]

/-- The data register an instruction writes, with the length in bytes it gets. -/
def Instr.writes (s : State) : Instr → Option (Reg × Nat)
  | .nop | .stv _ | .clrerr | .btst _ _ | .ldk _ => none
  | .ldv d n => some (d, n.val)
  | .mov d a => some (d, s.lenOf a)
  | .bset d _ _ => some (d, s.lenOf d)
  | .perm d _ tbl => some (d, (tableEntries tbl).length / 8)
  | .rot28 d _ => some (d, 7)
  | .rkrd d _ _ => some (d, 6)
  | .xor d a _ => some (d, s.lenOf a)
  | .sbox d _ => some (d, 4)
  | .ffn d _ _ => some (d, 4)
  | .fround d _ _ => some (d, 8)
  | .swap d _ => some (d, 8)
  | .enc d _ => some (d, 8)
  | .dec d _ => some (d, 8)

/-- The commands that read RK or RKD (10_state.md R24, R32). -/
def Instr.readsSchedule : Instr → Bool
  | .rkrd _ _ _ | .enc _ _ | .dec _ _ => true
  | .nop | .ldv _ _ | .stv _ | .mov _ _ | .clrerr | .btst _ _ | .bset _ _ _ | .perm _ _ _ | .rot28 _ _ | .ldk _
  | .xor _ _ _ | .sbox _ _ | .ffn _ _ _ | .fround _ _ _ | .swap _ _ => false

/-- The commands that read din (20_memory.md R55). -/
def Instr.readsDin : Instr → Bool
  | .ldv _ _ | .ldk _ => true
  | .nop | .stv _ | .mov _ _ | .clrerr | .btst _ _ | .bset _ _ _ | .perm _ _ _ | .rot28 _ _ | .rkrd _ _ _
  | .xor _ _ _ | .sbox _ _ | .ffn _ _ _ | .fround _ _ _ | .swap _ _ | .enc _ _ | .dec _ _ => false

/-! ## The order of the checks (60_exceptions.md R305) -/

/-- Steps 1 and 2: what the instruction alone decides. -/
def Instr.fieldError : Instr → Option ErrorKind
  | .ldv _ n => if n.val = 0 ∨ 8 < n.val then some .illegalCommand else none
  | .rot28 _ k => if k.val = 0 ∨ k.val = 3 then some .rotateAmount else none
  | .ldk n => if n.val = 8 then none else some .invalidKeyLength
  | .nop | .stv _ | .mov _ _ | .clrerr | .btst _ _ | .bset _ _ _ | .perm _ _ _ | .rkrd _ _ _
  | .xor _ _ _ | .sbox _ _ | .ffn _ _ _ | .fround _ _ _ | .swap _ _ | .enc _ _ | .dec _ _ => none

/-- Step 5: the operand lengths that are wrong in s, S before T. -/
def Instr.lengthErrors (s : State) : Instr → List ErrorKind
  | .rot28 d _ => if s.lenOf d = 7 then [] else [.operandLength]
  | .xor _ a b => if s.lenOf a = s.lenOf b then [] else [.operandLength]
  | .sbox _ a => if s.lenOf a = 6 then [] else [.operandLength]
  | .ffn _ a b =>
    (if s.lenOf a = 4 then [] else [.operandLength]) ++ (if s.lenOf b = 6 then [] else [.operandLength])
  | .fround _ a b =>
    (if s.lenOf a = 8 then [] else [.invalidBlockLength]) ++ (if s.lenOf b = 6 then [] else [.operandLength])
  | .swap _ a | .enc _ a | .dec _ a => if s.lenOf a = 8 then [] else [.invalidBlockLength]
  | .nop | .ldv _ _ | .stv _ | .mov _ _ | .clrerr | .btst _ _ | .bset _ _ _ | .perm _ _ _ | .ldk _ | .rkrd _ _ _ => []

/-- Step 6: a bit position outside the register read. -/
def Instr.indexErrors (s : State) : Instr → List ErrorKind
  | .btst a pos => if pos.val < 8 * s.lenOf a then [] else [.bitIndexOutOfRange]
  | .bset d pos _ => if pos.val < 8 * s.lenOf d then [] else [.bitIndexOutOfRange]
  | .perm _ a tbl => if ∀ q ∈ tableEntries tbl, q < 8 * s.lenOf a then [] else [.bitIndexOutOfRange]
  | .nop | .ldv _ _ | .stv _ | .mov _ _ | .clrerr | .rot28 _ _ | .ldk _ | .rkrd _ _ _
  | .xor _ _ _ | .sbox _ _ | .ffn _ _ _ | .fround _ _ _ | .swap _ _ | .enc _ _ | .dec _ _ => []

/-- Every error that applies to an instruction in s, in the order of the checks. The command reports the first. -/
def Instr.errorsInOrder (s : State) (i : Instr) : List ErrorKind :=
  i.fieldError.toList ++
  (i.reads.filter (fun r => decide (s.lenOf r = 0))).map (fun _ => .emptyOperand) ++
  (if i.readsSchedule && !s.status.sv then [.noSchedule] else []) ++
  i.lengthErrors s ++ i.indexErrors s

end Sys2Proof

namespace Sys2Proof.Machine

/-! ## The invariant of the machine -/

/-- RKD is RK reversed whenever a cipher instance exists (10_state.md R29). -/
def State.SchedulesReversed (s : State) : Prop :=
  s.status.sv = true → ∀ r : Fin 16, roundKeyAt s.inst.rkd r = roundKeyAt s.inst.rk (Fin.rev r)

/-- ECODE is 0 exactly when ERR is 0 (10_state.md R31). -/
def State.ErrorCodeMatches (s : State) : Prop := s.status.err = false ↔ s.status.ecode = 0

/-- What every reachable state satisfies: the storage after a value is zero (10_state.md R23), ECODE is 0 exactly when
ERR is 0 (R31) and never above 8 (60_exceptions.md R300), and while SV = 1 CD, RK and RKD are those of KEY (10_state.md
R25, R26, R28, R29). -/
structure State.Inv (s : State) : Prop where
  canonical : ∀ r : Reg, CanonicalReg (s.reg r)
  errorCode : s.ErrorCodeMatches
  codeRange : s.status.ecode.toNat ≤ 8
  schedules : s.status.sv = true → s.inst = instanceOf s.inst.key

/-! ## What the host can observe -/

/-- Two states the host cannot tell apart: everything but KEY and CD is equal, and RK and RKD too while SV = 1
(10_state.md R25, R26, R32). -/
def ObsEq (s t : State) : Prop :=
  t.regs = s.regs ∧ t.status = s.status ∧ t.pending = s.pending ∧ t.din = s.din ∧ t.responses = s.responses ∧
  t.resets = s.resets ∧ (s.status.sv = true → t.inst.rk = s.inst.rk ∧ t.inst.rkd = s.inst.rkd)

/-- The state after the host makes one move at an idle port. A step of this machine always answers a next state; the
other two cases are there to make the function total. -/
def afterMove (s : State) (m : HostMove) : State :=
  match step (s.present m) with
  | .next t => t
  | .fault _ => s
  | .refused _ => s

/-- How many of a list of moves are commands that complete: a reset returns no response (70_reset_and_hazards.md R340). -/
def commandCount (ms : List HostMove) : Nat :=
  (ms.filter (fun m => match m with | .command _ _ => true | .reset _ => false)).length

end Sys2Proof.Machine
end

