-- ==== Sys2Proof/Certificates/Slice0/Obligations.lean ====
section
/-! DEFINITION. The statements for the provers. Each docstring names the rule of spec/ it formalises. The vocabulary is
that of Safety.lean and of the section below; registers are read bit by bit in DES numbering. -/

namespace Sys2Proof.Claims

open Machine

/-- A command word selects a row (match and mask) exactly when it decodes to the instruction its fields give. -/
def EncodedAs (matchWord mask : CmdWord) (build : CmdWord → Instr) : Prop :=
  ∀ w : CmdWord, w &&& mask = matchWord ↔ decode w = .ok (build w)

/-- Register r holds the n-bit value v: LEN[r] = n/8, and bit p of v is position p of the register. -/
def ValueIs {n : Nat} (s : State) (r : Reg) (v : BitVec n) : Prop :=
  8 * s.lenOf r = n ∧ ∀ p < n, v.getMsbD p = s.bit r p

/-- Instruction i succeeds in s, returns the data, and changes nothing of the machine. -/
def Outputs (i : Instr) (s : State) (dout : Block) (olen : Fin 9) : Prop :=
  ∃ t, exec i s = .next t ∧ SameRegs s t ∧ t.inst = s.inst ∧ t.status = s.status ∧ SamePort s t ∧
    Returned 0 dout olen s t

/-- Instruction i succeeds in s and changes nothing but STATUS, which becomes st. -/
def SetsStatus (i : Instr) (s : State) (st : Status) : Prop :=
  ∃ t, exec i s = .next t ∧ t.status = st ∧ SameRegs s t ∧ t.inst = s.inst ∧ SamePort s t ∧ Returned 0 0 0 s t

/-- From s to t and from s' to t' the same code and data were returned. -/
def SameAnswer (s t s' t' : State) : Prop :=
  ∃ code dout olen, Returned code dout olen s t ∧ Returned code dout olen s' t'

/-- The command from s to t succeeded. -/
def Succeeded (s t : State) : Prop := ∃ dout olen, Returned 0 dout olen s t

end Sys2Proof.Claims

open Sys2Proof Sys2Proof.Machine Sys2Proof.Claims

/-! ## Encoding and decoding (30_encoding.md) -/

/-- R81, R86, R91: decoding what a well-formed instruction is encoded as gives the instruction, every operand at every
value. -/
def Obligations.DecodeOfEncodeIsTheInstruction : Prop :=
  ∀ i : Instr, i.WellFormed → decode (encode i) = .ok i

/-- R81, R86, R91: an instruction that some word decodes to is well formed, and the word is its encoding, so that no two
words decode to one instruction. -/
def Obligations.EncodeOfDecodeIsTheWord : Prop :=
  ∀ (w : CmdWord) (i : Instr), decode w = .ok i → i.WellFormed ∧ encode i = w

/-- R87: a word selects exactly one row or is illegal; it is illegal exactly when its OP is reserved (the values listed)
or a must-be-zero bit of its row is set; and an illegal word raises IllegalCommand in every state. -/
def Obligations.EveryWordSelectsOneRowOrIsIllegal : Prop :=
  (∀ w : CmdWord, (∃! o : Op, w &&& o.mask = o.matchWord) ∨
    (((∀ o : Op, o.code ≠ fieldOp w) ∨ (∃ o : Op, o.code = fieldOp w ∧ w &&& o.mask ≠ o.matchWord)) ∧
      ∀ s, WordRaises w s .illegalCommand)) ∧
  (∀ w : CmdWord, ((∀ o : Op, o.code ≠ fieldOp w) ∨ (∃ o : Op, o.code = fieldOp w ∧ w &&& o.mask ≠ o.matchWord)) →
    (∀ o : Op, w &&& o.mask ≠ o.matchWord) ∧ (∀ s, WordRaises w s .illegalCommand)) ∧
  (∀ c : BitVec 6, (∀ o : Op, o.code ≠ c) ↔
    ((0x05 ≤ c.toNat ∧ c.toNat ≤ 0x07) ∨ (0x0B ≤ c.toNat ∧ c.toNat ≤ 0x0F) ∨ (0x13 ≤ c.toNat ∧ c.toNat ≤ 0x17) ∨
      (0x1C ≤ c.toNat ∧ c.toNat ≤ 0x1F) ∨ (0x23 ≤ c.toNat ∧ c.toNat ≤ 0x3F)))

/-- R83 (and R82 for D, S, T): every field is its bit range of the command word as an unsigned number. -/
def Obligations.FieldsAreUnsignedBitRanges : Prop :=
  ∀ w : CmdWord,
    (fieldOp w).toNat = w.toNat / 2 ^ 26 % 64 ∧ (fieldD w).val = w.toNat / 2 ^ 23 % 8 ∧
    (fieldS w).val = w.toNat / 2 ^ 20 % 8 ∧ (fieldT w).val = w.toNat / 2 ^ 17 % 8 ∧
    (fieldN w).val = w.toNat % 16 ∧ (fieldIdx w).val = w.toNat % 16 ∧ (fieldTbl w).val = w.toNat % 8 ∧
    (fieldK w).val = w.toNat % 4 ∧ (fieldPos w).val = w.toNat % 64 ∧
    (fieldVal w).toNat = w.toNat / 2 ^ 6 % 2 ∧ (fieldDir w).bit = w.toNat / 2 ^ 4 % 2

/-- R88: which values of N, TBL, K, IDX, DIR, POS and VAL are legal, and what each other value raises. -/
def Obligations.FieldValuesOutsideTheirRangeRaiseTheirError : Prop :=
  (∀ (w : CmdWord) (s : State), w &&& 0xFC7FFFF0#32 = 0x04000000#32 →
    if 1 ≤ (fieldN w).val ∧ (fieldN w).val ≤ 8 then decode w = .ok (.ldv (fieldD w) (fieldN w))
    else WordRaises w s .illegalCommand) ∧
  (∀ (w : CmdWord) (s : State), w &&& 0xFC0FFFF8#32 = 0x28000000#32 →
    if (fieldTbl w).val ≤ 5 then ∃ tbl : Table, tbl.selector = (fieldTbl w).val ∧ decode w = .ok (.perm (fieldD w) (fieldS w) tbl)
    else WordRaises w s .illegalCommand) ∧
  (∀ (w : CmdWord) (s : State), w &&& 0xFC7FFFFC#32 = 0x40000000#32 →
    decode w = .ok (.rot28 (fieldD w) (fieldK w)) ∧
    if (fieldK w).val = 1 ∨ (fieldK w).val = 2 then ¬WordRaises w s .rotateAmount else WordRaises w s .rotateAmount) ∧
  (∀ (w : CmdWord) (s : State), w &&& 0xFFFFFFF0#32 = 0x44000000#32 →
    decode w = .ok (.ldk (fieldN w)) ∧
    if (fieldN w).val = 8 then ¬WordRaises w s .invalidKeyLength else WordRaises w s .invalidKeyLength) ∧
  (∀ (w : CmdWord) (s : State), w &&& 0xFC7FFFE0#32 = 0x48000000#32 →
    decode w = .ok (.rkrd (fieldD w) (fieldDir w) (fieldIdx w)) ∧
    (s.status.sv = true → ∃ t, runWord w s = .next t ∧ Succeeded s t)) ∧
  (∀ (w : CmdWord) (s : State), w &&& 0xFF8FFFC0#32 = 0x20000000#32 →
    decode w = .ok (.btst (fieldS w) (fieldPos w)) ∧
    (s.lenOf (fieldS w) ≠ 0 →
      if (fieldPos w).val < 8 * s.lenOf (fieldS w) then ∃ t, runWord w s = .next t ∧ Succeeded s t
      else WordRaises w s .bitIndexOutOfRange)) ∧
  (∀ (w : CmdWord) (s : State), w &&& 0xFC7FFF80#32 = 0x24000000#32 →
    decode w = .ok (.bset (fieldD w) (fieldPos w) (fieldVal w)) ∧
    (s.lenOf (fieldD w) ≠ 0 →
      if (fieldPos w).val < 8 * s.lenOf (fieldD w) then ∃ t, runWord w s = .next t ∧ Succeeded s t
      else WordRaises w s .bitIndexOutOfRange))

/-- R86: words written out from the encoding column, one or more a row, decode to the instruction they stand for. -/
def Obligations.WrittenOutWordsDecode : Prop :=
  decode 0b00000000000000000000000000000000#32 = .ok .nop ∧
  decode 0b00000110100000000000000000000101#32 = .ok (.ldv 5 5) ∧
  decode 0b00001000001100000000000000000000#32 = .ok (.stv 3) ∧
  decode 0b00001111001000000000000000000000#32 = .ok (.mov 6 2) ∧
  decode 0b00010000000000000000000000000000#32 = .ok .clrerr ∧
  decode 0b00100000010000000000000000101001#32 = .ok (.btst 4 41) ∧
  decode 0b00100101100000000000000001010110#32 = .ok (.bset 3 22 true) ∧
  decode 0b00101000110100000000000000000011#32 = .ok (.perm 1 5 .pc2) ∧
  decode 0b01000001100000000000000000000010#32 = .ok (.rot28 3 2) ∧
  decode 0b01000100000000000000000000001000#32 = .ok (.ldk 8) ∧
  decode 0b01001001000000000000000000011010#32 = .ok (.rkrd 2 .rev 10) ∧
  decode 0b01100011001101000000000000000000#32 = .ok (.xor 6 3 2) ∧
  decode 0b01100110001100000000000000000000#32 = .ok (.sbox 4 3) ∧
  decode 0b01101010100101000000000000000000#32 = .ok (.ffn 5 1 2) ∧
  decode 0b01101100101111000000000000000000#32 = .ok (.fround 1 3 6) ∧
  decode 0b10000011101000000000000000000000#32 = .ok (.swap 7 2) ∧
  decode 0b10000100110000000000000000000000#32 = .ok (.enc 1 4) ∧
  decode 0b10001001000100000000000000000000#32 = .ok (.dec 2 1)

/-! ## The port, steps and reset (20_memory.md, 70_reset_and_hazards.md) -/

/-- R55, R91: a step takes the next command word with its din and executes the instruction it decodes to, or raises
IllegalCommand; nothing else of the state changes around it. The list of pending moves is the model's form of the port
(log entry 3). -/
def Obligations.StepExecutesThePresentedCommand : Prop :=
  ∀ (s : State) (w : CmdWord) (din : Block) (rest : List HostMove), s.pending = .command w din :: rest →
    ∃ u : State, u.pending = rest ∧ u.din = din ∧ u.regs = s.regs ∧ u.inst = s.inst ∧ u.status = s.status ∧
      u.responses = s.responses ∧ u.resets = s.resets ∧
      (∀ i, decode w = .ok i → step s = exec i u) ∧
      (∀ e, decode w = .error e → ∃ t, step s = .next t ∧ Raised .illegalCommand u t)

/-- R316: with no move of the host's the core holds its state, for as many steps as there are. That an idle step exists
is the model's reading (log entry 6). -/
def Obligations.IdleCoreHoldsItsState : Prop :=
  ∀ (n : Nat) (s : State), s.pending = [] → Host.Core.run core n s = .next s

/-- R340, R341: when the host asserts reset the core is in its reset state after the step, whether a command was
outstanding or not and whether it had taken effect or not: every register empty, STATUS 0x00, no response, no schedule a
command could read. What KEY, CD, RK and RKD hold is not said: they are unspecified. A reset as one move of the host's
is the model's form (log entry 14). -/
def Obligations.ResetMoveLeavesTheResetState : Prop :=
  ∀ (s : State) (o : Option (CmdWord × Block)) (rest : List HostMove), s.pending = .reset o :: rest →
    ∃ t, step s = .next t ∧ (∀ r : Reg, t.lenOf r = 0 ∧ t.storage r = 0) ∧
      t.status.err = false ∧ t.status.ecode = 0 ∧ t.status.sv = false ∧ t.status.f = false ∧ t.status.word = 0x00 ∧
      t.responses = s.responses ∧ t.pending = rest ∧
      (∀ i : Instr, i.readsSchedule = true → Raises i t .emptyOperand ∨ Raises i t .noSchedule) ∧
      (∀ (w : CmdWord) (din : Block) (u : State), o = some (w, din) →
        step { s with pending := .command w din :: .reset none :: rest } = .next u →
        ∃ t', step u = .next t' ∧ t'.regs = t.regs ∧ t'.status = t.status ∧ t'.pending = rest)

/-- R41: the values the spec gives for reset: every register empty with zero storage, STATUS 0x00. Nothing is said of
KEY, CD, RK and RKD, whose value in State.reset is the model's choice (log entry 1). That the port starts with nothing
presented and nothing returned is the model's choice too (log entries 3 and 4). -/
def Obligations.ResetStateHasTheSpecifiedValues : Prop :=
  (∀ r : Reg, State.reset.storage r = 0 ∧ State.reset.lenOf r = 0) ∧
  State.reset.status.err = false ∧ State.reset.status.ecode = 0 ∧ State.reset.status.sv = false ∧
  State.reset.status.f = false ∧ State.reset.status.word = 0x00 ∧
  State.reset.pending = [] ∧ State.reset.responses = []

/-- R38, R56: every command, legal or not, returns exactly one response: its code is 0 or one of the eight errors of
R300, its status is STATUS after the command, and only a successful STV drives dout and olen. -/
def Obligations.EveryCommandReturnsExactlyOneResponse : Prop :=
  ∀ (s : State) (w : CmdWord) (din : Block) (rest : List HostMove), s.pending = .command w din :: rest →
    ∃ (t : State) (resp : Response), step s = .next t ∧ t.pending = rest ∧ t.responses = s.responses ++ [resp] ∧
      resp.status = t.status.word ∧
      (resp.code = 0 ∨ ∃ e : ErrorKind, resp.code = e.code ∧ Raised e (s.accept din rest) t) ∧
      (∀ a : Reg, decode w = .ok (.stv a) → s.lenOf a ≠ 0 →
        resp.code = 0 ∧ resp.olen.val = s.lenOf a ∧
        ∀ p < 64, resp.dout.getMsbD p = (decide (p < 8 * s.lenOf a) && s.bit a p)) ∧
      (((∀ a : Reg, decode w ≠ .ok (.stv a)) ∨ resp.code ≠ 0) → resp.dout = 0 ∧ resp.olen = 0)

/-- R57: commands are executed one at a time, in the order the host presents them: running the machine over a whole
sequence of moves is the left fold of one move at an idle port, so no command sees a later one; and it returns one
response for each command. -/
def Obligations.SequencesAreTheLeftFoldOfStep : Prop :=
  ∀ (ms : List HostMove) (s : State), s.pending = [] →
    Host.Core.run core ms.length { s with pending := ms } = .next (ms.foldl afterMove s) ∧
    (ms.foldl afterMove s).pending = [] ∧
    (ms.foldl afterMove s).responses.length = s.responses.length + commandCount ms

/-! ## Invariants and whole-machine rules (10_state.md, 60_exceptions.md) -/

/-- Every step keeps the invariant: storage after a value is zero (R23), ECODE matches ERR (R31) and is at most 8
(R300), and while SV = 1 the instance is that of KEY (R25, R26, R28, R29). -/
def Obligations.StepKeepsTheInvariant : Prop :=
  ∀ s t : State, s.Inv → step s = .next t → t.Inv

/-- The reset state meets the invariant. -/
def Obligations.ResetStateMeetsTheInvariant : Prop := State.reset.Inv

/-- R28, R29: after every command RKD is RK reversed while SV = 1; and only a successful LDK writes either schedule, all
sixteen entries of both in one step. -/
def Obligations.SchedulesStayReversedAndOnlyLdkWritesThem : Prop :=
  (∀ s t : State, s.SchedulesReversed → step s = .next t → t.SchedulesReversed) ∧
  (∀ (w : CmdWord) (s t : State), runWord w s = .next t → (t.inst.rk ≠ s.inst.rk ∨ t.inst.rkd ≠ s.inst.rkd) →
    decode w = .ok (.ldk 8) ∧ Succeeded s t) ∧
  (∀ (w : CmdWord) (s t : State), runWord w s = .next t → decode w = .ok (.ldk 8) → ∀ r : Fin 16,
    roundKeyAt t.inst.rk r = roundKeyOf s.din r.val ∧ roundKeyAt t.inst.rkd r = roundKeyOf s.din (15 - r.val))

/-- R30: the layout of STATUS, with bit 7 reading 0. -/
def Obligations.StatusWordHasTheStatedLayout : Prop :=
  ∀ st : Status, st.word.getLsbD 0 = st.err ∧ (∀ k < 4, st.word.getLsbD (1 + k) = st.ecode.getLsbD k) ∧
    st.word.getLsbD 5 = st.sv ∧ st.word.getLsbD 6 = st.f ∧ st.word.getLsbD 7 = false

/-- R31: ERR and ECODE are written only by a fault, as R303 says, and by CLRERR; a command that completes without fault
leaves both; and ECODE = 0 exactly when ERR = 0 is kept. -/
def Obligations.ErrorFieldsChangeOnlyByFaultsAndClrerr : Prop :=
  ∀ (w : CmdWord) (s : State), ∃ t, runWord w s = .next t ∧
    ((∃ e, Raised e s t) ∨
      (Succeeded s t ∧
        if decode w = .ok .clrerr then t.status.err = false ∧ t.status.ecode = 0
        else t.status.err = s.status.err ∧ t.status.ecode = s.status.ecode)) ∧
    (s.ErrorCodeMatches → t.ErrorCodeMatches)

/-- R33: F is written only by a BTST that completes without fault, with the tested bit; no other command reads it; the
host sees it as bit 6 of the status in every response. -/
def Obligations.BitTestFlagIsWrittenOnlyByBtst : Prop :=
  ∀ (w : CmdWord) (s : State), ∃ t, runWord w s = .next t ∧
    (∀ a pos, decode w = .ok (.btst a pos) → Succeeded s t → t.status.f = s.bit a pos.val) ∧
    (t.status.f ≠ s.status.f → ∃ a pos, decode w = .ok (.btst a pos) ∧ Succeeded s t) ∧
    (∀ resp, t.responses = s.responses ++ [resp] → resp.status.getLsbD 6 = t.status.f) ∧
    (∀ b : Bool, ∃ t', runWord w (s.setStatus { s.status with f := b }) = .next t' ∧
      SameRegs t t' ∧ t'.inst = t.inst ∧ t'.status.err = t.status.err ∧ t'.status.ecode = t.status.ecode ∧
      t'.status.sv = t.status.sv ∧ SameAnswer s t (s.setStatus { s.status with f := b }) t')

/-- R32: SV is 0 at reset, set by a successful LDK alone, cleared by reset alone; and while it is 0 every command that
would read a schedule raises NoSchedule, once its operand is there. -/
def Obligations.ScheduleValidFlagGuardsTheSchedules : Prop :=
  State.reset.status.sv = false ∧
  (∀ (w : CmdWord) (s t : State), runWord w s = .next t →
    (t.status.sv = true ↔ s.status.sv = true ∨ (decode w = .ok (.ldk 8) ∧ Succeeded s t))) ∧
  (∀ (s t : State) (o : Option (CmdWord × Block)) (rest : List HostMove), s.pending = .reset o :: rest →
    step s = .next t → t.status.sv = false) ∧
  (∀ (i : Instr) (s : State), i.readsSchedule = true → s.status.sv = false → (∀ r ∈ i.reads, s.lenOf r ≠ 0) →
    Raises i s .noSchedule)

/-- R24: no command writes more than one data register; a successful one writes the register of the table with the
length of the table, a failed one none, and BTST alone writes F; the result does not depend on a data register outside
the reads column, on RK or RKD unless the column names them, or on din unless the command is LDV or LDK. -/
def Obligations.RegisterReadersAndWriters : Prop :=
  ∀ (i : Instr) (s : State), ∃ t, exec i s = .next t ∧
    (¬Succeeded s t → SameRegs s t) ∧
    (Succeeded s t → (∀ r : Reg, (i.writes s).map Prod.fst ≠ some r → t.reg r = s.reg r) ∧
      (∀ d n, i.writes s = some (d, n) → t.lenOf d = n)) ∧
    (t.status.f ≠ s.status.f → ∃ a pos, i = .btst a pos) ∧
    (∀ (r : Reg) (v : DataReg), r ∉ i.reads → ∃ t', exec i (s.setReg r v) = .next t' ∧
      SameAnswer s t (s.setReg r v) t' ∧ t'.inst = t.inst ∧ t'.status = t.status ∧
      (∀ q : Reg, q ≠ r → t'.reg q = t.reg q) ∧
      (Succeeded s t ∧ (i.writes s).map Prod.fst = some r → t'.reg r = t.reg r) ∧
      (¬(Succeeded s t ∧ (i.writes s).map Prod.fst = some r) → t'.reg r = v)) ∧
    (i.readsSchedule = false → ∀ c : CipherInstance, ∃ t', exec i (s.setInst c) = .next t' ∧
      SameAnswer s t (s.setInst c) t' ∧ SameRegs t t' ∧ t'.status = t.status) ∧
    (i.readsDin = false → ∀ v : Block, ∃ t', exec i (s.accept v s.pending) = .next t' ∧
      SameAnswer s t (s.accept v s.pending) t' ∧ SameRegs t t' ∧ t'.inst = t.inst ∧ t'.status = t.status)

/-- R301, R305: a command reports the first error that applies in the stated order, EmptyOperand for every empty
register it reads among them, and succeeds when none applies; an illegal word raises IllegalCommand before anything
else. -/
def Obligations.ChecksAreMadeInTheStatedOrder : Prop :=
  (∀ (i : Instr) (s : State),
    match (i.errorsInOrder s).head? with
    | some e => Raises i s e
    | none => ∃ t, exec i s = .next t ∧ Succeeded s t) ∧
  (∀ (w : CmdWord) (e : Illegal) (s : State), decode w = .error e → WordRaises w s .illegalCommand)

/-- R303, R304: the eight errors have the numbers of R300, which the host sees as the response code and, for the first
fault, in ECODE; a command that does not succeed has no effect but the bookkeeping of R303; ERR and ECODE, once set, stay
until CLRERR or reset; and no command depends on them: the next one executes the same whatever they are. -/
def Obligations.ErrorsArePreciseAndSticky : Prop :=
  (ErrorKind.illegalCommand.code = 1 ∧ ErrorKind.invalidKeyLength.code = 2 ∧ ErrorKind.invalidBlockLength.code = 3 ∧
    ErrorKind.bitIndexOutOfRange.code = 4 ∧ ErrorKind.rotateAmount.code = 5 ∧ ErrorKind.operandLength.code = 6 ∧
    ErrorKind.emptyOperand.code = 7 ∧ ErrorKind.noSchedule.code = 8) ∧
  ∀ (w : CmdWord) (s : State), ∃ t, runWord w s = .next t ∧
    (Succeeded s t ∨ ∃ e, Raised e s t) ∧
    (s.status.err = true → decode w ≠ .ok .clrerr → t.status.err = true ∧ t.status.ecode = s.status.ecode) ∧
    (∀ (b : Bool) (c : BitVec 4), ∃ t', runWord w (s.setStatus { s.status with err := b, ecode := c }) = .next t' ∧
      SameRegs t t' ∧ t'.inst = t.inst ∧ t'.status.sv = t.status.sv ∧ t'.status.f = t.status.f ∧
      SameAnswer s t (s.setStatus { s.status with err := b, ecode := c }) t')

/-- R25, R26, R32: what the spec leaves unspecified or hides never reaches the host: from two states that differ in KEY
and CD, and in RK and RKD too while SV = 0, any number of steps gives states the host cannot tell apart. So nothing rests
on the values log entries 1 and 2 name. -/
def Obligations.HiddenStateNeverReachesTheHost : Prop :=
  ∀ (n : Nat) (s t : State), ObsEq s t →
    ∃ s' t' : State, Host.Core.run core n s = .next s' ∧ Host.Core.run core n t = .next t' ∧ ObsEq s' t'

/-- R53, R55: only LDV and LDK use din, and LDV only its first N bytes; every other command does the same whatever din
is. -/
def Obligations.OnlyLdvAndLdkReadDin : Prop :=
  (∀ (w : CmdWord) (s : State) (v : Block), (∀ i, decode w = .ok i → i.readsDin = false) →
    ∃ t, runWord w s = .next t ∧ runWord w (s.accept v s.pending) = .next (t.accept v t.pending)) ∧
  (∀ (d : Reg) (n : Fin 16) (s : State) (v : Block), (∀ p < 8 * n.val, v.getMsbD p = s.din.getMsbD p) →
    ∃ t, exec (.ldv d n) s = .next t ∧ exec (.ldv d n) (s.accept v s.pending) = .next (t.accept v t.pending))

/-- R343: only RKRD, ENC and DEC depend on SV and the instance: every other command does the same whatever they are, and
never raises NoSchedule. -/
def Obligations.OtherCommandsNeedNoKey : Prop :=
  ∀ (i : Instr) (s : State), i.readsSchedule = false →
    ¬Raises i s .noSchedule ∧
    ∀ (c : CipherInstance) (b : Bool), ∃ t t', exec i s = .next t ∧
      exec i ((s.setInst c).setStatus { s.status with sv := b }) = .next t' ∧
      SameRegs t t' ∧ t'.status.err = t.status.err ∧ t'.status.ecode = t.status.ecode ∧ t'.status.f = t.status.f ∧
      SameAnswer s t ((s.setInst c).setStatus { s.status with sv := b }) t'

/-! ## Host transfer and control commands (40_host_transfer.md) -/

/-- R120: NOP is the one word 0; it changes nothing and returns code 0 from any state; any other word with OP 0 raises
IllegalCommand. -/
def Obligations.NopDoesNothing : Prop :=
  EncodedAs 0x00000000#32 0xFFFFFFFF#32 (fun _ => .nop) ∧
  (∀ (w : CmdWord) (s : State), fieldOp w = 0x00 → w ≠ 0 → WordRaises w s .illegalCommand) ∧
  (∀ s : State, Outputs .nop s 0 0)

/-- R121: LDV. -/
def Obligations.LdvLoadsBytesFromThePort : Prop :=
  (∀ w : CmdWord, (w &&& 0xFC7FFFF0#32 = 0x04000000#32 ∧ 1 ≤ (fieldN w).val ∧ (fieldN w).val ≤ 8) ↔
    decode w = .ok (.ldv (fieldD w) (fieldN w))) ∧
  (∀ (w : CmdWord) (s : State), w &&& 0xFC7FFFF0#32 = 0x04000000#32 → ((fieldN w).val = 0 ∨ 8 < (fieldN w).val) →
    WordRaises w s .illegalCommand) ∧
  (∀ (d : Reg) (n : Fin 16) (s : State), 1 ≤ n.val → n.val ≤ 8 → Writes (.ldv d n) s d n.val s.din.getMsbD) ∧
  (∀ (i : Instr) (s : State) (v : Block), (∀ d n, i ≠ .ldv d n) →
    ∃ t t', exec i s = .next t ∧ exec i (s.accept v s.pending) = .next t' ∧ SameRegs t t') ∧
  decode 0x04000008#32 = .ok (.ldv 0 8) ∧ decode 0x05800004#32 = .ok (.ldv 3 4) ∧
  (∀ s : State, s.din = 0x0123456789ABCDEF#64 →
    Leaves (.ldv 0 8) s 0 { storage := 0x0123456789ABCDEF#64, len := 8 } ∧
    Leaves (.ldv 3 4) s 3 { storage := 0x0123456700000000#64, len := 4 })

/-- R124: STV. -/
def Obligations.StvReturnsTheRegister : Prop :=
  EncodedAs 0x08000000#32 0xFF8FFFFF#32 (fun w => .stv (fieldS w)) ∧
  (∀ (a : Reg) (s : State), s.lenOf a ≠ 0 → ∃ dout : Block,
    (∀ p < 64, dout.getMsbD p = (decide (p < 8 * s.lenOf a) && s.bit a p)) ∧
    ∀ s' : State, s'.reg a = s.reg a → Outputs (.stv a) s' dout (s.reg a).len) ∧
  (∀ (a : Reg) (s : State), s.lenOf a = 0 → Raises (.stv a) s .emptyOperand) ∧
  decode 0x08300000#32 = .ok (.stv 3) ∧
  (∀ s : State, s.reg 3 = { storage := 0x0123456700000000#64, len := 4 } →
    Outputs (.stv 3) s 0x0123456700000000#64 4)

/-- R126: MOV; and no command makes a register empty. -/
def Obligations.MovCopiesTheRegister : Prop :=
  EncodedAs 0x0C000000#32 0xFC0FFFFF#32 (fun w => .mov (fieldD w) (fieldS w)) ∧
  (∀ (d a : Reg) (s : State), s.lenOf a ≠ 0 → Writes (.mov d a) s d (s.lenOf a) (s.bit a)) ∧
  (∀ (d a : Reg) (s : State), s.lenOf a = 0 → Raises (.mov d a) s .emptyOperand) ∧
  (∀ (a : Reg) (s : State), s.lenOf a ≠ 0 → CanonicalReg (s.reg a) → Outputs (.mov a a) s 0 0) ∧
  (∀ (i : Instr) (s t : State) (r : Reg), exec i s = .next t → s.lenOf r ≠ 0 → t.lenOf r ≠ 0) ∧
  decode 0x0C800000#32 = .ok (.mov 1 0) ∧
  (∀ s : State, s.reg 0 = { storage := 0xF0CCAAF556678F00#64, len := 7 } →
    Leaves (.mov 1 0) s 1 { storage := 0xF0CCAAF556678F00#64, len := 7 })

/-- R128: CLRERR. -/
def Obligations.ClrerrClearsTheErrorFields : Prop :=
  EncodedAs 0x10000000#32 0xFFFFFFFF#32 (fun _ => .clrerr) ∧
  (∀ s : State, SetsStatus .clrerr s { s.status with err := false, ecode := 0 }) ∧
  (∀ (w : CmdWord) (s : State), fieldOp w = 0x04 → w ≠ 0x10000000#32 → WordRaises w s .illegalCommand) ∧
  (∀ s : State, s.ErrorCodeMatches → s.status.err = false → SetsStatus .clrerr s s.status) ∧
  (∀ s : State, s.status.word = 0x2F → ∃ t, exec .clrerr s = .next t ∧ t.status.word = 0x20 ∧ Returned 0 0 0 s t)

/-! ## Bit-field commands (41_bitfield.md) -/

/-- R140, R142: BTST; a position is in bounds exactly when it is below 8 * LEN. -/
def Obligations.BtstTestsTheBit : Prop :=
  EncodedAs 0x20000000#32 0xFF8FFFC0#32 (fun w => .btst (fieldS w) (fieldPos w)) ∧
  (∀ (a : Reg) (pos : Fin 64) (s : State), pos.val < 8 * s.lenOf a →
    SetsStatus (.btst a pos) s { s.status with f := s.bit a pos.val }) ∧
  (∀ (a : Reg) (pos : Fin 64) (s : State), s.lenOf a = 0 → Raises (.btst a pos) s .emptyOperand) ∧
  (∀ (a : Reg) (pos : Fin 64) (s : State), s.lenOf a ≠ 0 → 8 * s.lenOf a ≤ pos.val →
    Raises (.btst a pos) s .bitIndexOutOfRange) ∧
  decode 0x20000007#32 = .ok (.btst 0 7) ∧ decode 0x20000000#32 = .ok (.btst 0 0) ∧
  (∀ s : State, s.reg 0 = { storage := 0x0123456789ABCDEF#64, len := 8 } →
    (∃ t, exec (.btst 0 7) s = .next t ∧ t.status.f = true ∧ t.status.word.getLsbD 6 = true) ∧
    (∃ t, exec (.btst 0 0) s = .next t ∧ t.status.f = false))

/-- R141, R142: BSET. -/
def Obligations.BsetSetsOneBit : Prop :=
  EncodedAs 0x24000000#32 0xFC7FFF80#32 (fun w => .bset (fieldD w) (fieldPos w) (fieldVal w)) ∧
  (∀ (d : Reg) (pos : Fin 64) (val : Bool) (s : State), pos.val < 8 * s.lenOf d →
    Writes (.bset d pos val) s d (s.lenOf d) (fun p => if p = pos.val then val else s.bit d p)) ∧
  (∀ (d : Reg) (pos : Fin 64) (val : Bool) (s : State), s.lenOf d = 0 → Raises (.bset d pos val) s .emptyOperand) ∧
  (∀ (d : Reg) (pos : Fin 64) (val : Bool) (s : State), s.lenOf d ≠ 0 → 8 * s.lenOf d ≤ pos.val →
    Raises (.bset d pos val) s .bitIndexOutOfRange) ∧
  (∀ (d : Reg) (pos : Fin 64) (s : State), pos.val < 8 * s.lenOf d → CanonicalReg (s.reg d) →
    Leaves (.bset d pos (s.bit d pos.val)) s d (s.reg d)) ∧
  decode 0x24000040#32 = .ok (.bset 0 0 true) ∧ decode 0x2400003F#32 = .ok (.bset 0 63 false) ∧
  (∀ s : State, s.reg 0 = { storage := 0x0123456789ABCDEF#64, len := 8 } →
    Leaves (.bset 0 0 true) s 0 { storage := 0x8123456789ABCDEF#64, len := 8 } ∧
    Leaves (.bset 0 63 false) s 0 { storage := 0x0123456789ABCDEE#64, len := 8 })

/-! ## The permutation engine (42_permutation.md) -/

/-- R151, R152, R153: PERM; bit p of the result is bit T[p] of the source, which may be longer than the table needs but
not shorter; what each table reads twice or drops; and FP undoes IP. -/
def Obligations.PermAppliesTheTable : Prop :=
  (∀ (w : CmdWord) (tbl : Table), (w &&& 0xFC0FFFF8#32 = 0x28000000#32 ∧ (fieldTbl w).val = tbl.selector) ↔
    decode w = .ok (.perm (fieldD w) (fieldS w) tbl)) ∧
  (∀ (w : CmdWord) (s : State), w &&& 0xFC0FFFF8#32 = 0x28000000#32 → 6 ≤ (fieldTbl w).val →
    WordRaises w s .illegalCommand) ∧
  (∀ (d a : Reg) (tbl : Table) (s : State), s.lenOf a ≠ 0 → (∀ q ∈ tableEntries tbl, q < 8 * s.lenOf a) →
    Writes (.perm d a tbl) s d ((tableEntries tbl).length / 8) (fun p => s.bit a ((tableEntries tbl).getD p 0))) ∧
  (∀ (d a : Reg) (tbl : Table) (s : State), s.lenOf a = 0 → Raises (.perm d a tbl) s .emptyOperand) ∧
  (∀ (d a : Reg) (tbl : Table) (s : State), s.lenOf a ≠ 0 → (∃ q ∈ tableEntries tbl, 8 * s.lenOf a ≤ q) →
    Raises (.perm d a tbl) s .bitIndexOutOfRange) ∧
  ((List.range 32).filter (fun q => tableE.count q = 2)).length = 16 ∧
  (∀ q < 32, tableE.count q = 1 ∨ tableE.count q = 2) ∧
  (∀ q < 64, q ∉ tablePC1 ↔ q % 8 = 7) ∧
  (∀ q < 56, q ∉ tablePC2 ↔ q ∈ [8, 17, 21, 24, 34, 37, 42, 53]) ∧
  (∀ q < 64, tableIP.count q = 1 ∧ tableFP.count q = 1) ∧
  (∀ x : Block, permute 64 tableFP (permute 64 tableIP x) = x) ∧
  decode 0x28800000#32 = .ok (.perm 1 0 .ip) ∧
  (∀ s : State, s.reg 0 = { storage := 0x0123456789ABCDEF#64, len := 8 } →
    Leaves (.perm 1 0 .ip) s 1 { storage := 0xCC00CCFFF0AAF0AA#64, len := 8 })

/-- R6, R154: the six tables: selector, length, output length, largest entry, and the smallest source length that
passes; every entry is a valid index into the width the table is used on; selectors 6 and 7 are IllegalCommand. -/
def Obligations.TablesHaveTheStatedShapes : Prop :=
  [Table.ip, .fp, .pc1, .pc2, .e, .p].map (fun t => (t.selector, (tableEntries t).length, (tableBytes t).val,
      maxEntry (tableEntries t))) =
    [(0, 64, 8, 63), (1, 64, 8, 63), (2, 56, 7, 62), (3, 48, 6, 55), (4, 48, 6, 31), (5, 32, 4, 31)] ∧
  (∀ len : Fin 9, [Table.ip, .fp, .pc1, .pc2, .e, .p].map
      (fun t => decide (∀ q ∈ tableEntries t, q < 8 * len.val)) =
    [decide (8 ≤ len.val), decide (8 ≤ len.val), decide (8 ≤ len.val), decide (7 ≤ len.val), decide (4 ≤ len.val),
      decide (4 ≤ len.val)]) ∧
  (∀ q ∈ tableIP ++ tableFP ++ tablePC1, q < 64) ∧ (∀ q ∈ tablePC2, q < 56) ∧ (∀ q ∈ tableE ++ tableP, q < 32) ∧
  (∀ (w : CmdWord) (s : State), w &&& 0xFC0FFFF8#32 = 0x28000000#32 → (fieldTbl w).val = 6 ∨ (fieldTbl w).val = 7 →
    WordRaises w s .illegalCommand)

/-- R156: T_FP is the inverse of T_IP, as tables and, both ways, as permutations of every block. -/
def Obligations.FinalPermutationInvertsTheInitialOne : Prop :=
  (∀ d < 64, tableFP.getD (tableIP.getD d 0) 0 = d) ∧
  (∀ x : Block, permute 64 tableFP (permute 64 tableIP x) = x ∧ permute 64 tableIP (permute 64 tableFP x) = x)

/-! ## The rotator (43_rotator.md) -/

/-- R171: rot28 turns each half left by k, bit by bit, and no bit moves between the halves. -/
def Obligations.RotatorTurnsEachHalfAlone : Prop :=
  ∀ (cd : CDValue) (k : Nat), k = 1 ∨ k = 2 → ∀ i < 28,
    (rot28 cd k).getMsbD i = cd.getMsbD ((i + k) % 28) ∧
    (rot28 cd k).getMsbD (28 + i) = cd.getMsbD (28 + (i + k) % 28)

/-- R172: the 32-bit technique with the patch of each half gives the 28-bit rotation of R171. -/
def Obligations.FoldTechniqueAgreesWithTheRotation : Prop :=
  ∀ (cd : CDValue) (k : Nat), k = 1 ∨ k = 2 →
    foldLeft28 (halfC cd) k = halfC (rot28 cd k) ∧ foldRight28 (halfD cd) k = halfD (rot28 cd k)

/-- R175: the amount adds up, 28 rotations by 1 or 14 by 2 or the 16 of the schedule are the identity, the halves are
independent, and the number of ones in each half stays. -/
def Obligations.RotatorProperties : Prop :=
  (∀ x : CDValue, rot28 (rot28 x 1) 1 = rot28 x 2) ∧
  (∀ x : CDValue, (fun y => rot28 y 1)^[28] x = x ∧ (fun y => rot28 y 2)^[14] x = x ∧
    (List.range 16).foldl (fun y r => rot28 y (shiftOf r)) x = x) ∧
  (∀ (x y : CDValue) (k : Nat), k = 1 ∨ k = 2 →
    (halfC x = halfC y → halfC (rot28 x k) = halfC (rot28 y k)) ∧
    (halfD x = halfD y → halfD (rot28 x k) = halfD (rot28 y k))) ∧
  (∀ (x : CDValue) (k : Nat), k = 1 ∨ k = 2 →
    ((List.range 28).filter (fun i => (rot28 x k).getMsbD i)).length =
      ((List.range 28).filter (fun i => x.getMsbD i)).length ∧
    ((List.range 28).filter (fun i => (rot28 x k).getMsbD (28 + i))).length =
      ((List.range 28).filter (fun i => x.getMsbD (28 + i))).length)

/-- R174: ROT28. -/
def Obligations.Rot28RotatesTheRegister : Prop :=
  EncodedAs 0x40000000#32 0xFC7FFFFC#32 (fun w => .rot28 (fieldD w) (fieldK w)) ∧
  (∀ (d : Reg) (k : Fin 4) (s : State), k.val = 1 ∨ k.val = 2 → s.lenOf d = 7 →
    Writes (.rot28 d k) s d 7
      (fun p => if p < 28 then s.bit d ((p + k.val) % 28) else s.bit d (28 + (p - 28 + k.val) % 28))) ∧
  (∀ (d : Reg) (k : Fin 4) (s : State), k.val = 0 ∨ k.val = 3 → Raises (.rot28 d k) s .rotateAmount) ∧
  (∀ (d : Reg) (k : Fin 4) (s : State), k.val = 1 ∨ k.val = 2 → s.lenOf d = 0 →
    Raises (.rot28 d k) s .emptyOperand) ∧
  (∀ (d : Reg) (k : Fin 4) (s : State), k.val = 1 ∨ k.val = 2 → s.lenOf d ≠ 0 → s.lenOf d ≠ 7 →
    Raises (.rot28 d k) s .operandLength) ∧
  (∀ k : Nat, k = 1 ∨ k = 2 → rot28 0 k = 0 ∧ rot28 (BitVec.allOnes 56) k = BitVec.allOnes 56 ∧
    rot28 (BitVec.twoPow 56 55) k = BitVec.twoPow 56 (55 - (28 - k)) ∧
    rot28 (BitVec.twoPow 56 27) k = BitVec.twoPow 56 (55 - (56 - k))) ∧
  decode 0x40800001#32 = .ok (.rot28 1 1) ∧
  (∀ s : State, s.reg 1 = { storage := 0xF0CCAAF556678F00#64, len := 7 } →
    Leaves (.rot28 1 1) s 1 { storage := 0xE19955FAACCF1E00#64, len := 7 }) ∧
  (∀ s : State, s.reg 1 = { storage := 0xE19955FAACCF1E00#64, len := 7 } →
    Leaves (.rot28 1 1) s 1 { storage := 0xC332ABF5599E3D00#64, len := 7 })

/-! ## The key schedule (44_key_schedule.md) -/

/-- R190, R191: the rotation amounts and the schedule: CD_0 is PC-1 of the key, each round turns CD by SHIFT[r] and then
takes PC-2; so bit j of round key r is one bit of the key, found by turning PC2[j] within its half by all the amounts up
to r and looking it up in PC1. -/
def Obligations.RoundKeysAreBitsOfTheKey : Prop :=
  (∀ r < 16, shiftOf r = if r ∈ [0, 1, 8, 15] then 1 else 2) ∧
  ((List.range 16).map shiftOf).sum = 28 ∧
  (∀ key : Block, (∀ i < 56, (cdAfter key 0).getMsbD i = key.getMsbD (tablePC1.getD i 0)) ∧
    (∀ r < 16, cdAfter key (r + 1) = rot28 (cdAfter key r) (shiftOf r)) ∧
    (∀ r < 16, ∀ j < 48, (roundKeyOf key r).getMsbD j = (cdAfter key (r + 1)).getMsbD (tablePC2.getD j 0)) ∧
    (∀ r < 16, ∀ j < 48, (roundKeyOf key r).getMsbD j =
      let q := tablePC2.getD j 0
      let turned := ((List.range (r + 1)).map shiftOf).sum
      key.getMsbD (tablePC1.getD (if q < 28 then (q + turned) % 28 else 28 + (q - 28 + turned) % 28) 0)))

/-- R192, R195: LDK. -/
def Obligations.LdkBuildsTheInstance : Prop :=
  EncodedAs 0x44000000#32 0xFFFFFFF0#32 (fun w => .ldk (fieldN w)) ∧
  (∀ s : State, ∃ t, exec (.ldk 8) s = .next t ∧ t.inst.key = s.din ∧ t.inst.cd = cdAfter s.din 16 ∧
    (∀ r : Fin 16, roundKeyAt t.inst.rk r = roundKeyOf s.din r.val ∧
      roundKeyAt t.inst.rkd r = roundKeyAt t.inst.rk (Fin.rev r)) ∧
    t.status = { s.status with sv := true } ∧ SameRegs s t ∧ SamePort s t ∧ Returned 0 0 0 s t) ∧
  (∀ (n : Fin 16) (s : State), n.val ≠ 8 → Raises (.ldk n) s .invalidKeyLength) ∧
  decode 0x44000008#32 = .ok (.ldk 8) ∧
  (∀ s : State, s.din = 0x133457799BBCDFF1#64 → ∃ t, exec (.ldk 8) s = .next t ∧ t.status.sv = true ∧
    roundKeyAt t.inst.rk 0 = 0x1B02EFFC7072#48 ∧ roundKeyAt t.inst.rk 15 = 0xCB3D8B0E17F5#48)

/-- R193: parity is never checked, and the parity positions, the last bit of each byte, take no part in the schedule. -/
def Obligations.ParityBitsTakeNoPart : Prop :=
  (∀ q ∈ tablePC1, q % 8 ≠ 7) ∧
  (∀ k k' : Block, (∀ p < 64, p % 8 ≠ 7 → k.getMsbD p = k'.getMsbD p) →
    cdAfter k 0 = cdAfter k' 0 ∧ scheduleOf k = scheduleOf k') ∧
  (∀ s : State, ∃ t, exec (.ldk 8) s = .next t ∧ Returned 0 0 0 s t ∧ t.inst.rk = scheduleOf s.din) ∧
  cdAfter 0x133457799BBCDFF1#64 0 = 0xF0CCAAF556678F#56 ∧ cdAfter 0x123456789ABCDEF0#64 0 = 0xF0CCAAF556678F#56

/-- R194: the same key gives the same instance from any two states; the final CD is the initial one; an all-zero key
gives all-zero round keys and an all-one key all-one ones. -/
def Obligations.ScheduleProperties : Prop :=
  (∀ s s' : State, s.din = s'.din →
    ∃ t t', exec (.ldk 8) s = .next t ∧ exec (.ldk 8) s' = .next t' ∧ t'.inst = t.inst) ∧
  (∀ key : Block, cdAfter key 16 = cdAfter key 0) ∧
  (∀ r < 16, roundKeyOf 0 r = 0 ∧ roundKeyOf (BitVec.allOnes 64) r = BitVec.allOnes 48)

/-- R196: a key load while SV = 1 replaces the whole instance and leaves the data registers; loading the old key again
brings the old instance back; a key load that fails leaves the instance. -/
def Obligations.RekeyingReplacesTheInstance : Prop :=
  (∀ (s : State) (key : Block), s.status.sv = true →
    (afterMove s (.command 0x44000008#32 key)).inst = instanceOf key ∧
    (afterMove s (.command 0x44000008#32 key)).status.sv = true ∧
    SameRegs s (afterMove s (.command 0x44000008#32 key))) ∧
  (∀ (s : State) (k1 k2 : Block), s.inst = instanceOf k1 → s.status.sv = true →
    (afterMove (afterMove s (.command 0x44000008#32 k2)) (.command 0x44000008#32 k1)).inst = s.inst) ∧
  (∀ (n : Fin 16) (s : State), n.val ≠ 8 →
    ∃ t, exec (.ldk n) s = .next t ∧ t.inst = s.inst ∧ t.status.sv = s.status.sv)

/-- R197: RKRD. -/
def Obligations.RkrdReadsTheRoundKey : Prop :=
  EncodedAs 0x48000000#32 0xFC7FFFE0#32 (fun w => .rkrd (fieldD w) (fieldDir w) (fieldIdx w)) ∧
  (∀ (d : Reg) (idx : Fin 16) (s : State), s.status.sv = true →
    Writes (.rkrd d .fwd idx) s d 6 (roundKeyAt s.inst.rk idx).getMsbD ∧
    Writes (.rkrd d .rev idx) s d 6 (roundKeyAt s.inst.rkd idx).getMsbD) ∧
  (∀ (d : Reg) (dir : Direction) (idx : Fin 16) (s : State), s.status.sv = false →
    Raises (.rkrd d dir idx) s .noSchedule) ∧
  (∀ (d : Reg) (idx : Fin 16) (s : State), s.status.sv = true → s.SchedulesReversed →
    ∃ r : DataReg, Leaves (.rkrd d .rev idx) s d r ∧ Leaves (.rkrd d .fwd (Fin.rev idx)) s d r) ∧
  decode 0x49000000#32 = .ok (.rkrd 2 .fwd 0) ∧ decode 0x49000010#32 = .ok (.rkrd 2 .rev 0) ∧
  (∀ s : State, s.status.sv = true → s.inst = instanceOf 0x133457799BBCDFF1#64 →
    Leaves (.rkrd 2 .fwd 0) s 2 { storage := 0x1B02EFFC70720000#64, len := 6 } ∧
    Leaves (.rkrd 2 .rev 0) s 2 { storage := 0xCB3D8B0E17F50000#64, len := 6 })

/-! ## The Feistel unit (45_feistel.md) -/

/-- R210: XOR. -/
def Obligations.XorCombinesEqualLengths : Prop :=
  EncodedAs 0x60000000#32 0xFC01FFFF#32 (fun w => .xor (fieldD w) (fieldS w) (fieldT w)) ∧
  (∀ (d a b : Reg) (s : State), s.lenOf a ≠ 0 → s.lenOf b = s.lenOf a →
    Writes (.xor d a b) s d (s.lenOf a) (fun p => s.bit a p ^^ s.bit b p)) ∧
  (∀ (d a b : Reg) (s : State), s.lenOf a = 0 ∨ s.lenOf b = 0 → Raises (.xor d a b) s .emptyOperand) ∧
  (∀ (d a b : Reg) (s : State), s.lenOf a ≠ 0 → s.lenOf b ≠ 0 → s.lenOf a ≠ s.lenOf b →
    Raises (.xor d a b) s .operandLength) ∧
  (∀ (d a : Reg) (s : State), s.lenOf a ≠ 0 → Writes (.xor d a a) s d (s.lenOf a) (fun _ => false)) ∧
  decode 0x61B40000#32 = .ok (.xor 3 3 2) ∧
  (∀ s : State, s.reg 3 = { storage := 0x7A15557A15550000#64, len := 6 } →
    s.reg 2 = { storage := 0x1B02EFFC70720000#64, len := 6 } →
    Leaves (.xor 3 3 2) s 3 { storage := 0x6117BA8665270000#64, len := 6 })

/-- R211, R212, R213: nibble i of the S-box output is the entry of box i at row 2*g<0> + g<5> and column g<1..4> of
group i, so it depends on that group alone; and each row of each box is a permutation of 0..15. -/
def Obligations.SboxLanesLookUpTheirGroup : Prop :=
  (∀ (x : BitVec 48) (i : Fin 8),
    let g := fun k => (x.getMsbD (6 * i.val + k)).toNat
    let v := ((sboxOf i).getD (2 * g 0 + g 5) []).getD (8 * g 1 + 4 * g 2 + 2 * g 3 + g 4) 0
    ∀ j < 4, (sbox x).getMsbD (4 * i.val + j) = v.getMsbD j) ∧
  (∀ (x y : BitVec 48) (i : Fin 8), (∀ k < 6, x.getMsbD (6 * i.val + k) = y.getMsbD (6 * i.val + k)) →
    ∀ j < 4, (sbox x).getMsbD (4 * i.val + j) = (sbox y).getMsbD (4 * i.val + j)) ∧
  (∀ i : Fin 8, (sboxOf i).length = 4 ∧
    ∀ row ∈ sboxOf i, row.length = 16 ∧ ∀ v : BitVec 4, row.count v = 1)

/-- R215: SBOX. -/
def Obligations.SboxSubstitutesSixBytes : Prop :=
  EncodedAs 0x64000000#32 0xFC0FFFFF#32 (fun w => .sbox (fieldD w) (fieldS w)) ∧
  (∀ (d a : Reg) (s : State) (x : BitVec 48), ValueIs s a x → Writes (.sbox d a) s d 4 (sbox x).getMsbD) ∧
  (∀ (d a : Reg) (s : State), s.lenOf a = 0 → Raises (.sbox d a) s .emptyOperand) ∧
  (∀ (d a : Reg) (s : State), s.lenOf a ≠ 0 → s.lenOf a ≠ 6 → Raises (.sbox d a) s .operandLength) ∧
  sbox 0x000000000000#48 = 0xEFA72C4D#32 ∧ sbox 0xFFFFFFFFFFFF#48 = 0xD9CE3DCB#32 ∧
  sbox 0x820820820820#48 = 0x40DA4917#32 ∧ sbox 0x041041041041#48 = 0x03DDEAD1#32 ∧
  decode 0x66300000#32 = .ok (.sbox 4 3) ∧
  (∀ s : State, s.reg 3 = { storage := 0x6117BA8665270000#64, len := 6 } →
    Leaves (.sbox 4 3) s 4 { storage := 0x5C82B59700000000#64, len := 4 })

/-- R214, R216: f is the expansion, the key mix, the S-boxes and P, bit by bit; a round makes the old right half the new
left one and L xor f(R, k) the new right one; and a round is undone from its output and its key (R218). -/
def Obligations.RoundFunctionAndRound : Prop :=
  (∀ (r : Half) (k : RoundKey), ∃ e : BitVec 48, (∀ j < 48, e.getMsbD j = r.getMsbD (tableE.getD j 0)) ∧
    ∀ p < 32, (roundFunction r k).getMsbD p = (sbox (e ^^^ k)).getMsbD (tableP.getD p 0)) ∧
  (∀ (b : Block) (k : RoundKey), ∃ l r : Half,
    (∀ p < 32, l.getMsbD p = b.getMsbD p ∧ r.getMsbD p = b.getMsbD (32 + p)) ∧
    (∀ p < 32, (feistelRound b k).getMsbD p = r.getMsbD p ∧
      (feistelRound b k).getMsbD (32 + p) = (l ^^^ roundFunction r k).getMsbD p)) ∧
  (∀ (b : Block) (k : RoundKey), rightHalf b = leftHalf (feistelRound b k) ∧
    leftHalf b = rightHalf (feistelRound b k) ^^^ roundFunction (leftHalf (feistelRound b k)) k)

/-- R217: FFN. -/
def Obligations.FfnAppliesTheRoundFunction : Prop :=
  EncodedAs 0x68000000#32 0xFC01FFFF#32 (fun w => .ffn (fieldD w) (fieldS w) (fieldT w)) ∧
  (∀ (d a b : Reg) (s : State) (r : Half) (k : RoundKey), ValueIs s a r → ValueIs s b k →
    Writes (.ffn d a b) s d 4 (roundFunction r k).getMsbD) ∧
  (∀ (d a b : Reg) (s : State), s.lenOf a = 0 ∨ s.lenOf b = 0 → Raises (.ffn d a b) s .emptyOperand) ∧
  (∀ (d a b : Reg) (s : State), s.lenOf a ≠ 0 → s.lenOf b ≠ 0 → (s.lenOf a ≠ 4 ∨ s.lenOf b ≠ 6) →
    Raises (.ffn d a b) s .operandLength) ∧
  roundFunction 0 0 = 0xD8D8DBBC#32 ∧ permute 32 tableP 0xEFA72C4D#32 = 0xD8D8DBBC#32 ∧
  decode 0x6A940000#32 = .ok (.ffn 5 1 2) ∧
  (∀ s : State, s.reg 1 = { storage := 0xF0AAF0AA00000000#64, len := 4 } →
    s.reg 2 = { storage := 0x1B02EFFC70720000#64, len := 6 } →
    Leaves (.ffn 5 1 2) s 5 { storage := 0x234AA9BB00000000#64, len := 4 })

/-- R218: FROUND. -/
def Obligations.FroundAppliesOneRound : Prop :=
  EncodedAs 0x6C000000#32 0xFC01FFFF#32 (fun w => .fround (fieldD w) (fieldS w) (fieldT w)) ∧
  (∀ (d a b : Reg) (s : State) (x : Block) (k : RoundKey), ValueIs s a x → ValueIs s b k →
    Writes (.fround d a b) s d 8 (feistelRound x k).getMsbD) ∧
  (∀ (d a b : Reg) (s : State), s.lenOf a = 0 ∨ s.lenOf b = 0 → Raises (.fround d a b) s .emptyOperand) ∧
  (∀ (d a b : Reg) (s : State), s.lenOf a ≠ 0 → s.lenOf b ≠ 0 → s.lenOf a ≠ 8 →
    Raises (.fround d a b) s .invalidBlockLength) ∧
  (∀ (d a b : Reg) (s : State), s.lenOf a = 8 → s.lenOf b ≠ 0 → s.lenOf b ≠ 6 →
    Raises (.fround d a b) s .operandLength) ∧
  feistelRound 0 0 = 0x00000000D8D8DBBC#64 ∧
  (∀ (b : Block) (k : RoundKey), rightHalf b = leftHalf (feistelRound b k) ∧
    leftHalf b = rightHalf (feistelRound b k) ^^^ roundFunction (leftHalf (feistelRound b k)) k) ∧
  decode 0x6C940000#32 = .ok (.fround 1 1 2) ∧
  (∀ s : State, s.reg 1 = { storage := 0xCC00CCFFF0AAF0AA#64, len := 8 } →
    s.reg 2 = { storage := 0x1B02EFFC70720000#64, len := 6 } →
    Leaves (.fround 1 1 2) s 1 { storage := 0xF0AAF0AAEF4A6544#64, len := 8 })

/-! ## The block cipher (46_block_cipher.md) -/

/-- R241: swap puts the right half first, and undoes itself. -/
def Obligations.SwapExchangesTheHalves : Prop :=
  ∀ b : Block, (∀ p < 32, (swapHalves b).getMsbD p = b.getMsbD (32 + p) ∧ (swapHalves b).getMsbD (32 + p) = b.getMsbD p) ∧
    swapHalves (swapHalves b) = b

/-- R242: SWAP. -/
def Obligations.SwapCommandExchangesTheHalves : Prop :=
  EncodedAs 0x80000000#32 0xFC0FFFFF#32 (fun w => .swap (fieldD w) (fieldS w)) ∧
  (∀ (d a : Reg) (s : State), s.lenOf a = 8 →
    Writes (.swap d a) s d 8 (fun p => if p < 32 then s.bit a (32 + p) else s.bit a (p - 32))) ∧
  (∀ (d a : Reg) (s : State), s.lenOf a = 0 → Raises (.swap d a) s .emptyOperand) ∧
  (∀ (d a : Reg) (s : State), s.lenOf a ≠ 0 → s.lenOf a ≠ 8 → Raises (.swap d a) s .invalidBlockLength) ∧
  (∀ b : Block, leftHalf b = rightHalf b → swapHalves b = b) ∧ (∀ b : Block, swapHalves (swapHalves b) = b) ∧
  decode 0x80900000#32 = .ok (.swap 1 1) ∧
  (∀ s : State, s.reg 1 = { storage := 0x434232340A4CD995#64, len := 8 } →
    Leaves (.swap 1 1) s 1 { storage := 0x0A4CD99543423234#64, len := 8 })

/-- R243: cipher is IP, sixteen rounds each fed with the output of the one before, the un-swap, and FP. -/
def Obligations.CipherIsItsFourSteps : Prop :=
  ∀ (b : Block) (k : Schedule), ∃ x : Nat → Block,
    (∀ p < 64, (x 0).getMsbD p = b.getMsbD (tableIP.getD p 0)) ∧
    (∀ r : Fin 16, x (r.val + 1) = feistelRound (x r.val) (roundKeyAt k r)) ∧
    (∀ p < 64, (cipher b k).getMsbD p = (swapHalves (x 16)).getMsbD (tableFP.getD p 0))

/-- R244: ENC. -/
def Obligations.EncEncryptsOneBlock : Prop :=
  EncodedAs 0x84000000#32 0xFC0FFFFF#32 (fun w => .enc (fieldD w) (fieldS w)) ∧
  (∀ (d a : Reg) (s : State) (b : Block), ValueIs s a b → s.status.sv = true →
    Writes (.enc d a) s d 8 (cipher b s.inst.rk).getMsbD) ∧
  (∀ (d a : Reg) (s : State), s.lenOf a = 0 → Raises (.enc d a) s .emptyOperand) ∧
  (∀ (d a : Reg) (s : State), s.lenOf a ≠ 0 → s.status.sv = false → Raises (.enc d a) s .noSchedule) ∧
  (∀ (d a : Reg) (s : State), s.lenOf a ≠ 0 → s.status.sv = true → s.lenOf a ≠ 8 →
    Raises (.enc d a) s .invalidBlockLength) ∧
  decode 0x84800000#32 = .ok (.enc 1 0) ∧
  (∀ s : State, s.status.sv = true → s.inst = instanceOf 0x133457799BBCDFF1#64 →
    s.reg 0 = { storage := 0x0123456789ABCDEF#64, len := 8 } →
    Leaves (.enc 1 0) s 1 { storage := 0x85E813540F0AB405#64, len := 8 })

/-- R245: DEC; round r uses RKD[r]. -/
def Obligations.DecDecryptsOneBlock : Prop :=
  EncodedAs 0x88000000#32 0xFC0FFFFF#32 (fun w => .dec (fieldD w) (fieldS w)) ∧
  (∀ (d a : Reg) (s : State) (b : Block), ValueIs s a b → s.status.sv = true →
    Writes (.dec d a) s d 8 (cipher b s.inst.rkd).getMsbD) ∧
  (∀ (d a : Reg) (s : State), s.lenOf a = 0 → Raises (.dec d a) s .emptyOperand) ∧
  (∀ (d a : Reg) (s : State), s.lenOf a ≠ 0 → s.status.sv = false → Raises (.dec d a) s .noSchedule) ∧
  (∀ (d a : Reg) (s : State), s.lenOf a ≠ 0 → s.status.sv = true → s.lenOf a ≠ 8 →
    Raises (.dec d a) s .invalidBlockLength) ∧
  decode 0x89100000#32 = .ok (.dec 2 1) ∧
  (∀ s : State, s.status.sv = true → s.inst = instanceOf 0x133457799BBCDFF1#64 →
    s.reg 1 = { storage := 0x85E813540F0AB405#64, len := 8 } →
    Leaves (.dec 2 1) s 2 { storage := 0x0123456789ABCDEF#64, len := 8 })

/-- R246: under every loaded key DEC undoes ENC and ENC undoes DEC on every block, through any registers; ENC and DEC
are functions of the block and the instance; and under the key 0101010101010101, whose schedule is all zeros, ENC is DEC
and undoes itself. -/
def Obligations.DecryptionInvertsEncryption : Prop :=
  (∀ (s : State) (key b : Block) (a d1 d2 : Reg), s.inst = instanceOf key → s.status.sv = true → ValueIs s a b →
    (∃ t u, exec (.enc d1 a) s = .next t ∧ exec (.dec d2 d1) t = .next u ∧ ValueIs u d2 b) ∧
    (∃ t u, exec (.dec d1 a) s = .next t ∧ exec (.enc d2 d1) t = .next u ∧ ValueIs u d2 b)) ∧
  (∀ (s s' : State) (a d a' d' : Reg) (b : Block), s.inst = s'.inst → s.status.sv = true → s'.status.sv = true →
    ValueIs s a b → ValueIs s' a' b →
    (∃ t t', exec (.enc d a) s = .next t ∧ exec (.enc d' a') s' = .next t' ∧ t.reg d = t'.reg d') ∧
    (∃ t t', exec (.dec d a) s = .next t ∧ exec (.dec d' a') s' = .next t' ∧ t.reg d = t'.reg d')) ∧
  ((∀ r < 16, roundKeyOf 0x0101010101010101#64 r = 0) ∧
    (instanceOf 0x0101010101010101#64).rk = (instanceOf 0x0101010101010101#64).rkd ∧
    ∀ b : Block, cipher b (scheduleOf 0x0101010101010101#64) =
        cipher b (reverseSchedule (scheduleOf 0x0101010101010101#64)) ∧
      cipher (cipher b (scheduleOf 0x0101010101010101#64)) (scheduleOf 0x0101010101010101#64) = b)

/-- R63: ENC and DEC never write the instance, so two of them on distinct streams give the same two results in either
order. -/
def Obligations.StreamsUnderOneInstanceAreIndependent : Prop :=
  (∀ (d a : Reg) (s t : State), (exec (.enc d a) s = .next t ∨ exec (.dec d a) s = .next t) → t.inst = s.inst) ∧
  (∀ (i j : Instr) (d1 a1 d2 a2 : Reg) (s : State),
    (i = .enc d1 a1 ∨ i = .dec d1 a1) → (j = .enc d2 a2 ∨ j = .dec d2 a2) →
    d1 ≠ d2 → d1 ≠ a2 → d2 ≠ a1 →
    ∃ t t' u u', exec i s = .next t ∧ exec j t = .next t' ∧ exec j s = .next u ∧ exec i u = .next u' ∧
      SameRegs t' u' ∧ t'.inst = u'.inst)

/-! ## Assembler (30_encoding.md) -/

/-- R92: the line written for a well-formed instruction, every operand at every value, assembles to its word; any line
assembles to a word exactly when its mnemonic and operands are of the form of a well-formed instruction, or of a
pseudo-instruction (R93), with that word, so a line of no form is refused; its operands are what stands between the
commas; and eight lines of no form (LDV v0, 9; STV v8; BSET v0, 64, 1; BSET v0, 0, 2; PERM v0, v1, PC3; NOP v0; ENC v0;
ADD v0, v1) are refused. How spaces, letters and leading zeros are read is the model's choice (log entry 17). -/
def Obligations.AssembledLinesAreTheEncodedWords : Prop :=
  (∀ i : Instr, i.WellFormed → Assembler.assemble (Assembler.disassemble i) = some (encode i)) ∧
  (∀ (t : Assembler.Text) (w : CmdWord), Assembler.assemble t = some w ↔
    (∃ i : Instr, i.WellFormed ∧ w = encode i ∧ Assembler.FormOf i (Assembler.tokens t)) ∨
      ∃ p : Assembler.Pseudo, w = encode (Assembler.expand p) ∧ Assembler.PseudoFormOf p (Assembler.tokens t)) ∧
  (∀ t : Assembler.Text, Assembler.assemble t = none ↔
    (∀ i : Instr, i.WellFormed → ¬Assembler.FormOf i (Assembler.tokens t)) ∧
      ∀ p : Assembler.Pseudo, ¬Assembler.PseudoFormOf p (Assembler.tokens t)) ∧
  (∀ t : Assembler.Text, (∀ o ∈ (Assembler.tokens t).2, ',' ∉ o) ∧
    t.filter (· != ' ') = (Assembler.tokens t).1 ++
      [','].intercalate ((Assembler.tokens t).2.map fun o => o.filter (· != ' '))) ∧
  (∀ line ∈ [['L', 'D', 'V', ' ', 'v', '0', ',', ' ', '9'], ['S', 'T', 'V', ' ', 'v', '8'],
      ['B', 'S', 'E', 'T', ' ', 'v', '0', ',', ' ', '6', '4', ',', ' ', '1'],
      ['B', 'S', 'E', 'T', ' ', 'v', '0', ',', ' ', '0', ',', ' ', '2'],
      ['P', 'E', 'R', 'M', ' ', 'v', '0', ',', ' ', 'v', '1', ',', ' ', 'P', 'C', '3'],
      ['N', 'O', 'P', ' ', 'v', '0'], ['E', 'N', 'C', ' ', 'v', '0'],
      ['A', 'D', 'D', ' ', 'v', '0', ',', ' ', 'v', '1']], Assembler.assemble line = none)

/-- R93: each pseudo-instruction expands to the one command of the table and assembles to that command's word; CLR
clears a register that is not empty and keeps its length. -/
def Obligations.PseudoInstructionsExpandToOneCommand : Prop :=
  (∀ p : Assembler.Pseudo, Assembler.assemble (Assembler.pseudoText p) = some (encode (Assembler.expand p)) ∧
    decode (encode (Assembler.expand p)) = .ok (Assembler.expand p)) ∧
  (Assembler.expand .ldk = .ldk 8 ∧ ∀ d s : Reg, Assembler.expand (.ldb d) = .ldv d 8 ∧
    Assembler.expand (.rot1 d) = .rot28 d 1 ∧ Assembler.expand (.rot2 d) = .rot28 d 2 ∧
    Assembler.expand (.clr d) = .xor d d d ∧ Assembler.expand (.iperm d s) = .perm d s .ip ∧
    Assembler.expand (.fperm d s) = .perm d s .fp) ∧
  (∀ (d : Reg) (s : State), if s.lenOf d = 0 then Raises (Assembler.expand (.clr d)) s .emptyOperand
    else Writes (Assembler.expand (.clr d)) s d (s.lenOf d) (fun _ => false))
end

