-- ==== Sys2Proof/Laws/Assembler.lean ====
section
/-! SUPPORT. What each reader of the assembler accepts: exactly the spellings of one operand. -/

namespace Sys2Proof.Assembler

/-! ## Numbers -/

theorem digit_digitChar : ∀ d < 10, digit (Nat.digitChar d) = some d := by decide

theorem digit_eq_some {c : Char} {d : Nat} : digit c = some d ↔ d < 10 ∧ c = Nat.digitChar d := by
  constructor
  · intro h
    unfold digit at h
    split at h
    · rename_i hc
      obtain rfl := Option.some.inj h
      have h0 : '0'.toNat = 48 := rfl
      have h9 : '9'.toNat = 57 := rfl
      rw [h0, h9] at hc
      refine ⟨by omega, ?_⟩
      have key : ∀ n, 48 ≤ n → n ≤ 57 → Char.ofNat n = Nat.digitChar (n - 48) := by
        intro n h1 h2
        interval_cases n <;> rfl
      rw [h0, ← key _ hc.1 hc.2, Char.ofNat_toNat]
    · cases h
  · rintro ⟨h, rfl⟩
    exact digit_digitChar d h

/-- One more digit of a number: the step of `decimal`. -/
abbrev moreDigit (acc : Option Nat) (c : Char) : Option Nat := acc.bind fun a => (digit c).map fun d => 10 * a + d

theorem foldl_moreDigit_zeros (k : Nat) : (List.replicate k '0').foldl moreDigit (some 0) = some 0 := by
  induction k with
  | zero => rfl
  | succ k ih => exact ih

theorem foldl_moreDigit_toDigits (n : Nat) : (Nat.toDigits 10 n).foldl moreDigit (some 0) = some n := by
  induction n using Nat.strong_induction_on with
  | _ n ih =>
    by_cases h : n < 10
    · simp [Nat.toDigits_of_lt_base h, moreDigit, digit_digitChar n h]
    · rw [Nat.toDigits_of_base_le (by decide) (by omega), List.foldl_append, ih (n / 10) (by omega)]
      simp [moreDigit, digit_digitChar _ (Nat.mod_lt n (by decide : 0 < 10))]
      omega

theorem zeros_of_foldl_moreDigit (t : Text) : ∀ v, t ≠ [] → t.foldl moreDigit (some 0) = some v →
    ∃ k, t = List.replicate k '0' ++ Nat.toDigits 10 v := by
  induction t using List.reverseRecOn with
  | nil => exact fun _ h => absurd rfl h
  | append_singleton ds c ih =>
    intro v _ hv
    simp only [List.foldl_append, List.foldl_cons, List.foldl_nil, Option.bind_eq_some_iff, Option.map_eq_some_iff]
      at hv
    obtain ⟨a, ha, d, hd, rfl⟩ := hv
    obtain ⟨hlt, rfl⟩ := digit_eq_some.mp hd
    by_cases hds : ds = []
    · subst hds
      obtain rfl := Option.some.inj ha
      exact ⟨0, by simp [Nat.toDigits_of_lt_base hlt]⟩
    · obtain ⟨k, rfl⟩ := ih a hds ha
      by_cases h0 : a = 0
      · subst h0
        exact ⟨k + 1, by simp [Nat.toDigits_of_lt_base hlt, List.replicate_succ', Nat.toDigits_zero]⟩
      · refine ⟨k, ?_⟩
        rw [List.append_assoc, ← Nat.toDigits_of_lt_base hlt,
          Nat.toDigits_append_toDigits (by decide) (by omega) hlt]

/-- Decimal digits are a number's digits with zeros before them. -/
theorem decimal_eq_some {t : Text} {v : Nat} :
    decimal t = some v ↔ ∃ k, t = List.replicate k '0' ++ numText v := by
  unfold decimal
  constructor
  · intro h
    split at h
    · cases h
    · rename_i hne
      exact zeros_of_foldl_moreDigit t v (by simpa using hne) h
  · rintro ⟨k, rfl⟩
    have hne : numText v ≠ [] := Nat.toDigits_ne_nil
    rw [if_neg (by simp [hne])]
    exact (List.foldl_append ..).trans (by rw [foldl_moreDigit_zeros]; exact foldl_moreDigit_toDigits v)

theorem isDigit_of_mem_number {c : Char} {n k : Nat}
    (h : c ∈ List.replicate k '0' ++ numText n) : c.isDigit = true := by
  rcases List.mem_append.mp h with h | h
  · rw [List.eq_of_mem_replicate h]; rfl
  · exact Nat.isDigit_of_mem_toDigits (by decide) (by decide) h

/-- The spellings of a number (R92). -/
theorem spells_numText {v : Nat} {t : Text} :
    Spells (numText v) t ↔
      ∃ k, t = List.replicate k '0' ++ numText v ∨ t = '#' :: (List.replicate k '0' ++ numText v) := by
  constructor
  · rintro (rfl | ⟨n, k, _, h⟩)
    · exact ⟨0, .inl rfl⟩
    · exact ⟨k, h⟩
  · rintro ⟨k, h⟩
    exact .inr ⟨v, k, rfl, h⟩

theorem readNum_eq_some {n : Nat} {t : Text} {v : Fin n} : readNum n t = some v ↔ Spells (numText v.val) t := by
  have inRange : ∀ x : Option Nat,
      (x.bind fun w => if h : w < n then some (⟨w, h⟩ : Fin n) else none) = some v ↔ x = some v.val := by
    intro x
    simp only [Option.bind_eq_some_iff]
    constructor
    · rintro ⟨w, rfl, hw⟩
      split at hw
      · rw [← Option.some.inj hw]
      · cases hw
    · rintro rfl
      exact ⟨v.val, rfl, by simp⟩
  unfold readNum
  rw [spells_numText]
  dsimp only
  rw [inRange, decimal_eq_some]
  split
  · refine exists_congr fun k => ⟨fun h => .inr (by rw [h]), ?_⟩
    rintro (h | h)
    · have : '#'.isDigit = true := isDigit_of_mem_number (h ▸ List.mem_cons_self)
      cases this
    · exact (List.cons.inj h).2
  · rename_i hne
    refine exists_congr fun k => ⟨.inl, ?_⟩
    rintro (h | h)
    · exact h
    · exact absurd h (hne _)

/-! ## Registers, tables, directions, mnemonics -/

/-- A text that begins with no digit has one spelling. -/
theorem spells_cons {c : Char} {w t : Text} (hc : c.isDigit = false) : Spells (c :: w) t ↔ t = c :: w := by
  constructor
  · rintro (h | ⟨n, k, h, _⟩)
    · exact h
    · have : c.isDigit = true := isDigit_of_mem_number (k := 0) (n := n) (by simp [← h])
      rw [hc] at this
      cases this
  · exact .inl

theorem spells_regText {r : Reg} {t : Text} : Spells (regText r) t ↔ t = regText r := spells_cons rfl

theorem spells_tableText {x : Table} {t : Text} : Spells (tableText x) t ↔ t = tableText x := by
  cases x <;> exact spells_cons rfl

theorem spells_directionText {x : Direction} {t : Text} : Spells (directionText x) t ↔ t = directionText x := by
  cases x <;> exact spells_cons rfl

theorem readReg_regText : ∀ r : Reg, readReg (regText r) = some r := by decide

theorem readReg_eq_some {t : Text} {r : Reg} : readReg t = some r ↔ Spells (regText r) t := by
  rw [spells_regText]
  constructor
  · intro h
    unfold readReg at h
    split at h
    · obtain ⟨v, hv, hr⟩ := Option.bind_eq_some_iff.mp h
      obtain ⟨h10, rfl⟩ := digit_eq_some.mp hv
      split at hr
      · rw [← Option.some.inj hr, regText, Nat.toDigits_of_lt_base h10]
      · cases hr
    · cases h
  · rintro rfl
    exact readReg_regText r

theorem readTable_eq_some {t : Text} {x : Table} : readTable t = some x ↔ Spells (tableText x) t := by
  rw [spells_tableText]
  constructor
  · intro h
    have := List.find?_some (show List.find? _ _ = _ from h)
    exact (beq_iff_eq.mp this).symm
  · rintro rfl
    cases x <;> rfl

theorem readDirection_eq_some {t : Text} {x : Direction} : readDirection t = some x ↔ Spells (directionText x) t := by
  rw [spells_directionText]
  constructor
  · intro h
    have := List.find?_some (show List.find? _ _ = _ from h)
    exact (beq_iff_eq.mp this).symm
  · rintro rfl
    cases x <;> rfl

theorem readMnemonic_eq_some {t : Text} {o : Op} : readMnemonic t = some o ↔ t = mnemonicText o := by
  constructor
  · intro h
    have := List.find?_some (show List.find? _ _ = _ from h)
    exact (beq_iff_eq.mp this).symm
  · rintro rfl
    cases o <;> rfl

/-- VAL, a number below 2. -/
theorem readBit_eq_some {c : Text} {b : Bool} :
    (∃ n : Fin 2, readNum 2 c = some n ∧ (n.val == 1) = b) ↔ Spells (numText b.toNat) c := by
  constructor
  · rintro ⟨n, h, rfl⟩
    rw [readNum_eq_some] at h
    revert h
    match n with
    | 0 => exact id
    | 1 => exact id
  · intro h
    cases b
    · exact ⟨0, readNum_eq_some.mpr h, rfl⟩
    · exact ⟨1, readNum_eq_some.mpr h, rfl⟩

/-- A row's operands are read exactly when they are of the form of an instruction of the row. -/
theorem readForm_eq_some {o : Op} {ops : List Text} {i : Instr} :
    readForm o ops = some i ↔ o = i.op ∧ i.WellFormed ∧ List.Forall₂ Spells (operandTexts i) ops := by
  constructor
  · intro h
    unfold readForm at h
    split at h
    · obtain rfl := Option.some.inj h; exact ⟨rfl, rfl, .nil⟩
    · obtain rfl := Option.some.inj h; exact ⟨rfl, rfl, .nil⟩
    · simp only [Option.bind_eq_bind, Option.bind_eq_some_iff] at h
      obtain ⟨n, hn, h⟩ := h
      split at h
      · rename_i hw
        simp only [Option.bind_eq_some_iff, Option.pure_def, Option.some.injEq] at h
        obtain ⟨a, ha, rfl⟩ := h
        exact ⟨rfl, by simpa [Instr.WellFormed, Instr.wellFormed] using hw,
          by simp [operandTexts, ← readReg_eq_some, ← readNum_eq_some, *]⟩
      · cases h
    all_goals
      simp only [Option.bind_eq_bind, Option.bind_eq_some_iff, Option.pure_def, Option.some.injEq, reduceCtorEq] at h
    on_goal 4 =>
      obtain ⟨a, ha, p, hp, v, hv, rfl⟩ := h
      exact ⟨rfl, rfl, by simp [operandTexts, ← readReg_eq_some, ← readNum_eq_some, ← readBit_eq_some, *]⟩
    all_goals
      first
      | (obtain ⟨a, ha, rfl⟩ := h; exact ⟨rfl, rfl, by simp [operandTexts, ← readReg_eq_some, ← readNum_eq_some, *]⟩)
      | (obtain ⟨a, ha, b, hb, rfl⟩ := h
         exact ⟨rfl, rfl, by simp [operandTexts, ← readReg_eq_some, ← readNum_eq_some, *]⟩)
      | (obtain ⟨a, ha, b, hb, c, hc, rfl⟩ := h
         exact ⟨rfl, rfl, by
           simp [operandTexts, ← readReg_eq_some, ← readNum_eq_some, ← readTable_eq_some, ← readDirection_eq_some, *]⟩)
  · rintro ⟨rfl, hw, h⟩
    cases i
    case bset d p v =>
      simp only [operandTexts, List.forall₂_cons_left_iff, List.forall₂_nil_left_iff] at h
      obtain ⟨x, _, hx, ⟨y, _, hy, ⟨z, _, hz, rfl, rfl⟩, rfl⟩, rfl⟩ := h
      obtain ⟨n, hn, rfl⟩ := readBit_eq_some.mpr hz
      simp [Instr.op, readForm, readReg_eq_some.mpr hx, readNum_eq_some.mpr hy, hn]
    case ldv d n =>
      simp only [operandTexts, List.forall₂_cons_left_iff, List.forall₂_nil_left_iff] at h
      obtain ⟨x, _, hx, ⟨y, _, hy, rfl, rfl⟩, rfl⟩ := h
      simp only [Instr.WellFormed, Instr.wellFormed, Bool.and_eq_true, decide_eq_true_eq] at hw
      simp [Instr.op, readForm, readReg_eq_some.mpr hx, readNum_eq_some.mpr hy, hw]
    all_goals
      simp only [operandTexts, List.forall₂_cons_left_iff, List.forall₂_nil_left_iff] at h
      first
      | (subst h; rfl)
      | (obtain ⟨x, _, hx, rfl, rfl⟩ := h; simp [Instr.op, readForm, readReg_eq_some.mpr hx])
      | (obtain ⟨x, _, hx, rfl, rfl⟩ := h; simp [Instr.op, readForm, readNum_eq_some.mpr hx])
      | (obtain ⟨x, _, hx, ⟨y, _, hy, rfl, rfl⟩, rfl⟩ := h
         simp [Instr.op, readForm, ← readReg_eq_some, ← readNum_eq_some] at *
         simp [*])
      | (obtain ⟨x, _, hx, ⟨y, _, hy, ⟨z, _, hz, rfl, rfl⟩, rfl⟩, rfl⟩ := h
         simp [Instr.op, readForm, ← readReg_eq_some, ← readNum_eq_some, ← readTable_eq_some,
           ← readDirection_eq_some] at *
         simp [*])

/-- A pseudo-instruction is read exactly when its mnemonic and its registers stand there. -/
theorem readPseudo_eq_some {m : Text} {operands : List Text} {p : Pseudo} :
    readPseudo m operands = some p ↔ PseudoFormOf p (m, operands) := by
  constructor
  · intro h
    unfold readPseudo at h
    split at h <;>
      simp only [Option.map_eq_some_iff, Option.bind_eq_bind, Option.bind_eq_some_iff, Option.pure_def,
        Option.some.injEq, readReg_eq_some, spells_regText, reduceCtorEq] at h
    · subst h; exact ⟨rfl, rfl⟩
    · obtain ⟨_, rfl, rfl⟩ := h; exact ⟨rfl, rfl⟩
    · obtain ⟨_, rfl, rfl⟩ := h; exact ⟨rfl, rfl⟩
    · obtain ⟨_, rfl, rfl⟩ := h; exact ⟨rfl, rfl⟩
    · obtain ⟨_, rfl, rfl⟩ := h; exact ⟨rfl, rfl⟩
    · obtain ⟨_, rfl, _, rfl, rfl⟩ := h; exact ⟨rfl, rfl⟩
    · obtain ⟨_, rfl, _, rfl, rfl⟩ := h; exact ⟨rfl, rfl⟩
  · rintro ⟨rfl, h⟩
    simp only at h
    subst h
    cases p <;> simp [pseudoMnemonic, pseudoOperands, readPseudo, readReg_regText]

/-! ## Splitting a line -/

theorem splitCommas_ne_nil (t : Text) : splitCommas t ≠ [] := by
  cases t with
  | nil => simp [splitCommas]
  | cons c cs =>
    unfold splitCommas
    split
    · simp
    · split <;> simp

/-- No piece holds a comma. -/
theorem splitCommas_no_comma (t : Text) : ∀ o ∈ splitCommas t, ',' ∉ o := by
  induction t with
  | nil => simp [splitCommas]
  | cons c cs ih =>
    unfold splitCommas
    split
    · rename_i h
      exact absurd h (splitCommas_ne_nil cs)
    · rename_i w ws h
      rw [h] at ih
      split
      · simpa using ih
      · rename_i hc
        intro o ho
        rcases List.mem_cons.mp ho with rfl | ho
        · intro hm
          rcases List.mem_cons.mp hm with rfl | hm
          · simp at hc
          · exact ih w List.mem_cons_self hm
        · exact ih o (List.mem_cons_of_mem _ ho)

/-- The pieces with commas between them are the text. -/
theorem splitCommas_join (t : Text) : [','].intercalate (splitCommas t) = t := by
  induction t with
  | nil => rfl
  | cons c cs ih =>
    unfold splitCommas
    split
    · rename_i h
      exact absurd h (splitCommas_ne_nil cs)
    · rename_i w ws h
      rw [h] at ih
      split
      · rename_i hc
        rw [List.intercalate_cons_cons, ih, beq_iff_eq.mp hc]
        rfl
      · rw [← ih]
        cases ws <;> simp [List.intercalate, List.intersperse]

/-- Spaces before and after a text are all that trimming takes away. -/
theorem trim_noSpaces (t : Text) : (trim t).filter (· != ' ') = t.filter (· != ' ') := by
  have key : ∀ x : Text, (x.dropWhile (· == ' ')).filter (· != ' ') = x.filter (· != ' ') := by
    intro x
    induction x with
    | nil => rfl
    | cons c cs ih =>
      by_cases h : c = ' '
      · subst h; simpa using ih
      · simp [h]
  rw [trim, List.filter_reverse, key, List.filter_reverse, List.reverse_reverse, key]

/-- Trimming takes no character that was not there. -/
theorem mem_of_mem_trim {c : Char} {t : Text} (h : c ∈ trim t) : c ∈ t := by
  have := (List.dropWhile_sublist _).mem (List.mem_reverse.mp h)
  exact (List.dropWhile_sublist _).mem (List.mem_reverse.mp this)

end Sys2Proof.Assembler
end

