-- ==== Sys2Proof/Laws/Cipher.lean ====
section
/-! SUPPORT. The pure functions bit by bit: permutation, halves, schedules. -/

namespace Sys2Proof.Machine

/-- Bit d of a permutation is bit T[d] of its source (42_permutation.md R151). -/
theorem getMsbD_permute {n m : Nat} (t : List Nat) (h : t.length = m) (x : BitVec n) (d : Nat) (hd : d < m) :
    (permute m t x).getMsbD d = x.getMsbD (t.getD d 0) := by
  subst h
  have h1 : d < (t.map x.getMsbD).length := by simpa using hd
  have h2 : t.length - (t.map x.getMsbD).length ≤ d := by simp
  have h3 : d + (t.map x.getMsbD).length - t.length = d := by simp
  simp only [permute, BitVec.getMsbD_setWidth, BitVec.getMsbD_ofBoolListBE, h3]
  simp [List.getD_eq_getElem?_getD, hd]

/-- A bit of two halves put together, counted from the least significant end. -/
theorem getLsbD_halves (l r : Half) (i : Nat) :
    BitVec.getLsbD (w := 64) (l ++ r) i = if i < 32 then r.getLsbD i else l.getLsbD (i - 32) :=
  BitVec.getLsbD_append

/-- The left half of two halves put together. -/
@[simp] theorem leftHalf_append (l r : Half) : leftHalf (l ++ r) = l := by
  apply BitVec.eq_of_getLsbD_eq
  intro i hi
  rw [leftHalf, BitVec.getLsbD_extractLsb', getLsbD_halves]
  simp [hi]

/-- The right half of two halves put together. -/
@[simp] theorem rightHalf_append (l r : Half) : rightHalf (l ++ r) = r := by
  apply BitVec.eq_of_getLsbD_eq
  intro i hi
  rw [rightHalf, BitVec.getLsbD_extractLsb', getLsbD_halves]
  simp [hi]

/-- A block is its two halves. -/
@[simp] theorem append_halves (b : Block) : leftHalf b ++ rightHalf b = b := by
  apply BitVec.eq_of_getLsbD_eq
  intro i hi
  rw [getLsbD_halves]
  simp only [leftHalf, rightHalf, BitVec.getLsbD_extractLsb']
  by_cases h : i < 32
  · simp [h]
  · have h1 : i - 32 < 32 := by omega
    have h2 : 32 + (i - 32) = i := by omega
    simp [h, h1, h2]

/-- Round key r of a schedule (44_key_schedule.md R191). -/
@[simp] theorem roundKeyAt_scheduleOf (key : Block) (r : Fin 16) :
    roundKeyAt (scheduleOf key) r = roundKeyOf key r.val := by
  simp [roundKeyAt, scheduleOf]

/-- Round key r of a reversed schedule is round key 15 - r (44_key_schedule.md R192). -/
@[simp] theorem roundKeyAt_reverseSchedule (k : Schedule) (r : Fin 16) :
    roundKeyAt (reverseSchedule k) r = roundKeyAt k (Fin.rev r) := by
  simp [roundKeyAt, reverseSchedule, Fin.val_rev]

end Sys2Proof.Machine
end

