-- ==== Sys2Proof/Laws/Decode.lean ====
section
/-! SUPPORT. The decoder's rows: a word that matches a row decodes by that row, and a word that decodes matches the row
of its instruction (30_encoding.md R86, R91). -/

namespace Sys2Proof

/-- The map has one row for each OP value it lists (R85). -/
@[simp] theorem Op.ofCode_code (o : Op) : Op.ofCode o.code = some o := by cases o <;> decide

/-- A word that matches a row has the row's OP: every mask covers OP. -/
theorem fieldOp_of_match {w : CmdWord} {o : Op} (h : w &&& o.mask = o.matchWord) : fieldOp w = o.code := by
  have hm : fieldOp o.mask = BitVec.allOnes 6 := by cases o <;> decide
  have h2 : fieldOp (w &&& o.mask) = fieldOp w := by
    apply BitVec.eq_of_getLsbD_eq
    intro i hi
    have h3 : (fieldOp o.mask).getLsbD i = true := by rw [hm, BitVec.getLsbD_allOnes]; simp [hi]
    simp only [fieldOp, cmdField, BitVec.getLsbD_extractLsb', BitVec.getLsbD_and] at *
    rw [Bool.and_eq_true] at h3
    simp [h3.2]
  rw [← h2, h]
  cases o <;> decide

/-- A word that matches a row is decoded by that row. -/
theorem decode_of_match {w : CmdWord} {o : Op} (h : w &&& o.mask = o.matchWord) : decode w = decodeRow o w := by
  simp [decode, fieldOp_of_match h, h]

/-- A row gives an instruction of its own operation. -/
theorem op_of_decodeRow {o : Op} {w : CmdWord} {i : Instr} (h : decodeRow o w = .ok i) : i.op = o := by
  cases o <;> simp only [decodeRow] at h <;> (try split at h) <;> (try cases h) <;> rfl

/-- A word that decodes matches the row of its instruction, and is decoded by it. -/
theorem match_of_decode {w : CmdWord} {i : Instr} (h : decode w = .ok i) :
    w &&& i.op.mask = i.op.matchWord ∧ decodeRow i.op w = .ok i := by
  unfold decode at h
  split at h
  · cases h
  · split at h
    · have e := op_of_decodeRow h
      subst e
      exact ⟨by assumption, h⟩
    · cases h

/-- A table is the one its selector names. -/
theorem selector_of_ofSelector {n : Fin 8} {t : Table} (h : Table.ofSelector n = some t) : t.selector = n.val := by
  revert n
  cases t <;> decide

/-- Placing a field's own value gives the word's bits of that field. -/
theorem placeField_extract (w : CmdWord) (lo k : Nat) (h : lo + k ≤ 32) :
    placeField lo (w.extractLsb' lo k).toNat = w &&& (BitVec.allOnes k).setWidth 32 <<< lo := by
  have e : BitVec.ofNat 32 (w.extractLsb' lo k).toNat = (w.extractLsb' lo k).setWidth 32 := BitVec.ofNat_toNat _ _
  rw [placeField, e]
  apply BitVec.eq_of_getLsbD_eq
  intro i hi
  simp only [BitVec.getLsbD_shiftLeft, BitVec.getLsbD_setWidth, BitVec.getLsbD_extractLsb', BitVec.getLsbD_and,
    BitVec.getLsbD_allOnes]
  by_cases h1 : i < lo
  · simp [h1]
  · have e1 : lo + (i - lo) = i := by omega
    have e2 : i - lo < 32 := by omega
    simp [h1, hi, e1, e2, Bool.and_comm]

end Sys2Proof
end

