-- ==== Sys2Proof/Laws/State.lean ====
section
/-! SUPPORT. One lemma per field per update of State, true by rfl, so that no proof unfolds a record update; and what
register each update leaves. -/

namespace Sys2Proof.Machine

@[simp] theorem State.regs_setReg (s : State) (d : Reg) (r : DataReg) : (s.setReg d r).regs = s.regs.set d.val r d.isLt := rfl
@[simp] theorem State.inst_setReg (s : State) (d : Reg) (r : DataReg) : (s.setReg d r).inst = s.inst := rfl
@[simp] theorem State.status_setReg (s : State) (d : Reg) (r : DataReg) : (s.setReg d r).status = s.status := rfl
@[simp] theorem State.pending_setReg (s : State) (d : Reg) (r : DataReg) : (s.setReg d r).pending = s.pending := rfl
@[simp] theorem State.din_setReg (s : State) (d : Reg) (r : DataReg) : (s.setReg d r).din = s.din := rfl
@[simp] theorem State.responses_setReg (s : State) (d : Reg) (r : DataReg) : (s.setReg d r).responses = s.responses := rfl
@[simp] theorem State.resets_setReg (s : State) (d : Reg) (r : DataReg) : (s.setReg d r).resets = s.resets := rfl

@[simp] theorem State.regs_setStatus (s : State) (st : Status) : (s.setStatus st).regs = s.regs := rfl
@[simp] theorem State.inst_setStatus (s : State) (st : Status) : (s.setStatus st).inst = s.inst := rfl
@[simp] theorem State.status_setStatus (s : State) (st : Status) : (s.setStatus st).status = st := rfl
@[simp] theorem State.pending_setStatus (s : State) (st : Status) : (s.setStatus st).pending = s.pending := rfl
@[simp] theorem State.din_setStatus (s : State) (st : Status) : (s.setStatus st).din = s.din := rfl
@[simp] theorem State.responses_setStatus (s : State) (st : Status) : (s.setStatus st).responses = s.responses := rfl
@[simp] theorem State.resets_setStatus (s : State) (st : Status) : (s.setStatus st).resets = s.resets := rfl

@[simp] theorem State.reg_setStatus (s : State) (st : Status) (i : Reg) : (s.setStatus st).reg i = s.reg i := rfl

@[simp] theorem State.regs_setInst (s : State) (c : CipherInstance) : (s.setInst c).regs = s.regs := rfl
@[simp] theorem State.inst_setInst (s : State) (c : CipherInstance) : (s.setInst c).inst = c := rfl
@[simp] theorem State.status_setInst (s : State) (c : CipherInstance) : (s.setInst c).status = s.status := rfl
@[simp] theorem State.pending_setInst (s : State) (c : CipherInstance) : (s.setInst c).pending = s.pending := rfl
@[simp] theorem State.din_setInst (s : State) (c : CipherInstance) : (s.setInst c).din = s.din := rfl
@[simp] theorem State.responses_setInst (s : State) (c : CipherInstance) : (s.setInst c).responses = s.responses := rfl
@[simp] theorem State.resets_setInst (s : State) (c : CipherInstance) : (s.setInst c).resets = s.resets := rfl

@[simp] theorem State.reg_setInst (s : State) (c : CipherInstance) (i : Reg) : (s.setInst c).reg i = s.reg i := rfl

@[simp] theorem State.regs_respond (s : State) (code : BitVec 4) (dout : Block) (olen : Fin 9) : (s.respond code dout olen).regs = s.regs := rfl
@[simp] theorem State.inst_respond (s : State) (code : BitVec 4) (dout : Block) (olen : Fin 9) : (s.respond code dout olen).inst = s.inst := rfl
@[simp] theorem State.status_respond (s : State) (code : BitVec 4) (dout : Block) (olen : Fin 9) : (s.respond code dout olen).status = s.status := rfl
@[simp] theorem State.pending_respond (s : State) (code : BitVec 4) (dout : Block) (olen : Fin 9) : (s.respond code dout olen).pending = s.pending := rfl
@[simp] theorem State.din_respond (s : State) (code : BitVec 4) (dout : Block) (olen : Fin 9) : (s.respond code dout olen).din = s.din := rfl
@[simp] theorem State.responses_respond (s : State) (code : BitVec 4) (dout : Block) (olen : Fin 9) : (s.respond code dout olen).responses = s.responses ++ [{ code := code, status := s.status.word, dout := dout, olen := olen }] := rfl
@[simp] theorem State.resets_respond (s : State) (code : BitVec 4) (dout : Block) (olen : Fin 9) : (s.respond code dout olen).resets = s.resets := rfl

@[simp] theorem State.reg_respond (s : State) (code : BitVec 4) (dout : Block) (olen : Fin 9) (i : Reg) : (s.respond code dout olen).reg i = s.reg i := rfl

@[simp] theorem State.regs_accept (s : State) (v : Block) (rest : List HostMove) : (s.accept v rest).regs = s.regs := rfl
@[simp] theorem State.inst_accept (s : State) (v : Block) (rest : List HostMove) : (s.accept v rest).inst = s.inst := rfl
@[simp] theorem State.status_accept (s : State) (v : Block) (rest : List HostMove) : (s.accept v rest).status = s.status := rfl
@[simp] theorem State.pending_accept (s : State) (v : Block) (rest : List HostMove) : (s.accept v rest).pending = rest := rfl
@[simp] theorem State.din_accept (s : State) (v : Block) (rest : List HostMove) : (s.accept v rest).din = v := rfl
@[simp] theorem State.responses_accept (s : State) (v : Block) (rest : List HostMove) : (s.accept v rest).responses = s.responses := rfl
@[simp] theorem State.resets_accept (s : State) (v : Block) (rest : List HostMove) : (s.accept v rest).resets = s.resets := rfl

@[simp] theorem State.reg_accept (s : State) (v : Block) (rest : List HostMove) (i : Reg) : (s.accept v rest).reg i = s.reg i := rfl

@[simp] theorem State.regs_present (s : State) (m : HostMove) : (s.present m).regs = s.regs := rfl
@[simp] theorem State.inst_present (s : State) (m : HostMove) : (s.present m).inst = s.inst := rfl
@[simp] theorem State.status_present (s : State) (m : HostMove) : (s.present m).status = s.status := rfl
@[simp] theorem State.pending_present (s : State) (m : HostMove) : (s.present m).pending = m :: s.pending := rfl
@[simp] theorem State.din_present (s : State) (m : HostMove) : (s.present m).din = s.din := rfl
@[simp] theorem State.responses_present (s : State) (m : HostMove) : (s.present m).responses = s.responses := rfl
@[simp] theorem State.resets_present (s : State) (m : HostMove) : (s.present m).resets = s.resets := rfl

@[simp] theorem State.reg_present (s : State) (m : HostMove) (i : Reg) : (s.present m).reg i = s.reg i := rfl

@[simp] theorem State.regs_resetBy (s : State) (o : Option (CmdWord × Block)) (rest : List HostMove) : (s.resetBy o rest).regs = State.reset.regs := rfl
@[simp] theorem State.inst_resetBy (s : State) (o : Option (CmdWord × Block)) (rest : List HostMove) : (s.resetBy o rest).inst = Config.instanceAfterReset s.resets o s.inst := rfl
@[simp] theorem State.status_resetBy (s : State) (o : Option (CmdWord × Block)) (rest : List HostMove) : (s.resetBy o rest).status = Status.reset := rfl
@[simp] theorem State.pending_resetBy (s : State) (o : Option (CmdWord × Block)) (rest : List HostMove) : (s.resetBy o rest).pending = rest := rfl
@[simp] theorem State.din_resetBy (s : State) (o : Option (CmdWord × Block)) (rest : List HostMove) : (s.resetBy o rest).din = s.din := rfl
@[simp] theorem State.responses_resetBy (s : State) (o : Option (CmdWord × Block)) (rest : List HostMove) : (s.resetBy o rest).responses = s.responses := rfl
@[simp] theorem State.resets_resetBy (s : State) (o : Option (CmdWord × Block)) (rest : List HostMove) : (s.resetBy o rest).resets = s.resets + 1 := rfl

/-- What a register holds after one was replaced. -/
@[simp] theorem State.reg_setReg (s : State) (d : Reg) (r : DataReg) (i : Reg) :
    (s.setReg d r).reg i = if i = d then r else s.reg i := by
  simp only [State.reg, State.setReg, Vector.getElem_set, Fin.ext_iff]
  split <;> split <;> simp_all

/-- What a register holds after a write: the bytes kept, or what it held. -/
@[simp] theorem State.reg_writeReg (s : State) (d : Reg) (len : Fin 9) (x : Block) (i : Reg) :
    (s.writeReg d len x).reg i = if i = d then { storage := keepBytes len x, len := len } else s.reg i := by
  simp [State.writeReg]

@[simp] theorem State.inst_writeReg (s : State) (d : Reg) (len : Fin 9) (x : Block) :
    (s.writeReg d len x).inst = s.inst := rfl
@[simp] theorem State.status_writeReg (s : State) (d : Reg) (len : Fin 9) (x : Block) :
    (s.writeReg d len x).status = s.status := rfl
@[simp] theorem State.pending_writeReg (s : State) (d : Reg) (len : Fin 9) (x : Block) :
    (s.writeReg d len x).pending = s.pending := rfl
@[simp] theorem State.din_writeReg (s : State) (d : Reg) (len : Fin 9) (x : Block) :
    (s.writeReg d len x).din = s.din := rfl
@[simp] theorem State.responses_writeReg (s : State) (d : Reg) (len : Fin 9) (x : Block) :
    (s.writeReg d len x).responses = s.responses := rfl
@[simp] theorem State.resets_writeReg (s : State) (d : Reg) (len : Fin 9) (x : Block) :
    (s.writeReg d len x).resets = s.resets := rfl

/-- Every register is empty in the reset state (10_state.md R41). -/
@[simp] theorem State.reg_reset (i : Reg) : State.reset.reg i = DataReg.empty := by
  simp [State.reg, State.reset]

/-- A reset empties every register (70_reset_and_hazards.md R340). -/
@[simp] theorem State.reg_resetBy (s : State) (o : Option (CmdWord × Block)) (rest : List HostMove) (i : Reg) :
    (s.resetBy o rest).reg i = DataReg.empty := State.reg_reset i

/-- The register file as its registers. -/
theorem State.regs_ext {s t : State} : t.regs = s.regs ↔ ∀ i : Reg, t.reg i = s.reg i := by
  constructor
  · intro h i
    simp [State.reg, h]
  · intro h
    ext1 i hi
    exact h ⟨i, hi⟩

end Sys2Proof.Machine
end

