-- ==== Sys2Proof/Laws/Operands.lean ====
section
/-! SUPPORT. The operand forms bit by bit, in DES numbering (10_state.md R22, R23). -/

namespace Sys2Proof.Machine

/-- The first n bits of a storage are its bits at positions 0..n-1. -/
theorem getMsbD_leadingBits {n : Nat} (h : n ≤ 64) (x : Block) (p : Nat) :
    (leadingBits n x).getMsbD p = (decide (p < n) && x.getMsbD p) := by
  simp only [leadingBits, BitVec.getMsbD_extractLsb']
  by_cases hp : p < n
  · have : 64 - (64 - n + n - p) = p := by omega
    have h2 : 64 - n + n - p ≤ 64 := by omega
    simp [hp, this, h2]
  · simp [hp]

/-- A left-justified value has its own bits at the front and zeros after them. -/
theorem getMsbD_leftJustify {n : Nat} (h : n ≤ 64) (v : BitVec n) (p : Nat) :
    (leftJustify v).getMsbD p = v.getMsbD p := by
  simp only [leftJustify, BitVec.getMsbD_shiftLeft, BitVec.getMsbD_setWidth]
  by_cases hp : p < n
  · have h1 : p + (64 - n) + n - 64 = p := by omega
    have h2 : 64 - n ≤ p + (64 - n) := by omega
    simp [h1, h2]
  · have h1 : v.getMsbD p = false := BitVec.getMsbD_of_ge v p (by omega)
    have h2 : v.getMsbD (p + (64 - n) + n - 64) = false := BitVec.getMsbD_of_ge v _ (by omega)
    rw [h1, h2]
    simp

/-- Keeping the first `len` bytes zeroes every later position. -/
theorem getMsbD_keepBytes (len : Fin 9) (x : Block) (p : Nat) :
    (keepBytes len x).getMsbD p = (decide (p < 8 * len.val) && x.getMsbD p) := by
  have hl := len.isLt
  simp only [keepBytes, BitVec.getMsbD_shiftLeft, BitVec.getMsbD_ushiftRight]
  by_cases hp : p < 8 * len.val
  · have h1 : p + (64 - 8 * len.val) < 64 := by omega
    have h2 : ¬p + (64 - 8 * len.val) < 64 - 8 * len.val := by omega
    have h3 : p + (64 - 8 * len.val) - (64 - 8 * len.val) = p := by omega
    simp [hp, h1, h2, h3]
  · have h1 : ¬p + (64 - 8 * len.val) < 64 := by omega
    simp [hp, h1]

/-- A set bit is the bit given, and every other bit of the storage stays. -/
theorem getMsbD_setBitAt (x : Block) {p q : Nat} (hp : p < 64) (hq : q < 64) (b : Bool) :
    (setBitAt x p b).getMsbD q = if q = p then b else x.getMsbD q := by
  have e : (63 - p = 64 - 1 - q) ↔ q = p := by omega
  cases b <;> by_cases hqp : q = p <;>
    simp [setBitAt, BitVec.getMsbD_eq_getLsbD, BitVec.getLsbD_twoPow, hq, hqp] <;> omega

/-- A value placed in a storage and read back. -/
@[simp] theorem leadingBits_leftJustify {n : Nat} (h : n ≤ 64) (v : BitVec n) : leadingBits n (leftJustify v) = v := by
  apply BitVec.eq_of_getMsbD_eq
  intro p hp
  rw [getMsbD_leadingBits h, getMsbD_leftJustify h]
  simp [hp]

/-- Keeping bytes that hold a whole left-justified value keeps it. -/
theorem keepBytes_leftJustify {n : Nat} (len : Fin 9) (h : n ≤ 8 * len.val) (v : BitVec n) :
    keepBytes len (leftJustify v) = leftJustify v := by
  have hl := len.isLt
  apply BitVec.eq_of_getMsbD_eq
  intro p _
  rw [getMsbD_keepBytes, getMsbD_leftJustify (by omega)]
  by_cases hp : p < n
  · have : p < 8 * len.val := by omega
    simp [this]
  · simp [BitVec.getMsbD_of_ge v p (by omega)]

/-- Keeping the same bytes twice is keeping them once. -/
@[simp] theorem keepBytes_keepBytes (len : Fin 9) (x : Block) : keepBytes len (keepBytes len x) = keepBytes len x := by
  apply BitVec.eq_of_getMsbD_eq
  intro p _
  simp only [getMsbD_keepBytes]
  by_cases hp : p < 8 * len.val <;> simp [hp]

/-- The empty test is LEN = 0. -/
theorem State.isEmpty_iff (s : State) (r : Reg) : s.isEmpty r = true ↔ s.lenOf r = 0 := by
  rw [State.isEmpty, beq_iff_eq]
  exact Fin.ext_iff

end Sys2Proof.Machine
end

