-- ==== Sys2Proof/Laws/Ops.lean ====
section
/-! SUPPORT. For each shared operation one lemma that says all it does, in the terms of Safety.lean. -/

namespace Sys2Proof.Machine

/-- What raising an error does (60_exceptions.md R303, R304). -/
theorem raised_raise (s : State) (e : ErrorKind) : Raised e s (s.raise e) := by
  simp [Raised, SameRegs, SamePort, Returned, State.raise, Status.recordError]

/-- A command that fails answers the raised state. -/
theorem fail_raised (s : State) (e : ErrorKind) : ∃ t, fail e s = .next t ∧ Raised e s t :=
  ⟨_, rfl, raised_raise s e⟩

/-- What a successful register write leaves: the kept bytes in register d, and nothing else changed. -/
theorem done_writeReg (s : State) (d : Reg) (len : Fin 9) (x : Block) :
    ∃ t, done (s.writeReg d len x) = .next t ∧ t.reg d = { storage := keepBytes len x, len := len } ∧
      RegHolds t d len.val x.getMsbD ∧ WroteOnly d s t ∧ Returned 0 0 0 s t := by
  refine ⟨_, rfl, ?_, ?_, ?_, ?_⟩
  · simp
  · simp [RegHolds, State.lenOf, State.bit, State.storage, getMsbD_keepBytes]
  · refine ⟨?_, rfl, rfl, rfl, rfl, rfl⟩
    intro r hr
    simp [hr]
  · simp [Returned]

/-- What a successful command without a register write leaves. -/
theorem done_next (s : State) :
    ∃ t, done s = .next t ∧ SameRegs s t ∧ t.inst = s.inst ∧ t.status = s.status ∧ SamePort s t ∧
      Returned 0 0 0 s t :=
  ⟨_, rfl, fun _ => rfl, rfl, rfl, ⟨rfl, rfl, rfl⟩, rfl⟩

/-- What a command that returns data leaves. -/
theorem doneWith_next (s : State) (dout : Block) (olen : Fin 9) :
    ∃ t, doneWith dout olen s = .next t ∧ SameRegs s t ∧ t.inst = s.inst ∧ t.status = s.status ∧ SamePort s t ∧
      Returned 0 dout olen s t :=
  ⟨_, rfl, fun _ => rfl, rfl, rfl, ⟨rfl, rfl, rfl⟩, rfl⟩

/-- A register that was written holds nothing after its value. -/
theorem canonicalReg_keepBytes (len : Fin 9) (x : Block) : CanonicalReg { storage := keepBytes len x, len := len } := by
  intro p _ hp
  rw [getMsbD_keepBytes]
  have : ¬p < 8 * len.val := by simpa using hp
  simp [this]

/-- A canonical register is its kept bytes. -/
theorem keepBytes_of_canonical {r : DataReg} (h : CanonicalReg r) : keepBytes r.len r.storage = r.storage := by
  apply BitVec.eq_of_getMsbD_eq
  intro p hp
  rw [getMsbD_keepBytes]
  by_cases hl : p < 8 * r.len.val
  · simp [hl]
  · simp [hl, h p hp (by omega)]

end Sys2Proof.Machine
end

