-- ==== Sys2Proof/Laws/PerInstr.lean ====
section
/-! SUPPORT. Facts about every instruction as syntax, one lemma per constructor. Family RowOfEncoding: the word an
instruction is encoded as selects its own row of the opcode map, whatever its operands (30_encoding.md R86). -/

namespace Sys2Proof.Laws

/-- A field's bits do not reach the bits a mask covers when they are disjoint. -/
theorem and_matchWord_or {m mask bits : CmdWord} (hm : m &&& mask = m) (hb : bits &&& mask = 0#32) :
    (m ||| bits) &&& mask = m := by
  have : (m ||| bits) &&& mask = (m &&& mask) ||| (bits &&& mask) := by
    ext i hi
    simp [Bool.and_or_distrib_right]
  rw [this, hm, hb]
  simp

theorem matchWord_and_mask (o : Op) : o.matchWord &&& o.mask = o.matchWord := by cases o <;> decide

theorem or_and_eq_zero {a b mask : CmdWord} (ha : a &&& mask = 0#32) (hb : b &&& mask = 0#32) :
    (a ||| b) &&& mask = 0#32 := by
  have : (a ||| b) &&& mask = (a &&& mask) ||| (b &&& mask) := by
    ext i hi
    simp [Bool.and_or_distrib_right]
  rw [this, ha, hb]
  simp

/-- The operand bits of an instruction lie outside its row's mask. -/
theorem operandBits_and_mask (i : Instr) : operandBits i &&& i.op.mask = 0#32 := by
  cases i with
  | nop => decide
  | ldv d n =>
    refine or_and_eq_zero ?_ ?_
    · simp only [Instr.op]; revert d; decide
    · simp only [Instr.op]; revert n; decide
  | stv s => simp only [Instr.op, operandBits]; revert s; decide
  | mov d s =>
    refine or_and_eq_zero ?_ ?_
    · simp only [Instr.op]; revert d; decide
    · simp only [Instr.op]; revert s; decide
  | clrerr => decide
  | btst s pos =>
    refine or_and_eq_zero ?_ ?_
    · simp only [Instr.op]; revert s; decide
    · simp only [Instr.op]; revert pos; decide
  | bset d pos val =>
    refine or_and_eq_zero (or_and_eq_zero ?_ ?_) ?_
    · simp only [Instr.op]; revert d; decide
    · simp only [Instr.op]; revert val; decide
    · simp only [Instr.op]; revert pos; decide
  | perm d s tbl =>
    refine or_and_eq_zero (or_and_eq_zero ?_ ?_) ?_
    · simp only [Instr.op]; revert d; decide
    · simp only [Instr.op]; revert s; decide
    · simp only [Instr.op]; cases tbl <;> decide
  | rot28 d k =>
    refine or_and_eq_zero ?_ ?_
    · simp only [Instr.op]; revert d; decide
    · simp only [Instr.op]; revert k; decide
  | ldk n => simp only [Instr.op, operandBits]; revert n; decide
  | rkrd d dir idx =>
    refine or_and_eq_zero (or_and_eq_zero ?_ ?_) ?_
    · simp only [Instr.op]; revert d; decide
    · simp only [Instr.op]; cases dir <;> decide
    · simp only [Instr.op]; revert idx; decide
  | xor d s t | ffn d s t | fround d s t =>
    refine or_and_eq_zero (or_and_eq_zero ?_ ?_) ?_
    · simp only [Instr.op]; revert d; decide
    · simp only [Instr.op]; revert s; decide
    · simp only [Instr.op]; revert t; decide
  | sbox d s | swap d s | enc d s | dec d s =>
    refine or_and_eq_zero ?_ ?_
    · simp only [Instr.op]; revert d; decide
    · simp only [Instr.op]; revert s; decide

namespace RowOfEncoding

/-- The encoded word has the row's match under the row's mask. -/
def Statement (i : Instr) : Prop := encode i &&& i.op.mask = i.op.matchWord

theorem ofInstr (i : Instr) : Statement i := and_matchWord_or (matchWord_and_mask i.op) (operandBits_and_mask i)

theorem nop : Statement .nop := ofInstr _
theorem ldv (d : Reg) (n : Fin 16) : Statement (.ldv d n) := ofInstr _
theorem stv (s : Reg) : Statement (.stv s) := ofInstr _
theorem mov (d s : Reg) : Statement (.mov d s) := ofInstr _
theorem clrerr : Statement .clrerr := ofInstr _
theorem btst (s : Reg) (pos : Fin 64) : Statement (.btst s pos) := ofInstr _
theorem bset (d : Reg) (pos : Fin 64) (val : Bool) : Statement (.bset d pos val) := ofInstr _
theorem perm (d s : Reg) (tbl : Table) : Statement (.perm d s tbl) := ofInstr _
theorem rot28 (d : Reg) (k : Fin 4) : Statement (.rot28 d k) := ofInstr _
theorem ldk (n : Fin 16) : Statement (.ldk n) := ofInstr _
theorem rkrd (d : Reg) (dir : Direction) (idx : Fin 16) : Statement (.rkrd d dir idx) := ofInstr _
theorem xor (d s t : Reg) : Statement (.xor d s t) := ofInstr _
theorem sbox (d s : Reg) : Statement (.sbox d s) := ofInstr _
theorem ffn (d s t : Reg) : Statement (.ffn d s t) := ofInstr _
theorem fround (d s t : Reg) : Statement (.fround d s t) := ofInstr _
theorem swap (d s : Reg) : Statement (.swap d s) := ofInstr _
theorem enc (d s : Reg) : Statement (.enc d s) := ofInstr _
theorem dec (d s : Reg) : Statement (.dec d s) := ofInstr _

end RowOfEncoding

end Sys2Proof.Laws
end

