-- ==== Sys2Proof/Laws/Step.lean ====
section
/-! SUPPORT. What one step can do, said once. -/

namespace Sys2Proof.Machine

/-- A step holds the state, executes the next command word, or resets. -/
theorem step_cases {s : State} {r : Host.Outcome State Fault Refusal} (h : step s = r) :
    (s.pending = [] ∧ r = .next s) ∨
    (∃ w din rest, s.pending = .command w din :: rest ∧ runWord w (s.accept din rest) = r) ∨
    (∃ o rest, s.pending = .reset o :: rest ∧ r = .next (s.resetBy o rest)) := by
  unfold step at h
  split at h
  · exact .inl ⟨by assumption, h.symm⟩
  · exact .inr (.inl ⟨_, _, _, by assumption, h⟩)
  · exact .inr (.inr ⟨_, _, by assumption, h.symm⟩)

/-- A command word is executed as the instruction it decodes to, or raises IllegalCommand. -/
theorem runWord_cases {w : CmdWord} {s : State} {r : Host.Outcome State Fault Refusal} (h : runWord w s = r) :
    (∃ i, decode w = .ok i ∧ exec i s = r) ∨ (∃ e, decode w = .error e ∧ r = .next (s.raise .illegalCommand)) := by
  unfold runWord at h
  split at h
  · exact .inl ⟨_, by assumption, h⟩
  · exact .inr ⟨_, by assumption, h.symm⟩

/-- An illegal word raises IllegalCommand in every state (30_encoding.md R87). -/
theorem wordRaises_of_illegal {w : CmdWord} {e : Illegal} (h : decode w = .error e) (s : State) :
    WordRaises w s .illegalCommand :=
  ⟨s.raise .illegalCommand, by simp [runWord, h, fail], raised_raise s _⟩

end Sys2Proof.Machine
end

