-- ==== Sys2Proof/Tests/Slice0.lean ====
section
/-! SUPPORT. The model's own tests: the WellFormed smoke test, decoding from words written out bit by bit, at most two
one-step tests an instruction, and for each obligation with hypotheses a witness that meets them. Expected values are
those of spec/95_test_vectors.md; the comment before a group names the table or program. -/

namespace Sys2Proof.Tests

open Machine Claims

-- one theorem at a time: each thread that waits for the kernel takes its own stack
set_option Elab.async false

/-! ## Helpers -/

/-- The state after an instruction. -/
def after (i : Instr) (s : State) : State :=
  match exec i s with
  | .next t => t
  | .fault _ => s
  | .refused _ => s

/-- The state after a command word. -/
def afterWord (w : CmdWord) (s : State) : State :=
  match runWord w s with
  | .next t => t
  | .fault _ => s
  | .refused _ => s

/-- The last response returned. -/
def lastResponse (s : State) : Option Response := s.responses.getLast?

/-- The result code of an instruction in s. -/
def codeOf (i : Instr) (s : State) : Option (BitVec 4) := (lastResponse (after i s)).map Response.code

/-- The result code of a command word in s. -/
def codeOfWord (w : CmdWord) (s : State) : Option (BitVec 4) := (lastResponse (afterWord w s)).map Response.code

/-- The test key and the test plaintext (L1.6). -/
def testKey : Block := 0x133457799BBCDFF1
/-- The test plaintext (L1.6). -/
def testBlock : Block := 0x0123456789ABCDEF

/-- Registers of every length a command takes, V7 empty, and no key: V0 the plaintext, V1 one byte, V2 a round key,
V3 a half, V4 a CD value, V5 a block, V6 six bytes (values of L1.6). -/
def bare : State :=
  ((((((State.reset.setReg 0 { storage := testBlock, len := 8 }).setReg 1 { storage := 0x8000000000000000, len := 1 }).setReg
    2 { storage := 0x1B02EFFC70720000, len := 6 }).setReg 3 { storage := 0xF0AAF0AA00000000, len := 4 }).setReg
    4 { storage := 0xF0CCAAF556678F00, len := 7 }).setReg 5 { storage := 0x434232340A4CD995, len := 8 }).setReg
    6 { storage := 0x7A15557A15550000, len := 6 }

/-- The same registers with the test key loaded. -/
def keyed : State := (bare.setInst (instanceOf testKey)).setStatus { bare.status with sv := true }

/-- The plaintext on the bus. -/
def withDin (s : State) (v : Block) : State := s.accept v s.pending

/-- A state with an error recorded: ERR = 1, ECODE = 7 (program P5, step 1). -/
def failed : State := after (.enc 0 0) State.reset

/-! ## WellFormed -/

theorem test_wf_ldv_refuses_zero_bytes : (Instr.ldv 0 0).wellFormed = false := by decide
theorem test_wf_ldv_refuses_nine_bytes : (Instr.ldv 0 9).wellFormed = false := by decide
theorem test_wf_accepts_ldv_bounds : (Instr.ldv 0 1).wellFormed = true ∧ (Instr.ldv 7 8).wellFormed = true := by decide
theorem test_wf_accepts_the_other_rows :
    [Instr.nop, .stv 7, .mov 7 7, .clrerr, .btst 7 63, .bset 7 63 true, .perm 7 7 .p, .rot28 7 3, .ldk 15, .rkrd 7 .rev 15,
      .xor 7 7 7, .sbox 7 7, .ffn 7 7 7, .fround 7 7 7, .swap 7 7, .enc 7 7, .dec 7 7].all Instr.wellFormed = true := by
  decide

/-! ## Decoding: words written out from the encoding column of 30_encoding.md R86 (OP, D, S, T, the rest) -/

-- OP 000000, all zero
theorem test_decode_nop : decode 0b00000000000000000000000000000000#32 = .ok .nop := by decide
-- 000001 ddd 000 000 000000 0000000 nnnn: D = 7, N = 1
theorem test_decode_ldv : decode 0b00000111100000000000000000000001#32 = .ok (.ldv 7 1) := by decide
-- 000010 000 sss: S = 6
theorem test_decode_stv : decode 0b00001000011000000000000000000000#32 = .ok (.stv 6) := by decide
-- 000011 ddd sss: D = 1, S = 4
theorem test_decode_mov : decode 0b00001100110000000000000000000000#32 = .ok (.mov 1 4) := by decide
-- 000100
theorem test_decode_clrerr : decode 0b00010000000000000000000000000000#32 = .ok .clrerr := by decide
-- 001000 000 sss 000 ... pppppp: S = 1, POS = 32
theorem test_decode_btst : decode 0b00100000000100000000000000100000#32 = .ok (.btst 1 32) := by decide
-- 001001 ddd 000 000 ... v pppppp: D = 4, VAL = 0, POS = 33; VAL = 1, POS = 1
theorem test_decode_bset : decode 0b00100110000000000000000000100001#32 = .ok (.bset 4 33 false) ∧
    decode 0b00100110000000000000000001000001#32 = .ok (.bset 4 1 true) := by decide
-- 001010 ddd sss 000 ... ttt: D = 2, S = 1, TBL = 4 (E)
theorem test_decode_perm : decode 0b00101001000100000000000000000100#32 = .ok (.perm 2 1 .e) := by decide
-- 010000 ddd ... kk: D = 4, K = 1
theorem test_decode_rot28 : decode 0b01000010000000000000000000000001#32 = .ok (.rot28 4 1) := by decide
-- 010001 ... nnnn: N = 8 and N = 1
theorem test_decode_ldk : decode 0b01000100000000000000000000001000#32 = .ok (.ldk 8) ∧
    decode 0b01000100000000000000000000000001#32 = .ok (.ldk 1) := by decide
-- 010010 ddd ... r iiii: D = 1, DIR = 0, IDX = 15; DIR = 1, IDX = 0
theorem test_decode_rkrd : decode 0b01001000100000000000000000001111#32 = .ok (.rkrd 1 .fwd 15) ∧
    decode 0b01001000100000000000000000010000#32 = .ok (.rkrd 1 .rev 0) := by decide
-- 011000 ddd sss ttt: D = 1, S = 2, T = 4
theorem test_decode_xor : decode 0b01100000101010000000000000000000#32 = .ok (.xor 1 2 4) := by decide
-- 011001 ddd sss: D = 1, S = 2
theorem test_decode_sbox : decode 0b01100100101000000000000000000000#32 = .ok (.sbox 1 2) := by decide
-- 011010 ddd sss ttt: D = 4, S = 2, T = 1
theorem test_decode_ffn : decode 0b01101010001000100000000000000000#32 = .ok (.ffn 4 2 1) := by decide
-- 011011 ddd sss ttt: D = 2, S = 4, T = 1
theorem test_decode_fround : decode 0b01101101010000100000000000000000#32 = .ok (.fround 2 4 1) := by decide
-- 100000 ddd sss: D = 1, S = 4
theorem test_decode_swap : decode 0b10000000110000000000000000000000#32 = .ok (.swap 1 4) := by decide
-- 100001 ddd sss: D = 2, S = 1
theorem test_decode_enc : decode 0b10000101000100000000000000000000#32 = .ok (.enc 2 1) := by decide
-- 100010 ddd sss: D = 4, S = 2
theorem test_decode_dec : decode 0b10001010001000000000000000000000#32 = .ok (.dec 4 2) := by decide

-- V-30: the illegal words
theorem test_decode_reserved : decode 0x14000000#32 = .error .reservedOpcode ∧
    decode 0xFC000000#32 = .error .reservedOpcode := by decide
theorem test_decode_must_be_zero : decode 0x00000001#32 = .error .mustBeZero ∧
    decode 0x04100008#32 = .error .mustBeZero ∧ decode 0x20000040#32 = .error .mustBeZero ∧
    decode 0x48000020#32 = .error .mustBeZero ∧ decode 0x60010000#32 = .error .mustBeZero ∧
    decode 0x10000080#32 = .error .mustBeZero := by decide
theorem test_decode_field_values : decode 0x04000000#32 = .error .byteCount ∧ decode 0x04000009#32 = .error .byteCount ∧
    decode 0x28000006#32 = .error .tableSelector ∧ decode 0x28000007#32 = .error .tableSelector := by decide
theorem test_decodeTableWord : decodeTableWord 32 0x84800000 = some (.enc 1 0) ∧
    decodeTableWord 32 0x04000000 = none ∧ decodeTableWord 32 0x04000008 = some (.ldv 0 8) := by decide
theorem test_withFetchWord_runs_the_word :
    step (State.reset.withFetchWord 32 0x44000000) =
      exec (.ldk 0) (State.reset.accept 0 []) := rfl

/-! ## Assembler: lines and words of P1 to P8 and of the rules' examples -/

theorem test_assemble : [['L', 'D', 'V', ' ', 'v', '0', ',', ' ', '8'], ['L', 'D', 'K', ' ', '8'],
    ['R', 'K', 'R', 'D', ' ', 'v', '2', ',', ' ', '0', ',', ' ', 'R', 'E', 'V'],
    ['F', 'R', 'O', 'U', 'N', 'D', ' ', 'v', '1', ',', ' ', 'v', '1', ',', ' ', 'v', '2'],
    ['B', 'S', 'E', 'T', ' ', 'v', '0', ',', ' ', '#', '6', '3', ',', ' ', '0']].map Assembler.assemble =
    [some 0x04000008, some 0x44000008, some 0x49000010, some 0x6C940000, some 0x2400003F] := by decide +kernel
theorem test_assemble_refuses : Assembler.assemble ['L', 'D', 'V', ' ', 'v', '0', ',', ' ', '9'] = none := by decide +kernel
theorem test_assemble_pseudo : Assembler.assemble ['L', 'D', 'K'] = some 0x44000008 ∧
    Assembler.assemble ['C', 'L', 'R', ' ', 'v', '1'] = some 0x60920000 := by decide +kernel

/-! ## One step of each instruction -/

-- V-40
theorem test_nop : codeOf .nop keyed = some 0 ∧ (after .nop keyed).status.word = 0x20 := by decide +kernel
theorem test_ldv : (after (.ldv 3 4) (withDin State.reset testBlock)).reg 3 = { storage := 0x0123456700000000, len := 4 } := by
  decide +kernel
theorem test_ldv_discards_the_old_value :
    (after (.ldv 0 2) (withDin bare 0xAAAA000000000000)).reg 0 = { storage := 0xAAAA000000000000, len := 2 } := by
  decide +kernel
theorem test_stv : lastResponse (after (.stv 3) (bare.setReg 3 { storage := 0x0123456700000000, len := 4 })) =
    some { code := 0, status := 0x00, dout := 0x0123456700000000, olen := 4 } := by decide +kernel
theorem test_stv_empty : lastResponse (after (.stv 0) State.reset) =
    some { code := 7, status := 0x0F, dout := 0, olen := 0 } := by decide +kernel
theorem test_mov : (after (.mov 1 4) bare).reg 1 = { storage := 0xF0CCAAF556678F00, len := 7 } := by decide +kernel
theorem test_mov_empty : codeOf (.mov 1 0) State.reset = some 7 ∧ (after (.mov 1 0) State.reset).lenOf 1 = 0 := by
  decide +kernel
theorem test_clrerr : (after .clrerr (keyed.setStatus { err := true, ecode := 7, sv := true, f := false })).status.word =
    0x20 := by decide +kernel
theorem test_clrerr_bad_word_sets_err : codeOfWord 0x10000080 State.reset = some 1 ∧
    (afterWord 0x10000080 State.reset).status.word = 0x03 := by decide +kernel

-- V-41
theorem test_btst : [0, 7, 63, 60, 59].map (fun p => (after (.btst 0 p) bare).status.f) = [false, true, true, true, false] := by
  decide +kernel
theorem test_btst_bound : codeOf (.btst 1 8) bare = some 4 ∧ (after (.btst 1 8) bare).status.f = false ∧
    codeOf (.btst 7 0) bare = some 7 := by decide +kernel
theorem test_bset : ((after (.bset 0 0 true) bare).storage 0, (after (.bset 0 63 false) bare).storage 0,
    (after (.bset 0 7 true) bare).storage 0) = (0x8123456789ABCDEF, 0x0123456789ABCDEE, 0x0123456789ABCDEF) := by
  decide +kernel
theorem test_bset_bound : codeOf (.bset 1 8 true) bare = some 4 ∧ (after (.bset 1 8 true) bare).reg 1 = bare.reg 1 := by
  decide +kernel

-- V-42
theorem test_perm : (after (.perm 1 0 .ip) bare).reg 1 = { storage := 0xCC00CCFFF0AAF0AA, len := 8 } ∧
    (after (.perm 1 0 .e) bare).reg 1 = { storage := 0x802906A0AB0E0000, len := 6 } ∧
    (after (.perm 1 4 .pc2) bare).reg 1 = { storage := 0xCB3D8B0E17F50000, len := 6 } := by decide +kernel
theorem test_perm_short_source : codeOf (.perm 1 2 .pc2) bare = some 4 ∧ codeOf (.perm 1 4 .pc1) bare = some 4 ∧
    codeOf (.perm 1 7 .ip) bare = some 7 := by decide +kernel

-- V-43
theorem test_rot28 : (after (.rot28 4 1) bare).reg 4 = { storage := 0xE19955FAACCF1E00, len := 7 } ∧
    (after (.rot28 4 2) bare).reg 4 = { storage := 0xC332ABF5599E3D00, len := 7 } := by decide +kernel
theorem test_rot28_checks : codeOf (.rot28 7 3) bare = some 5 ∧ codeOf (.rot28 7 1) bare = some 7 ∧
    codeOf (.rot28 0 1) bare = some 6 := by decide +kernel

-- V-44 and L1.6
theorem test_ldk : let t := after (.ldk 8) (withDin State.reset testKey)
    (roundKeyAt t.inst.rk 0, roundKeyAt t.inst.rk 9, roundKeyAt t.inst.rkd 0, t.status.word) =
      (0x1B02EFFC7072, 0xB1F347BA464F, 0xCB3D8B0E17F5, 0x20) := by decide +kernel
theorem test_ldk_bad_length : codeOf (.ldk 7) (withDin State.reset testKey) = some 2 ∧
    (after (.ldk 7) (withDin State.reset testKey)).status.word = 0x05 := by decide +kernel
theorem test_rkrd : (after (.rkrd 2 .fwd 1) keyed).reg 2 = { storage := 0x79AED9DBC9E50000, len := 6 } ∧
    (after (.rkrd 2 .rev 1) keyed).reg 2 = { storage := 0xBF918D3D3F0A0000, len := 6 } := by decide +kernel
theorem test_rkrd_no_key : codeOf (.rkrd 0 .fwd 0) State.reset = some 8 := by decide +kernel

-- L1.6, round 1
theorem test_xor : (after (.xor 6 6 2) bare).reg 6 = { storage := 0x6117BA8665270000, len := 6 } := by decide +kernel
theorem test_xor_lengths : codeOf (.xor 6 6 3) bare = some 6 ∧ codeOf (.xor 6 7 3) bare = some 7 := by decide +kernel
theorem test_sbox : (after (.sbox 1 6) (bare.setReg 6 { storage := 0x6117BA8665270000, len := 6 })).reg 1 =
    { storage := 0x5C82B59700000000, len := 4 } := by decide +kernel
theorem test_sbox_length : codeOf (.sbox 1 0) bare = some 6 := by decide +kernel
theorem test_ffn : (after (.ffn 1 3 2) bare).reg 1 = { storage := 0x234AA9BB00000000, len := 4 } := by decide +kernel
theorem test_ffn_lengths : codeOf (.ffn 1 0 2) bare = some 6 ∧ codeOf (.ffn 1 3 0) bare = some 6 := by decide +kernel
theorem test_fround : (after (.fround 1 0 2) (bare.setReg 0 { storage := 0xCC00CCFFF0AAF0AA, len := 8 })).reg 1 =
    { storage := 0xF0AAF0AAEF4A6544, len := 8 } := by decide +kernel
theorem test_fround_lengths : codeOf (.fround 1 2 2) bare = some 3 ∧ codeOf (.fround 1 0 3) bare = some 6 := by
  decide +kernel

-- L1.6, the last steps
theorem test_swap : (after (.swap 1 5) bare).reg 1 = { storage := 0x0A4CD99543423234, len := 8 } := by decide +kernel
theorem test_swap_length : codeOf (.swap 1 4) bare = some 3 := by decide +kernel
theorem test_enc : (after (.enc 1 0) keyed).reg 1 = { storage := 0x85E813540F0AB405, len := 8 } := by decide +kernel
theorem test_enc_checks : codeOf (.enc 0 0) State.reset = some 7 ∧ codeOf (.enc 1 0) bare = some 8 ∧
    codeOf (.enc 1 1) keyed = some 3 := by decide +kernel
theorem test_dec : (after (.dec 1 0) (keyed.setReg 0 { storage := 0x85E813540F0AB405, len := 8 })).reg 1 =
    { storage := 0x0123456789ABCDEF, len := 8 } := by decide +kernel
theorem test_dec_checks : codeOf (.dec 7 7) bare = some 7 ∧ codeOf (.dec 1 1) bare = some 8 := by decide +kernel

-- P5: the first error's code stays
theorem test_sticky_code : failed.status.word = 0x0F ∧ (after (.rot28 0 3) failed).status.word = 0x0F := by decide +kernel

/-! ## Witnesses: for each obligation with hypotheses, states and operands that meet them, at the bounds of each clause -/

/-- bare with a command outstanding at the port. -/
def presented (w : CmdWord) (din : Block) : State := bare.present (.command w din)

/-- Every instruction answers a next state, from every state. -/
theorem test_exec_answers (i : Instr) (s : State) : ∃ t, exec i s = .next t := by
  cases i <;>
    simp only [exec, execNop, execLdv, execStv, execMov, execClrerr, execBtst, execBset, execPerm, execRot28, execLdk,
      execRkrd, execXor, execSbox, execFfn, execFround, execSwap, execEnc, execDec, fail, done, doneWith] <;>
    (repeat' split) <;> exact ⟨_, rfl⟩

/-- Every command word answers a next state. -/
theorem test_runWord_answers (w : CmdWord) (s : State) : ∃ t, runWord w s = .next t := by
  unfold runWord
  split
  · exact test_exec_answers _ _
  · exact ⟨_, rfl⟩

/-- Every step answers a next state. -/
theorem test_step_answers (s : State) : ∃ t, step s = .next t := by
  unfold step
  split
  · exact ⟨_, rfl⟩
  · exact test_runWord_answers _ _
  · exact ⟨_, rfl⟩

theorem test_witness_DecodeOfEncode : (Instr.ldv 0 1).WellFormed ∧ (Instr.ldv 7 8).WellFormed ∧
    (Instr.ldk 15).WellFormed ∧ (Instr.rot28 0 0).WellFormed := by decide
theorem test_witness_EncodeOfDecode : decode 0x04000001#32 = .ok (.ldv 0 1) ∧
    decode 0x89800000#32 = .ok (.dec 3 0) := by decide
theorem test_witness_EveryWordSelectsOneRow :
    (∀ o : Op, o.code ≠ fieldOp 0xFC000000#32) ∧ (∀ o : Op, o.code ≠ fieldOp 0x14000000#32) ∧
    (Op.ldv.code = fieldOp 0x04100008#32 ∧ 0x04100008#32 &&& Op.ldv.mask ≠ Op.ldv.matchWord) := by
  refine ⟨?_, ?_, ?_⟩
  · intro o; cases o <;> decide
  · intro o; cases o <;> decide
  · decide
-- LDV: N = 1 and 8 in range, 0 and 9 not; PERM: TBL = 5, 6; ROT28: K = 1, 2, 0, 3; LDK: N = 8, 7
theorem test_witness_FieldValues :
    [0x04000001#32, 0x04000008#32, 0x04000000#32, 0x04000009#32].all (fun w => w &&& 0xFC7FFFF0#32 == 0x04000000#32) = true ∧
    [0x04000001#32, 0x04000008#32, 0x04000000#32, 0x04000009#32].map (fun w => (fieldN w).val) = [1, 8, 0, 9] ∧
    [0x28000005#32, 0x28000006#32].all (fun w => w &&& 0xFC0FFFF8#32 == 0x28000000#32) = true ∧
    [0x28000005#32, 0x28000006#32].map (fun w => (fieldTbl w).val) = [5, 6] ∧
    [0x40000001#32, 0x40000002#32, 0x40000000#32, 0x40000003#32].all (fun w => w &&& 0xFC7FFFFC#32 == 0x40000000#32) = true ∧
    [0x40000001#32, 0x40000002#32, 0x40000000#32, 0x40000003#32].map (fun w => (fieldK w).val) = [1, 2, 0, 3] ∧
    [0x44000008#32, 0x44000007#32].all (fun w => w &&& 0xFFFFFFF0#32 == 0x44000000#32) = true ∧
    [0x44000008#32, 0x44000007#32].map (fun w => (fieldN w).val) = [8, 7] := by decide
-- RKRD: IDX = 15, DIR = 1 with a key; BTST and BSET: POS = 7 and 8 of the one byte of V1
theorem test_witness_FieldValues_in_a_state :
    (0x4800001F#32 &&& 0xFC7FFFE0#32 = 0x48000000#32 ∧ keyed.status.sv = true) ∧
    [0x20100007#32, 0x20100008#32].all (fun w => w &&& 0xFF8FFFC0#32 == 0x20000000#32 && decide (bare.lenOf (fieldS w) ≠ 0)) = true ∧
    [0x20100007#32, 0x20100008#32].map (fun w => decide ((fieldPos w).val < 8 * bare.lenOf (fieldS w))) = [true, false] ∧
    [0x24800047#32, 0x24800048#32].all (fun w => w &&& 0xFC7FFF80#32 == 0x24000000#32 && decide (bare.lenOf (fieldD w) ≠ 0)) = true ∧
    [0x24800047#32, 0x24800048#32].map (fun w => decide ((fieldPos w).val < 8 * bare.lenOf (fieldD w))) = [true, false] := by
  decide +kernel
theorem test_witness_StepExecutes : (presented 0x04000008 testBlock).pending = .command 0x04000008 testBlock :: [] ∧
    decode 0x04000008#32 = .ok (.ldv 0 8) ∧ decode 0xFC000000#32 = .error .reservedOpcode := by decide
theorem test_witness_Idle : State.reset.pending = [] ∧ keyed.pending = [] := by decide
theorem test_witness_ResetMove :
    (keyed.present (.reset none)).pending = .reset none :: [] ∧
    (keyed.present (.reset (some (0x84800000, 0)))).pending = .reset (some (0x84800000, 0)) :: [] ∧
    (Instr.rkrd 0 .fwd 0).readsSchedule = true ∧ (Instr.enc 0 0).readsSchedule = true ∧
    ∃ u, step { keyed with pending := [.command 0x84800000 0, .reset none] } = .next u :=
  ⟨by decide, by decide, by decide, by decide, test_step_answers _⟩
-- a successful STV, a failed STV, another command
theorem test_witness_EveryCommand :
    (presented 0x08000000 0).pending = .command 0x08000000 0 :: [] ∧ decode 0x08000000#32 = .ok (.stv 0) ∧
    (presented 0x08000000 0).lenOf 0 ≠ 0 ∧ (presented 0x08700000 0).lenOf 7 = 0 ∧
    codeOfWord 0x08700000 bare ≠ some 0 ∧ ∀ a : Reg, decode 0x00000000#32 ≠ .ok (.stv a) := by decide +kernel
theorem test_witness_Sequences : State.reset.pending = [] ∧ keyed.pending = [] := by decide
theorem test_witness_StepKeepsInv : (keyed.present (.command 0x84800000 0)).Inv ∧
    ∃ t, step (keyed.present (.command 0x84800000 0)) = .next t := by
  refine ⟨⟨?_, ?_, ?_, ?_⟩, test_step_answers _⟩
  · intro r; fin_cases r <;> (unfold CanonicalReg; decide +kernel)
  · unfold State.ErrorCodeMatches; decide +kernel
  · decide +kernel
  · intro _; rfl
theorem test_witness_Schedules :
    (keyed.SchedulesReversed ∧ keyed.status.sv = true ∧ ∃ t, step keyed = .next t) ∧
    (∃ t, runWord 0x44000008 (withDin bare testKey) = .next t) ∧
    (afterWord 0x44000008 (withDin bare testKey)).inst.rk ≠ (withDin bare testKey).inst.rk ∧
    decode 0x44000008#32 = .ok (.ldk 8) := by
  refine ⟨⟨?_, by decide, test_step_answers _⟩, test_runWord_answers _ _, by decide +kernel, by decide⟩
  intro _; decide +kernel
theorem test_witness_ErrorFields : failed.ErrorCodeMatches ∧ State.reset.ErrorCodeMatches ∧
    decode 0x10000000#32 = .ok .clrerr := by
  unfold State.ErrorCodeMatches
  decide +kernel
-- BTST v0, 7 changes F from 0 to 1
theorem test_witness_BitTestFlag : decode 0x20000007#32 = .ok (.btst 0 7) ∧ codeOfWord 0x20000007 bare = some 0 ∧
    (afterWord 0x20000007 bare).status.f ≠ bare.status.f ∧
    ∃ resp, (afterWord 0x20000007 bare).responses = bare.responses ++ [resp] :=
  ⟨by decide, by decide +kernel, by decide +kernel, { code := 0, status := 0x40, dout := 0, olen := 0 }, by decide +kernel⟩
theorem test_witness_ScheduleValid :
    (∃ t, runWord 0x44000008 bare = .next t) ∧ (keyed.present (.reset none)).pending = .reset none :: [] ∧
    (∃ t, step (keyed.present (.reset none)) = .next t) ∧
    ((Instr.enc 1 0).readsSchedule = true ∧ bare.status.sv = false ∧ ∀ r ∈ (Instr.enc 1 0).reads, bare.lenOf r ≠ 0) :=
  ⟨test_runWord_answers _ _, rfl, test_step_answers _, by decide +kernel⟩
-- a success, a failure, and a register outside the reads column that is the destination
theorem test_witness_RegisterReaders : codeOf (.mov 1 0) bare = some 0 ∧ codeOf (.mov 1 7) bare = some 7 ∧
    Instr.writes bare (.mov 1 0) = some (1, 8) ∧ (1 : Reg) ∉ (Instr.mov 1 0).reads ∧
    (Instr.mov 1 0).readsSchedule = false ∧ (Instr.mov 1 0).readsDin = false ∧
    (after (.btst 0 7) bare).status.f ≠ bare.status.f := by decide +kernel
-- two errors apply and the first is reported; none applies; an illegal word
theorem test_witness_ChecksInOrder :
    (Instr.enc 0 7).errorsInOrder bare = [.emptyOperand, .noSchedule, .invalidBlockLength] ∧
    (Instr.enc 1 0).errorsInOrder keyed = [] ∧ decode 0x28000006#32 = .error .tableSelector := by decide +kernel
theorem test_witness_ErrorsSticky : failed.status.err = true ∧ decode 0x00000000#32 ≠ .ok .clrerr ∧
    codeOfWord 0x00000000 bare = some 0 ∧ codeOfWord 0xFC000000 bare = some 1 := by decide +kernel
-- a pair that differs in all four hidden parts, with SV = 0; a pair that differs in KEY and CD, with SV = 1
theorem test_witness_Hidden : ObsEq bare (bare.setInst (instanceOf testKey)) ∧ bare.inst ≠ instanceOf testKey ∧
    ObsEq keyed (keyed.setInst { keyed.inst with key := 0, cd := 0 }) ∧ keyed.inst.key ≠ 0 := by
  refine ⟨⟨rfl, rfl, rfl, rfl, rfl, rfl, ?_⟩, by decide +kernel, ⟨rfl, rfl, rfl, rfl, rfl, rfl, fun _ => ⟨rfl, rfl⟩⟩,
    by decide⟩
  intro h
  exact absurd h (by decide)
-- an illegal word and NOP read no din; LDV with N = 2 and a din that agrees in two bytes
theorem test_witness_OnlyLdvAndLdkReadDin :
    (∀ i, decode 0xFC000000#32 = .ok i → i.readsDin = false) ∧ decode 0x00000000#32 = .ok .nop ∧
    Instr.nop.readsDin = false ∧
    (∀ p < 8 * (2 : Fin 16).val, (0x0123000000000000 : Block).getMsbD p = (withDin bare testBlock).din.getMsbD p) := by
  refine ⟨?_, by decide, by decide, by decide +kernel⟩
  intro i h
  rw [show decode 0xFC000000#32 = .error .reservedOpcode by decide] at h
  cases h
theorem test_witness_OtherCommands : (Instr.ldk 8).readsSchedule = false ∧ (Instr.swap 1 0).readsSchedule = false := by
  decide
theorem test_witness_Nop : fieldOp 0x00000001#32 = 0x00 ∧ (0x00000001 : CmdWord) ≠ 0 := by decide
-- N = 1 and 8; N = 0 and 9; an instruction that is no LDV; din = the test block
theorem test_witness_Ldv : (1 ≤ (1 : Fin 16).val ∧ (8 : Fin 16).val ≤ 8) ∧
    (0x04000000#32 &&& 0xFC7FFFF0#32 = 0x04000000#32 ∧ (fieldN 0x04000000#32).val = 0) ∧
    (0x04000009#32 &&& 0xFC7FFFF0#32 = 0x04000000#32 ∧ 8 < (fieldN 0x04000009#32).val) ∧
    (∀ d n, Instr.ldk 8 ≠ .ldv d n) ∧ (withDin bare testBlock).din = 0x0123456789ABCDEF#64 := by decide
theorem test_witness_Stv : bare.lenOf 0 ≠ 0 ∧ bare.lenOf 7 = 0 ∧
    (State.reset.setReg 3 { storage := 0x0123456700000000, len := 4 }).reg 3 =
      { storage := 0x0123456700000000#64, len := 4 } := by decide
theorem test_witness_Mov : bare.lenOf 0 ≠ 0 ∧ bare.lenOf 7 = 0 ∧ CanonicalReg (bare.reg 0) ∧
    (∃ t, exec (.mov 1 0) bare = .next t) ∧ bare.lenOf 1 ≠ 0 ∧
    (State.reset.setReg 0 { storage := 0xF0CCAAF556678F00, len := 7 }).reg 0 =
      { storage := 0xF0CCAAF556678F00#64, len := 7 } := by
  refine ⟨by decide, by decide, ?_, test_exec_answers _ _, by decide, by decide⟩
  unfold CanonicalReg
  decide +kernel
theorem test_witness_Clrerr : (fieldOp 0x10000080#32 = 0x04 ∧ (0x10000080#32 ≠ 0x10000000#32)) ∧
    (State.reset.ErrorCodeMatches ∧ State.reset.status.err = false) ∧
    (keyed.setStatus { err := true, ecode := 7, sv := true, f := false }).status.word = 0x2F := by
  unfold State.ErrorCodeMatches
  decide +kernel
-- the last position in bounds and the first outside, of one byte and of eight
theorem test_witness_Btst : ((7 : Fin 64).val < 8 * bare.lenOf 1 ∧ (63 : Fin 64).val < 8 * bare.lenOf 0) ∧ bare.lenOf 7 = 0 ∧
    (bare.lenOf 1 ≠ 0 ∧ 8 * bare.lenOf 1 ≤ (8 : Fin 64).val) ∧
    bare.reg 0 = { storage := 0x0123456789ABCDEF#64, len := 8 } := by decide
theorem test_witness_Bset : ((7 : Fin 64).val < 8 * bare.lenOf 1 ∧ CanonicalReg (bare.reg 1)) ∧ bare.lenOf 7 = 0 ∧
    (bare.lenOf 1 ≠ 0 ∧ 8 * bare.lenOf 1 ≤ (8 : Fin 64).val) ∧
    bare.reg 0 = { storage := 0x0123456789ABCDEF#64, len := 8 } := by
  unfold CanonicalReg
  decide +kernel
-- PC2 on exactly seven bytes, on six; IP on the empty register; TBL = 6 and 7
theorem test_witness_Perm : (bare.lenOf 4 ≠ 0 ∧ ∀ q ∈ tableEntries .pc2, q < 8 * bare.lenOf 4) ∧
    (bare.lenOf 2 ≠ 0 ∧ ∃ q ∈ tableEntries .pc2, 8 * bare.lenOf 2 ≤ q) ∧ bare.lenOf 7 = 0 ∧
    (0x28000006#32 &&& 0xFC0FFFF8#32 = 0x28000000#32 ∧ 6 ≤ (fieldTbl 0x28000006#32).val) ∧
    bare.reg 0 = { storage := 0x0123456789ABCDEF#64, len := 8 } := by decide +kernel
theorem test_witness_Tables : [0x28000006#32, 0x28000007#32].map (fun w => (w &&& 0xFC0FFFF8#32, (fieldTbl w).val)) =
    [(0x28000000#32, 6), (0x28000000#32, 7)] := by decide
theorem test_witness_Rot28 : ((1 : Fin 4).val = 1 ∧ (2 : Fin 4).val = 2 ∧ bare.lenOf 4 = 7) ∧
    ((0 : Fin 4).val = 0 ∧ (3 : Fin 4).val = 3) ∧ bare.lenOf 7 = 0 ∧ (bare.lenOf 0 ≠ 0 ∧ bare.lenOf 0 ≠ 7) ∧
    (bare.setReg 1 { storage := 0xF0CCAAF556678F00, len := 7 }).reg 1 = { storage := 0xF0CCAAF556678F00#64, len := 7 } ∧
    (bare.setReg 1 { storage := 0xE19955FAACCF1E00, len := 7 }).reg 1 = { storage := 0xE19955FAACCF1E00#64, len := 7 } := by
  decide
theorem test_witness_Ldk : (7 : Fin 16).val ≠ 8 ∧ (withDin bare testKey).din = 0x133457799BBCDFF1#64 := by decide
-- two keys that differ in every parity bit
theorem test_witness_Parity : (∀ p < 64, p % 8 ≠ 7 →
    (0x133457799BBCDFF1 : Block).getMsbD p = (0x123456789ABCDEF0 : Block).getMsbD p) := by decide +kernel
theorem test_witness_ScheduleProperties : (withDin State.reset testKey).din = (withDin keyed testKey).din := by decide
theorem test_witness_Rekeying : keyed.inst = instanceOf testKey ∧ keyed.status.sv = true ∧ (0 : Fin 16).val ≠ 8 :=
  ⟨rfl, by decide, by decide⟩
theorem test_witness_Rkrd : keyed.status.sv = true ∧ bare.status.sv = false ∧ keyed.SchedulesReversed ∧
    keyed.inst = instanceOf 0x133457799BBCDFF1#64 := by
  refine ⟨by decide, by decide, ?_, rfl⟩
  intro _
  decide +kernel
theorem test_witness_Xor : (bare.lenOf 6 ≠ 0 ∧ bare.lenOf 2 = bare.lenOf 6) ∧ bare.lenOf 7 = 0 ∧
    (bare.lenOf 0 ≠ 0 ∧ bare.lenOf 1 ≠ 0 ∧ bare.lenOf 0 ≠ bare.lenOf 1) ∧
    (bare.setReg 3 { storage := 0x7A15557A15550000, len := 6 }).reg 3 = { storage := 0x7A15557A15550000#64, len := 6 } ∧
    (bare.setReg 3 { storage := 0x7A15557A15550000, len := 6 }).reg 2 = { storage := 0x1B02EFFC70720000#64, len := 6 } := by
  decide
theorem test_witness_SboxLanes : ∀ k < 6, (0x820820820820 : BitVec 48).getMsbD (6 * (7 : Fin 8).val + k) =
    (0x000000000020 : BitVec 48).getMsbD (6 * (7 : Fin 8).val + k) := by decide
theorem test_witness_Sbox : ValueIs bare 6 0x7A15557A1555#48 ∧ bare.lenOf 7 = 0 ∧
    (bare.lenOf 0 ≠ 0 ∧ bare.lenOf 0 ≠ 6) ∧
    (bare.setReg 3 { storage := 0x6117BA8665270000, len := 6 }).reg 3 = { storage := 0x6117BA8665270000#64, len := 6 } := by
  unfold ValueIs
  decide +kernel
-- S empty, T empty; S wrong, T wrong
theorem test_witness_Ffn : (ValueIs bare 3 0xF0AAF0AA#32 ∧ ValueIs bare 2 0x1B02EFFC7072#48) ∧
    bare.lenOf 7 = 0 ∧ (bare.lenOf 0 ≠ 0 ∧ bare.lenOf 2 ≠ 0 ∧ bare.lenOf 0 ≠ 4) ∧
    (bare.lenOf 3 ≠ 0 ∧ bare.lenOf 4 ≠ 0 ∧ bare.lenOf 4 ≠ 6) ∧
    (bare.setReg 1 { storage := 0xF0AAF0AA00000000, len := 4 }).reg 1 = { storage := 0xF0AAF0AA00000000#64, len := 4 } ∧
    (bare.setReg 1 { storage := 0xF0AAF0AA00000000, len := 4 }).reg 2 = { storage := 0x1B02EFFC70720000#64, len := 6 } := by
  unfold ValueIs
  decide +kernel
theorem test_witness_Fround : (ValueIs bare 0 0x0123456789ABCDEF#64 ∧ ValueIs bare 2 0x1B02EFFC7072#48) ∧
    bare.lenOf 7 = 0 ∧ (bare.lenOf 4 ≠ 0 ∧ bare.lenOf 2 ≠ 0 ∧ bare.lenOf 4 ≠ 8) ∧
    (bare.lenOf 0 = 8 ∧ bare.lenOf 4 ≠ 0 ∧ bare.lenOf 4 ≠ 6) ∧
    (bare.setReg 1 { storage := 0xCC00CCFFF0AAF0AA, len := 8 }).reg 1 = { storage := 0xCC00CCFFF0AAF0AA#64, len := 8 } ∧
    (bare.setReg 1 { storage := 0xCC00CCFFF0AAF0AA, len := 8 }).reg 2 = { storage := 0x1B02EFFC70720000#64, len := 6 } := by
  unfold ValueIs
  decide +kernel
theorem test_witness_Swap : bare.lenOf 0 = 8 ∧ bare.lenOf 7 = 0 ∧ (bare.lenOf 4 ≠ 0 ∧ bare.lenOf 4 ≠ 8) ∧
    leftHalf 0x0123456701234567#64 = rightHalf 0x0123456701234567#64 ∧
    (bare.setReg 1 { storage := 0x434232340A4CD995, len := 8 }).reg 1 = { storage := 0x434232340A4CD995#64, len := 8 } := by
  decide
theorem test_witness_Enc : (ValueIs keyed 0 0x0123456789ABCDEF#64 ∧ keyed.status.sv = true) ∧ keyed.lenOf 7 = 0 ∧
    (bare.lenOf 0 ≠ 0 ∧ bare.status.sv = false) ∧ (keyed.lenOf 4 ≠ 0 ∧ keyed.lenOf 4 ≠ 8) ∧
    keyed.inst = instanceOf 0x133457799BBCDFF1#64 ∧ keyed.reg 0 = { storage := 0x0123456789ABCDEF#64, len := 8 } := by
  refine ⟨?_, by decide, by decide, by decide, rfl, by decide⟩
  unfold ValueIs
  decide +kernel
theorem test_witness_Dec : (ValueIs keyed 5 0x434232340A4CD995#64 ∧ keyed.status.sv = true) ∧ keyed.lenOf 7 = 0 ∧
    (bare.lenOf 5 ≠ 0 ∧ bare.status.sv = false) ∧ (keyed.lenOf 1 ≠ 0 ∧ keyed.lenOf 1 ≠ 8) ∧
    keyed.inst = instanceOf 0x133457799BBCDFF1#64 ∧
    (keyed.setReg 1 { storage := 0x85E813540F0AB405, len := 8 }).reg 1 = { storage := 0x85E813540F0AB405#64, len := 8 } := by
  refine ⟨?_, by decide, by decide, by decide, rfl, by decide⟩
  unfold ValueIs
  decide +kernel
theorem test_witness_DecryptionInverts : keyed.inst = instanceOf testKey ∧ keyed.status.sv = true ∧
    ValueIs keyed 0 0x0123456789ABCDEF#64 ∧
    ((keyed.setReg 3 { storage := testBlock, len := 8 }).inst = keyed.inst ∧
      ValueIs (keyed.setReg 3 { storage := testBlock, len := 8 }) 3 0x0123456789ABCDEF#64) := by
  refine ⟨rfl, by decide, ?_, rfl, ?_⟩ <;> (unfold ValueIs; decide +kernel)
theorem test_witness_Streams : (∃ t, exec (.enc 1 0) keyed = .next t) ∧ (∃ t, exec (.dec 1 0) keyed = .next t) ∧
    ((1 : Reg) ≠ 2 ∧ (1 : Reg) ≠ 5 ∧ (2 : Reg) ≠ 0) :=
  ⟨test_exec_answers _ _, test_exec_answers _ _, by decide⟩
theorem test_witness_Assembler : (Instr.ldv 0 8).WellFormed ∧ bare.lenOf 7 = 0 ∧ bare.lenOf 1 ≠ 0 := by decide
/-- The line "BSET v0, #063, 0", and "CLR v1". -/
theorem test_witness_Assembler_forms :
    Assembler.FormOf (.bset 0 63 false)
      (Assembler.tokens ['B', 'S', 'E', 'T', ' ', 'v', '0', ',', ' ', '#', '0', '6', '3', ',', ' ', '0']) ∧
    Assembler.PseudoFormOf (.clr 1) (Assembler.tokens ['C', 'L', 'R', ' ', 'v', '1']) :=
  ⟨⟨by decide, .cons (.inl rfl) (.cons (.inr ⟨63, 1, rfl, .inr rfl⟩) (.cons (.inl rfl) .nil))⟩, by decide, by decide⟩
theorem test_witness_Rotator : (∃ k : Nat, k = 1 ∨ k = 2) ∧
    (halfC 0xF0CCAAF556678F#56 = halfC 0xF0CCAAF0000000#56 ∧ 0xF0CCAAF556678F#56 ≠ 0xF0CCAAF0000000#56) ∧
    (halfD 0xF0CCAAF556678F#56 = halfD 0x0000000556678F#56 ∧ 0xF0CCAAF556678F#56 ≠ 0x0000000556678F#56) :=
  ⟨⟨1, .inl rfl⟩, by decide, by decide⟩

end Sys2Proof.Tests
end

section
/-! The six permutation tables (42_permutation.md R152, R154): the bounds test on the largest entry is the test of every
entry, and a PERM word with a reserved selector decodes to no instruction. -/

namespace Sys2Proof

/-- The reserved selectors are those above 5 (R154). -/
theorem Table.ofSelector_eq_none_iff : ∀ n : Fin 8, Table.ofSelector n = none ↔ 6 ≤ n.val := by decide

/-- A PERM word with a reserved selector is illegal (30_encoding.md R88). -/
theorem decode_perm_of_reserved {w : CmdWord} (h : w &&& Op.perm.mask = Op.perm.matchWord)
    (hr : 6 ≤ (fieldTbl w).val) : decode w = .error .tableSelector := by
  rw [decode_of_match h]
  simp [decodeRow, (Table.ofSelector_eq_none_iff _).mpr hr]

end Sys2Proof

namespace Sys2Proof.Machine

theorem foldl_max_lt_iff (t : List Nat) (a n : Nat) : t.foldl Nat.max a < n ↔ a < n ∧ ∀ q ∈ t, q < n := by
  induction t generalizing a with
  | nil => simp
  | cons x xs ih =>
    have hmax : Nat.max a x < n ↔ a < n ∧ x < n := Nat.max_lt
    rw [List.foldl_cons, ih, hmax, List.forall_mem_cons, and_assoc]

/-- PERM's comparison with the largest entry is the bound of R152 on every entry. -/
theorem maxEntry_lt_iff {n : Nat} (hn : 0 < n) (t : List Nat) : maxEntry t < n ↔ ∀ q ∈ t, q < n := by
  rw [maxEntry, foldl_max_lt_iff, and_iff_right hn]

/-- No permutation table fits in an empty source. -/
theorem not_forall_tableEntries_lt_zero (t : Table) : ¬ ∀ q ∈ tableEntries t, q < 0 := by
  have hne : tableEntries t ≠ [] := by cases t <;> decide
  obtain ⟨q, hq⟩ := List.exists_mem_of_ne_nil _ hne
  exact fun h => Nat.not_lt_zero q (h q hq)

@[simp] theorem maxEntry_tableIP : maxEntry tableIP = 63 := by decide +kernel
@[simp] theorem maxEntry_tableFP : maxEntry tableFP = 63 := by decide +kernel
@[simp] theorem maxEntry_tablePC1 : maxEntry tablePC1 = 62 := by decide +kernel
@[simp] theorem maxEntry_tablePC2 : maxEntry tablePC2 = 55 := by decide +kernel
@[simp] theorem maxEntry_tableE : maxEntry tableE = 31 := by decide +kernel
@[simp] theorem maxEntry_tableP : maxEntry tableP = 31 := by decide +kernel

/-- The smallest source length of a table is the byte of its largest entry, counted from one (R154). -/
theorem forall_tableEntries_lt_iff (t : Table) (len : Nat) :
    (∀ q ∈ tableEntries t, q < 8 * len) ↔ maxEntry (tableEntries t) / 8 + 1 ≤ len := by
  rcases Nat.eq_zero_or_pos len with rfl | hlen
  · simpa using not_forall_tableEntries_lt_zero t
  · rw [← maxEntry_lt_iff (by omega)]
    omega

end Sys2Proof.Machine

namespace Sys2Proof

open Machine

/-- Settles O34: the columns of R154 are computed from the tables, the bounds go through the largest entry of each, and
the reserved selectors are illegal at decode. -/
theorem tablesHaveTheStatedShapes : Obligations.TablesHaveTheStatedShapes := by
  have bound {t : List Nat} {n : Nat} (h : maxEntry t < n) : ∀ q ∈ t, q < n :=
    (maxEntry_lt_iff (Nat.zero_lt_of_lt h) t).mp h
  refine ⟨?_, ?_, ?_, bound (by simp), ?_, ?_⟩
  · simp only [List.map_cons, List.map_nil, tableEntries, maxEntry_tableIP, maxEntry_tableFP, maxEntry_tablePC1,
      maxEntry_tablePC2, maxEntry_tableE, maxEntry_tableP]
    rfl
  · intro len
    simp only [forall_tableEntries_lt_iff]
    simp [tableEntries]
    omega
  · simp only [List.forall_mem_append]
    exact ⟨⟨bound (by simp), bound (by simp)⟩, bound (by simp)⟩
  · exact List.forall_mem_append.mpr ⟨bound (by simp), bound (by simp)⟩
  · intro w s hw hsel
    exact wordRaises_of_illegal (decode_perm_of_reserved hw (by omega)) s

end Sys2Proof
end

section
/-! What a command does, as data: every instruction's meaning is one `Effect`, chosen by the checks of 60_exceptions.md
R305 and by what the instruction reads, and `Effect.run` carries it out. `exec_eq_run` ties it to the model, so the
statements about all commands are statements about the six effects. -/

namespace Sys2Proof.Machine

/-! ## The six effects -/

/-- All a command can do to the machine. -/
inductive Effect where
  /-- Raise an error (60_exceptions.md R303). -/
  | raise (e : ErrorKind)
  /-- Succeed, change nothing and return data: NOP, which returns none, and STV. -/
  | answer (dout : Block) (olen : Fin 9)
  /-- Write one data register (10_state.md R24). -/
  | write (d : Reg) (len : Fin 9) (x : Block)
  /-- Clear ERR and ECODE (R31). -/
  | clearError
  /-- Write F (R33). -/
  | writeFlag (b : Bool)
  /-- Replace KEY, CD, RK and RKD by those of a key, and set SV (44_key_schedule.md R195). -/
  | loadKey (key : Block)

/-- The state after an effect and its response. -/
def Effect.run : Effect → State → State
  | .raise e, s => s.raise e
  | .answer dout olen, s => s.respond 0 dout olen
  | .write d len x, s => (s.writeReg d len x).respond 0 0 0
  | .clearError, s => s.acknowledge.respond 0 0 0
  | .writeFlag b, s => (s.setStatus (s.status.setF b)).respond 0 0 0
  | .loadKey key, s => ((s.setInst (instanceOf key)).setStatus s.status.setSV).respond 0 0 0

/-- The result code an effect returns. -/
def Effect.code : Effect → BitVec 4
  | .raise e => e.code
  | _ => 0

/-- The data an effect returns. -/
def Effect.dout : Effect → Block
  | .answer dout _ => dout
  | _ => 0

/-- The number of bytes of data an effect returns. -/
def Effect.olen : Effect → Fin 9
  | .answer _ olen => olen
  | _ => 0

/-- The data register an effect writes, with what it then holds. -/
def Effect.written : Effect → Option (Reg × DataReg)
  | .write d len x => some (d, { storage := keepBytes len x, len := len })
  | _ => none

/-- STATUS after an effect. -/
def Effect.statusAfter : Effect → Status → Status
  | .raise e, st => st.recordError e
  | .clearError, st => st.clearError
  | .writeFlag b, st => st.setF b
  | .loadKey _, st => st.setSV
  | .answer _ _, st | .write _ _ _, st => st

/-- KEY, CD, RK and RKD after an effect. -/
def Effect.instAfter : Effect → CipherInstance → CipherInstance
  | .loadKey key, _ => instanceOf key
  | _, c => c

@[simp] theorem Effect.status_run (f : Effect) (s : State) : (f.run s).status = f.statusAfter s.status := by
  cases f <;> rfl

@[simp] theorem Effect.inst_run (f : Effect) (s : State) : (f.run s).inst = f.instAfter s.inst := by
  cases f <;> rfl

@[simp] theorem Effect.pending_run (f : Effect) (s : State) : (f.run s).pending = s.pending := by
  cases f <;> rfl

@[simp] theorem Effect.din_run (f : Effect) (s : State) : (f.run s).din = s.din := by
  cases f <;> rfl

@[simp] theorem Effect.resets_run (f : Effect) (s : State) : (f.run s).resets = s.resets := by
  cases f <;> rfl

theorem Effect.responses_run (f : Effect) (s : State) : (f.run s).responses = s.responses ++
    [{ code := f.code, status := (f.run s).status.word, dout := f.dout, olen := f.olen }] := by
  cases f <;> rfl

/-- The register an effect writes holds what it wrote. -/
theorem Effect.reg_run_of_written {f : Effect} {d : Reg} {r : DataReg} (h : f.written = some (d, r)) (s : State) :
    (f.run s).reg d = r := by
  cases f <;> simp_all [Effect.written, Effect.run]

/-- Every other register is unchanged. -/
theorem Effect.reg_run_of_ne {f : Effect} {q : Reg} (h : f.written.map Prod.fst ≠ some q) (s : State) :
    (f.run s).reg q = s.reg q := by
  cases f with
  | write d len x =>
    have hq : q ≠ d := fun e => h (by simp [Effect.written, e])
    simp [Effect.run, hq]
  | raise | answer | clearError | writeFlag | loadKey => rfl

/-! ## Which effects succeed -/

/-- Whether an effect is a success: every one but an error. -/
def Effect.succeeds : Effect → Bool
  | .raise _ => false
  | _ => true

theorem ErrorKind.code_ne_zero (e : ErrorKind) : e.code ≠ 0#4 := by cases e <;> decide

theorem ErrorKind.code_le_eight (e : ErrorKind) : e.code.toNat ≤ 8 := by cases e <;> decide

theorem Effect.code_eq_zero_iff (f : Effect) : f.code = 0#4 ↔ f.succeeds = true := by
  cases f with
  | raise e => simp [Effect.code, Effect.succeeds, e.code_ne_zero]
  | answer | write | clearError | writeFlag | loadKey => exact iff_of_true rfl rfl

theorem Effect.eq_raise_of_not_succeeds {f : Effect} (h : ¬f.succeeds = true) : ∃ e, f = .raise e := by
  cases f with
  | raise e => exact ⟨e, rfl⟩
  | answer | write | clearError | writeFlag | loadKey => exact absurd rfl h

/-- The response an effect returns, as the claims say it. -/
theorem Effect.returned_run (f : Effect) (s : State) : Returned f.code f.dout f.olen s (f.run s) :=
  f.responses_run s

theorem Effect.returned_run_iff (f : Effect) (s : State) (code : BitVec 4) (dout : Block) (olen : Fin 9) :
    Returned code dout olen s (f.run s) ↔ f.code = code ∧ f.dout = dout ∧ f.olen = olen := by
  simp [Returned, f.responses_run s]

@[simp] theorem Effect.succeeded_run_iff (f : Effect) (s : State) :
    Claims.Succeeded s (f.run s) ↔ f.succeeds = true := by
  simp [Claims.Succeeded, Effect.returned_run_iff, Effect.code_eq_zero_iff]

/-- An effect answers the same in every state. -/
theorem Effect.sameAnswer_run (f : Effect) (s s' : State) : Claims.SameAnswer s (f.run s) s' (f.run s') :=
  ⟨f.code, f.dout, f.olen, f.returned_run s, f.returned_run s'⟩

end Sys2Proof.Machine

namespace Sys2Proof

open Machine

/-! ## The effect of an instruction and of a command word -/

/-- What an instruction does in s once no check fails. -/
def Instr.action (s : State) : Instr → Effect
  | .nop => .answer 0 0
  | .ldv d n => .write d (Fin.ofNat 9 n.val) s.din
  | .stv a => .answer (keepBytes (s.reg a).len (s.storage a)) (s.reg a).len
  | .mov d a => .write d (s.reg a).len (s.storage a)
  | .clrerr => .clearError
  | .btst a pos => .writeFlag (s.bit a pos.val)
  | .bset d pos val => .write d (s.reg d).len (setBitAt (s.storage d) pos.val val)
  | .perm d a tbl => .write d (tableBytes tbl) (permuteStorage tbl (s.storage a))
  | .rot28 d k => .write d 7 (leftJustify (Machine.rot28 (s.value d 56) k.val))
  | .ldk _ => .loadKey s.din
  | .rkrd d dir idx => .write d 6 (leftJustify (roundKeyAt (scheduleFor dir s.inst) idx))
  | .xor d a b => .write d (s.reg a).len (s.storage a ^^^ s.storage b)
  | .sbox d a => .write d 4 (leftJustify (Machine.sbox (s.value a 48)))
  | .ffn d a b => .write d 4 (leftJustify (roundFunction (s.value a 32) (s.value b 48)))
  | .fround d a b => .write d 8 (leftJustify (feistelRound (s.value a 64) (s.value b 48)))
  | .swap d a => .write d 8 (leftJustify (swapHalves (s.value a 64)))
  | .enc d a => .write d 8 (leftJustify (cipher (s.value a 64) s.inst.rk))
  | .dec d a => .write d 8 (leftJustify (cipher (s.value a 64) s.inst.rkd))

/-- The first of a list of errors, or the effect where there is none. -/
def Machine.Effect.afterChecks (f : Effect) (errors : List ErrorKind) : Effect := (errors.head?.map Effect.raise).getD f

/-- The effect of an instruction in s: the first error in the order of the checks, or its action (60_exceptions.md
R305). -/
def Instr.effect (s : State) (i : Instr) : Effect := (i.action s).afterChecks (i.errorsInOrder s)

/-- The effect of a command word: an illegal one raises IllegalCommand (30_encoding.md R87). -/
def wordEffect (w : CmdWord) (s : State) : Effect :=
  match decode w with
  | .ok i => i.effect s
  | .error _ => .raise .illegalCommand

end Sys2Proof

namespace Sys2Proof.Machine

/-- PERM's bounds test is the one of R152 on every entry of its table. -/
theorem maxEntry_tableEntries_lt_iff (t : Table) (n : Nat) :
    maxEntry (tableEntries t) < 8 * n ↔ ∀ q ∈ tableEntries t, q < 8 * n := by
  rw [forall_tableEntries_lt_iff]
  omega

/-- LDV's byte count as the length it writes (40_host_transfer.md R121). -/
theorem execLdv_eq (d : Reg) (n : Fin 16) (s : State) : execLdv d n s =
    if n.val = 0 ∨ 8 < n.val then fail .illegalCommand s else done (s.writeReg d (Fin.ofNat 9 n.val) s.din) := by
  unfold execLdv
  split
  · next h =>
    have hn : Fin.ofNat 9 n.val = ⟨n.val, Nat.lt_succ_of_le h.2⟩ :=
      Fin.ext (Nat.mod_eq_of_lt (Nat.lt_succ_of_le h.2))
    rw [if_neg (by omega), hn]
  · rw [if_pos (by omega)]

/-- The two rotation amounts refused are those that are not 1 or 2 (43_rotator.md R174). -/
theorem rotateAmount_illegal_iff : ∀ k : Fin 4, k.val = 0 ∨ k.val = 3 ↔ ¬(k.val = 1 ∨ k.val = 2) := by decide

/-- An instruction carries out its effect: its arm of exec tests, one after the other, what `errorsInOrder` lists. So
both sides are put in one spelling and split at the tests, and each branch is one error or the action. -/
theorem exec_eq_run (i : Instr) (s : State) : exec i s = .next ((i.effect s).run s) := by
  cases i
  all_goals
    simp only [exec, execNop, execLdv_eq, execStv, execMov, execClrerr, execBtst, execBset, execPerm, execRot28,
      execLdk, execRkrd, execXor, execSbox, execFfn, execFround, execSwap, execEnc, execDec, State.isEmpty_iff,
      Instr.effect, Instr.errorsInOrder, Instr.fieldError, Instr.indexErrors, rotateAmount_illegal_iff,
      ← maxEntry_tableEntries_lt_iff]
  all_goals split_ifs
  all_goals
    simp_all [not_lt_of_ge, Instr.reads, Instr.readsSchedule, Instr.lengthErrors, Instr.action, List.filter_cons,
      fail, done, doneWith, Effect.run, Effect.afterChecks, State.bit]

end Sys2Proof.Machine
end

section
/-! What an instruction reads decides its effect, and which instruction each effect comes from. -/

namespace Sys2Proof.Machine

/-! ## The effect and the checks -/

theorem Effect.eq_of_succeeds_afterChecks {f : Effect} {errors : List ErrorKind}
    (h : (f.afterChecks errors).succeeds = true) : errors = [] ∧ f.afterChecks errors = f := by
  cases errors with
  | nil => exact ⟨rfl, rfl⟩
  | cons e es => cases h

/-- A command that succeeds passed every check and carries out its action. -/
theorem effect_of_succeeds {i : Instr} {s : State} (h : (i.effect s).succeeds = true) :
    i.errorsInOrder s = [] ∧ i.effect s = i.action s :=
  Effect.eq_of_succeeds_afterChecks h

theorem effect_of_errors {i : Instr} {s : State} {e : ErrorKind} {es : List ErrorKind}
    (h : i.errorsInOrder s = e :: es) : i.effect s = .raise e := by
  simp [Instr.effect, Effect.afterChecks, h]

theorem effect_of_no_errors {i : Instr} {s : State} (h : i.errorsInOrder s = []) : i.effect s = i.action s := by
  simp [Instr.effect, Effect.afterChecks, h]

theorem fieldError_of_no_errors {i : Instr} {s : State} (h : i.errorsInOrder s = []) : i.fieldError = none := by
  cases hf : i.fieldError with
  | none => rfl
  | some e => simp [Instr.errorsInOrder, hf] at h

/-- A command that reads a schedule passes its checks only while SV = 1 (10_state.md R32). -/
theorem sv_of_no_errors {i : Instr} {s : State} (h : i.errorsInOrder s = []) (hi : i.readsSchedule = true) :
    s.status.sv = true := by
  by_contra hsv
  simp [Instr.errorsInOrder, hi, hsv] at h

/-- Without a schedule NoSchedule is the first check that fails, if no operand is empty (60_exceptions.md R305). -/
theorem errorsInOrder_of_no_schedule {i : Instr} {s : State} (hi : i.readsSchedule = true)
    (hsv : s.status.sv = false) (hlen : ∀ r ∈ i.reads, s.lenOf r ≠ 0) :
    i.errorsInOrder s = .noSchedule :: (i.lengthErrors s ++ i.indexErrors s) := by
  have hfield : i.fieldError = none := by
    cases i with
    | rkrd | enc | dec => rfl
    | _ => cases hi
  have hempty : i.reads.filter (fun r => decide (s.lenOf r = 0)) = [] :=
    List.filter_eq_nil_iff.mpr fun r hr => by simp [hlen r hr]
  simp [Instr.errorsInOrder, hfield, hempty, hi, hsv]

/-! ## What an instruction reads -/

/-- t holds what instruction i reads just as s does: its data registers, and as far as it reads them SV, the schedules
while SV = 1, and din (10_state.md R24, 20_memory.md R55). -/
structure ReadsSame (i : Instr) (s t : State) : Prop where
  regs : ∀ r ∈ i.reads, t.reg r = s.reg r
  sv : i.readsSchedule = true → t.status.sv = s.status.sv
  schedules : i.readsSchedule = true → s.status.sv = true → t.inst.rk = s.inst.rk ∧ t.inst.rkd = s.inst.rkd
  din : i.readsDin = true → t.din = s.din

theorem ReadsSame.lenOf {i : Instr} {s t : State} (h : ReadsSame i s t) : ∀ r ∈ i.reads, t.lenOf r = s.lenOf r := by
  intro r hr
  rw [State.lenOf, h.regs r hr, State.lenOf]

/-- The checks look at nothing but the lengths of the registers read, and at SV for the commands that read a
schedule. -/
theorem errorsInOrder_congr {i : Instr} {s t : State} (h : ReadsSame i s t) :
    i.errorsInOrder t = i.errorsInOrder s := by
  have hlen := h.lenOf
  have hempty : i.reads.filter (fun r => decide (t.lenOf r = 0)) = i.reads.filter (fun r => decide (s.lenOf r = 0)) :=
    List.filter_congr fun r hr => by rw [hlen r hr]
  have hsched : (i.readsSchedule && !t.status.sv) = (i.readsSchedule && !s.status.sv) := by
    cases hi : i.readsSchedule with
    | false => rfl
    | true => rw [h.sv hi]
  have hlength : i.lengthErrors t = i.lengthErrors s := by
    cases i <;> simp_all [Instr.reads, Instr.lengthErrors]
  have hindex : i.indexErrors t = i.indexErrors s := by
    cases i <;> simp_all [Instr.reads, Instr.indexErrors]
  simp only [Instr.errorsInOrder, hempty, hsched, hlength, hindex]

theorem action_congr {i : Instr} {s t : State} (h : ReadsSame i s t)
    (hsv : i.readsSchedule = true → s.status.sv = true) : i.action t = i.action s := by
  obtain ⟨hregs, -, hsched, hdin⟩ := h
  cases i with
  | rkrd d dir idx => cases dir <;> simp_all [Instr.action, Instr.readsSchedule, scheduleFor]
  | _ =>
    simp_all [Instr.action, Instr.reads, Instr.readsSchedule, Instr.readsDin, State.bit, State.value, State.storage]

/-- The effect of an instruction depends on nothing but what it reads. -/
theorem effect_congr {i : Instr} {s t : State} (h : ReadsSame i s t) : i.effect t = i.effect s := by
  have herr := errorsInOrder_congr h
  cases hs : i.errorsInOrder s with
  | nil => rw [effect_of_no_errors hs, effect_of_no_errors (herr.trans hs), action_congr h (sv_of_no_errors hs)]
  | cons e es => rw [effect_of_errors hs, effect_of_errors (herr.trans hs)]

theorem exec_eq_run_of_readsSame {i : Instr} {s t : State} (h : ReadsSame i s t) :
    exec i t = .next ((i.effect s).run t) := by
  rw [exec_eq_run, effect_congr h]

theorem readsSame_setReg {i : Instr} {r : Reg} (hr : r ∉ i.reads) (s : State) (v : DataReg) :
    ReadsSame i s (s.setReg r v) where
  regs q hq := by
    have hne : q ≠ r := fun e => hr (e ▸ hq)
    simp [hne]
  sv _ := rfl
  schedules _ _ := ⟨rfl, rfl⟩
  din _ := rfl

theorem readsSame_setInst {i : Instr} (hi : i.readsSchedule = false) (s : State) (c : CipherInstance) :
    ReadsSame i s (s.setInst c) where
  regs _ _ := rfl
  sv _ := rfl
  schedules h := absurd h (by simp [hi])
  din _ := rfl

theorem readsSame_accept {i : Instr} (hi : i.readsDin = false) (s : State) (v : Block) (rest : List HostMove) :
    ReadsSame i s (s.accept v rest) where
  regs _ _ := rfl
  sv _ := rfl
  schedules _ _ := ⟨rfl, rfl⟩
  din h := absurd h (by simp [hi])

/-- No command reads STATUS but for SV (10_state.md R33). -/
theorem readsSame_setStatus (i : Instr) (s : State) {st : Status} (hsv : st.sv = s.status.sv) :
    ReadsSame i s (s.setStatus st) where
  regs _ _ := rfl
  sv _ := hsv
  schedules _ _ := ⟨rfl, rfl⟩
  din _ := rfl

/-! ## What an instruction writes -/

/-- The table's writes column is what the action writes, once the checks are passed (10_state.md R24). -/
theorem writes_eq_of_no_errors {i : Instr} {s : State} (h : i.errorsInOrder s = []) :
    i.writes s = (i.action s).written.map fun p => (p.1, p.2.len.val) := by
  cases i with
  | ldv d n =>
    have hn : n ≠ 0 ∧ n.val ≤ 8 := by simpa [Instr.fieldError] using fieldError_of_no_errors h
    simp [Instr.writes, Instr.action, Effect.written, Nat.mod_eq_of_lt (Nat.lt_succ_of_le hn.2)]
  | perm d a tbl => cases tbl <;> rfl
  | _ => rfl

/-- A data register is written exactly by a success whose writes column names it. -/
theorem written_fst_eq_some_iff {i : Instr} {s : State} {r : Reg} :
    (i.effect s).written.map Prod.fst = some r ↔
      (i.effect s).succeeds = true ∧ (i.writes s).map Prod.fst = some r := by
  by_cases h : (i.effect s).succeeds = true
  · obtain ⟨hnil, heff⟩ := effect_of_succeeds h
    rw [and_iff_right h, writes_eq_of_no_errors hnil, Option.map_map, ← heff]
    rfl
  · obtain ⟨e, he⟩ := Effect.eq_raise_of_not_succeeds h
    simp [he, Effect.written, Effect.succeeds]

/-! ## The effect of a command word -/

/-- A command word carries out its effect. -/
theorem runWord_eq_run (w : CmdWord) (s : State) : runWord w s = .next ((wordEffect w s).run s) := by
  unfold runWord wordEffect
  cases decode w with
  | ok i => exact exec_eq_run i s
  | error e => rfl

theorem wordEffect_of_decode {w : CmdWord} {i : Instr} (h : decode w = .ok i) (s : State) :
    wordEffect w s = i.effect s := by
  simp [wordEffect, h]

theorem wordEffect_congr {w : CmdWord} {s t : State} (h : ∀ i, decode w = .ok i → ReadsSame i s t) :
    wordEffect w t = wordEffect w s := by
  unfold wordEffect
  cases hw : decode w with
  | ok i => exact effect_congr (h i hw)
  | error e => rfl

/-- A command word that succeeds is legal, passed every check and carries out its action. -/
theorem wordEffect_of_succeeds {w : CmdWord} {s : State} (h : (wordEffect w s).succeeds = true) :
    ∃ i, decode w = .ok i ∧ i.errorsInOrder s = [] ∧ wordEffect w s = i.action s := by
  cases hw : decode w with
  | ok i =>
    rw [wordEffect_of_decode hw] at h ⊢
    exact ⟨i, rfl, effect_of_succeeds h⟩
  | error e => simp [wordEffect, hw, Effect.succeeds] at h

/-- CLRERR is the one command that clears ERR and ECODE (10_state.md R31). -/
theorem wordEffect_eq_clearError_iff {w : CmdWord} {s : State} :
    wordEffect w s = .clearError ↔ decode w = .ok .clrerr := by
  constructor
  · intro h
    obtain ⟨i, hi, -, ha⟩ := wordEffect_of_succeeds (w := w) (s := s) (by rw [h]; rfl)
    cases i <;> simp_all [Instr.action]
  · intro h
    rw [wordEffect_of_decode h]
    rfl

/-- LDK with N = 8 is the one command that loads a key, and the key is din (44_key_schedule.md R195). -/
theorem wordEffect_eq_loadKey_iff {w : CmdWord} {s : State} {key : Block} :
    wordEffect w s = .loadKey key ↔ decode w = .ok (.ldk 8) ∧ s.din = key := by
  constructor
  · intro h
    obtain ⟨i, hi, hnil, ha⟩ := wordEffect_of_succeeds (w := w) (s := s) (by rw [h]; rfl)
    rw [h] at ha
    cases i with
    | ldk n =>
      have hn : n.val = 8 := by
        by_contra hne
        simpa [Instr.fieldError, hne] using fieldError_of_no_errors hnil
      have hn8 : n = 8 := Fin.ext hn
      subst hn8
      exact ⟨hi, (Effect.loadKey.inj ha).symm⟩
    | _ => cases ha
  · rintro ⟨h, rfl⟩
    rw [wordEffect_of_decode h]
    rfl

/-- BTST is the one command that writes F (10_state.md R33). -/
theorem btst_of_action_eq_writeFlag {i : Instr} {s : State} {b : Bool} (h : i.action s = .writeFlag b) :
    ∃ a pos, i = .btst a pos := by
  cases i with
  | btst a pos => exact ⟨a, pos, rfl⟩
  | _ => cases h

/-- A command that returns data is STV, or NOP with none. -/
theorem nop_or_stv_of_wordEffect_eq_answer {w : CmdWord} {s : State} {dout : Block} {olen : Fin 9}
    (h : wordEffect w s = .answer dout olen) : (dout = 0 ∧ olen = 0) ∨ ∃ a, decode w = .ok (.stv a) := by
  obtain ⟨i, hi, -, ha⟩ := wordEffect_of_succeeds (w := w) (s := s) (by rw [h]; rfl)
  rw [h] at ha
  cases i with
  | nop => exact .inl (Effect.answer.inj ha)
  | stv a => exact .inr ⟨a, hi⟩
  | _ => cases ha

theorem effect_stv {s : State} {a : Reg} (h : s.lenOf a ≠ 0) :
    (Instr.stv a).effect s = .answer (keepBytes (s.reg a).len (s.storage a)) (s.reg a).len := by
  apply effect_of_no_errors
  simp [Instr.errorsInOrder, Instr.fieldError, Instr.reads, Instr.readsSchedule, Instr.lengthErrors,
    Instr.indexErrors, h]

/-! ## Steps -/

theorem step_of_idle {s : State} (h : s.pending = []) : step s = .next s := by
  simp [step, h]

theorem step_of_command {s : State} {w : CmdWord} {din : Block} {rest : List HostMove}
    (h : s.pending = .command w din :: rest) :
    step s = .next ((wordEffect w (s.accept din rest)).run (s.accept din rest)) := by
  simp [step, h, runWord_eq_run]

theorem step_of_reset {s : State} {o : Option (CmdWord × Block)} {rest : List HostMove}
    (h : s.pending = .reset o :: rest) : step s = .next (s.resetBy o rest) := by
  simp [step, h]

/-- What taking a command, every effect and a reset keep, every step keeps. -/
theorem step_keeps {P : State → Prop} (accept : ∀ s din rest, P s → P (s.accept din rest))
    (run : ∀ (f : Effect) s, P s → P (f.run s)) (reset : ∀ s o rest, P s → P (s.resetBy o rest))
    {s t : State} (hs : P s) (h : step s = .next t) : P t := by
  rcases hp : s.pending with _ | ⟨⟨w, din⟩ | o, rest⟩
  · cases (step_of_idle hp).symm.trans h
    exact hs
  · cases (step_of_command hp).symm.trans h
    exact run _ _ (accept _ _ _ hs)
  · cases (step_of_reset hp).symm.trans h
    exact reset _ _ _ hs

end Sys2Proof.Machine
end

section
/-! The statements on the state, from what each of the six effects does: the machine's invariant, STATUS and its
fields, the schedules, the response, the registers, and what the host can observe. -/

namespace Sys2Proof.Machine

/-! ## STATUS -/

/-- ECODE stays 0 exactly when ERR is 0: an error's code is not 0 (60_exceptions.md R300). -/
theorem Effect.errorCodeMatches_run (f : Effect) {s : State} (h : s.ErrorCodeMatches) :
    (f.run s).ErrorCodeMatches := by
  unfold State.ErrorCodeMatches at *
  rw [Effect.status_run]
  cases f with
  | raise e => cases he : s.status.err <;> simp_all [Effect.statusAfter, Status.recordError, e.code_ne_zero]
  | clearError => exact iff_of_true rfl rfl
  | answer | write | writeFlag | loadKey => exact h

theorem Effect.ecode_statusAfter_le (f : Effect) {st : Status} (h : st.ecode.toNat ≤ 8) :
    (f.statusAfter st).ecode.toNat ≤ 8 := by
  cases f with
  | raise e =>
    simp only [Effect.statusAfter, Status.recordError]
    split
    · exact h
    · exact e.code_le_eight
  | clearError => exact Nat.zero_le 8
  | answer | write | writeFlag | loadKey => exact h

/-- An effect that succeeds changes ERR and ECODE only if it clears them. -/
theorem Effect.errorFields_statusAfter {f : Effect} (hs : f.succeeds = true) (hf : f ≠ .clearError) (st : Status) :
    (f.statusAfter st).err = st.err ∧ (f.statusAfter st).ecode = st.ecode := by
  cases f with
  | raise e => cases hs
  | clearError => exact absurd rfl hf
  | answer | write | writeFlag | loadKey => exact ⟨rfl, rfl⟩

/-- Only loading a key sets SV, and no effect clears it (10_state.md R32). -/
theorem Effect.sv_statusAfter_iff (f : Effect) (st : Status) :
    (f.statusAfter st).sv = true ↔ st.sv = true ∨ ∃ key, f = .loadKey key := by
  cases f with
  | loadKey key => exact iff_of_true rfl (.inr ⟨key, rfl⟩)
  | raise | answer | write | clearError | writeFlag =>
    simp [Effect.statusAfter, Status.recordError, Status.clearError, Status.setF]

theorem Effect.eq_writeFlag_of_f_ne {f : Effect} {st : Status} (h : (f.statusAfter st).f ≠ st.f) :
    ∃ b, f = .writeFlag b := by
  cases f with
  | writeFlag b => exact ⟨b, rfl⟩
  | raise | answer | write | clearError | loadKey => exact absurd rfl h

/-- No other field of STATUS depends on F. -/
theorem Effect.statusAfter_of_f (f : Effect) (st : Status) (b : Bool) :
    (f.statusAfter { st with f := b }).err = (f.statusAfter st).err ∧
      (f.statusAfter { st with f := b }).ecode = (f.statusAfter st).ecode ∧
      (f.statusAfter { st with f := b }).sv = (f.statusAfter st).sv := by
  cases f <;> exact ⟨rfl, rfl, rfl⟩

/-- STATUS bit by bit: its fields from bit 0 up (10_state.md R30). -/
theorem Status.getLsbD_word (st : Status) (i : Nat) : st.word.getLsbD i =
    if i < 1 then decide (i = 0) && st.err else if i - 1 < 4 then st.ecode.getLsbD (i - 1)
    else if i - 5 < 1 then decide (i - 5 = 0) && st.sv
    else if i - 6 < 1 then decide (i - 6 = 0) && st.f else false := by
  simp only [Status.word, BitVec.getLsbD_append, BitVec.getLsbD_ofBool, BitVec.getLsbD_zero, Nat.sub_sub]

theorem Status.getLsbD_word_ecode (st : Status) {k : Nat} (hk : k < 4) :
    st.word.getLsbD (1 + k) = st.ecode.getLsbD k := by
  rw [Status.getLsbD_word, if_neg (by omega), if_pos (by omega), Nat.add_sub_cancel_left]

/-! ## Registers, the cipher data, and the invariant -/

/-- A register after an effect depends on what it held before alone. -/
theorem Effect.reg_run_congr (f : Effect) {s t : State} {q : Reg} (h : t.reg q = s.reg q) :
    (f.run t).reg q = (f.run s).reg q := by
  by_cases hw : f.written.map Prod.fst = some q
  · obtain ⟨⟨d, r⟩, hd, rfl⟩ := Option.map_eq_some_iff.mp hw
    rw [Effect.reg_run_of_written hd, Effect.reg_run_of_written hd]
  · rw [Effect.reg_run_of_ne hw, Effect.reg_run_of_ne hw, h]

theorem Effect.canonicalReg_run (f : Effect) {s : State} {q : Reg} (h : CanonicalReg (s.reg q)) :
    CanonicalReg ((f.run s).reg q) := by
  cases f with
  | write d len x =>
    simp only [Effect.run, State.reg_respond, State.reg_writeReg]
    split
    · exact canonicalReg_keepBytes len x
    · exact h
  | raise | answer | clearError | writeFlag | loadKey => exact h

theorem canonicalReg_empty : CanonicalReg DataReg.empty := fun _ _ _ => BitVec.getMsbD_zero

/-- While SV = 1 the cipher data stay those of one key: a load brings the whole set. -/
theorem Effect.instanceOf_run (f : Effect) {s : State} (h : s.status.sv = true → s.inst = instanceOf s.inst.key) :
    (f.run s).status.sv = true → (f.run s).inst = instanceOf (f.run s).inst.key := by
  cases f with
  | loadKey key => exact fun _ => rfl
  | raise | answer | write | clearError | writeFlag => exact h

theorem Effect.inv_run (f : Effect) {s : State} (h : s.Inv) : (f.run s).Inv where
  canonical r := f.canonicalReg_run (h.canonical r)
  errorCode := f.errorCodeMatches_run h.errorCode
  codeRange := by
    rw [Effect.status_run]
    exact f.ecode_statusAfter_le h.codeRange
  schedules := f.instanceOf_run h.schedules

theorem inv_accept {s : State} (h : s.Inv) (din : Block) (rest : List HostMove) : (s.accept din rest).Inv :=
  ⟨h.canonical, h.errorCode, h.codeRange, h.schedules⟩

/-- A reset gives the invariant whatever the state was: SV is 0, so it says nothing of the cipher data. -/
theorem inv_resetBy (s : State) (o : Option (CmdWord × Block)) (rest : List HostMove) : (s.resetBy o rest).Inv where
  canonical r := by
    rw [State.reg_resetBy]
    exact canonicalReg_empty
  errorCode := iff_of_true rfl rfl
  codeRange := Nat.zero_le 8
  schedules h := by cases h

theorem Effect.schedulesReversed_run (f : Effect) {s : State} (h : s.SchedulesReversed) :
    (f.run s).SchedulesReversed := by
  cases f with
  | loadKey key => exact fun _ r => roundKeyAt_reverseSchedule (scheduleOf key) r
  | raise | answer | write | clearError | writeFlag => exact h

theorem Effect.eq_loadKey_of_schedule_ne {f : Effect} {s : State}
    (h : (f.run s).inst.rk ≠ s.inst.rk ∨ (f.run s).inst.rkd ≠ s.inst.rkd) : ∃ key, f = .loadKey key := by
  cases f with
  | loadKey key => exact ⟨key, rfl⟩
  | raise | answer | write | clearError | writeFlag => exact absurd h (by simp [Effect.instAfter])

/-! ## What the host can observe -/

/-- States the host cannot tell apart hold the same of everything a command reads. -/
theorem ObsEq.readsSame {s t : State} (h : ObsEq s t) (i : Instr) : ReadsSame i s t := by
  obtain ⟨hregs, hstatus, -, hdin, -, -, hsched⟩ := h
  exact ⟨fun r _ => State.regs_ext.mp hregs r, fun _ => by rw [hstatus], fun _ => hsched, fun _ => hdin⟩

/-- The same effect on two such states leaves two such states. -/
theorem ObsEq.run {s t : State} (h : ObsEq s t) (f : Effect) : ObsEq (f.run s) (f.run t) := by
  obtain ⟨hregs, hstatus, hpending, hdin, hresp, hresets, hsched⟩ := h
  have hst : (f.run t).status = (f.run s).status := by simp [hstatus]
  refine ⟨State.regs_ext.mpr fun q => f.reg_run_congr (State.regs_ext.mp hregs q), hst, by simp [hpending],
    by simp [hdin], ?_, by simp [hresets], ?_⟩
  · rw [f.responses_run s, f.responses_run t, hst, hresp]
  · cases f with
    | loadKey key => exact fun _ => ⟨rfl, rfl⟩
    | raise | answer | write | clearError | writeFlag => exact hsched

theorem ObsEq.accept {s t : State} (h : ObsEq s t) (din : Block) (rest : List HostMove) :
    ObsEq (s.accept din rest) (t.accept din rest) := by
  obtain ⟨hregs, hstatus, -, -, hresp, hresets, hsched⟩ := h
  exact ⟨hregs, hstatus, rfl, rfl, hresp, hresets, hsched⟩

/-- A reset leaves SV 0, so the free cipher data after it stay hidden. -/
theorem ObsEq.resetBy {s t : State} (h : ObsEq s t) (o : Option (CmdWord × Block)) (rest : List HostMove) :
    ObsEq (s.resetBy o rest) (t.resetBy o rest) := by
  obtain ⟨-, -, -, hdin, hresp, hresets, -⟩ := h
  exact ⟨rfl, rfl, rfl, hdin, hresp, congrArg (· + 1) hresets, fun hsv => by cases hsv⟩

theorem ObsEq.pending {s t : State} (h : ObsEq s t) : t.pending = s.pending := by
  obtain ⟨-, -, hpending, -⟩ := h
  exact hpending

theorem ObsEq.step {s t : State} (h : ObsEq s t) :
    ∃ s' t', Machine.step s = .next s' ∧ Machine.step t = .next t' ∧ ObsEq s' t' := by
  rcases hp : s.pending with _ | ⟨⟨w, din⟩ | o, rest⟩
  · exact ⟨s, t, step_of_idle hp, step_of_idle (h.pending.trans hp), h⟩
  · have hacc := h.accept din rest
    refine ⟨_, _, step_of_command hp, step_of_command (h.pending.trans hp), ?_⟩
    rw [wordEffect_congr fun i _ => hacc.readsSame i]
    exact hacc.run _
  · exact ⟨_, _, step_of_reset hp, step_of_reset (h.pending.trans hp), h.resetBy o rest⟩

end Sys2Proof.Machine

namespace Sys2Proof

open Machine Claims

/-! ## The obligations -/

/-- Settles O13: taking a command, each of the six effects and a reset keep the invariant. -/
theorem stepKeepsTheInvariant : Obligations.StepKeepsTheInvariant := fun _ _ hs =>
  step_keeps (P := State.Inv) (fun _ din rest h => inv_accept h din rest) (fun f _ h => f.inv_run h)
    (fun s o rest _ => inv_resetBy s o rest) hs

/-- Settles O23, by induction on the number of steps: states the host cannot tell apart take the same effect. -/
theorem hiddenStateNeverReachesTheHost : Obligations.HiddenStateNeverReachesTheHost := by
  intro n
  induction n with
  | zero => exact fun s t h => ⟨s, t, rfl, rfl, h⟩
  | succ n ih =>
    intro s t h
    obtain ⟨s₁, t₁, hs, ht, h₁⟩ := h.step
    obtain ⟨s', t', hs', ht', h'⟩ := ih s₁ t₁ h₁
    refine ⟨s', t', ?_, ?_, h'⟩
    · simpa [Host.Core.run, core, hs] using hs'
    · simpa [Host.Core.run, core, ht] using ht'

/-- Settles O11: the response is the one of the word's effect. -/
theorem everyCommandReturnsExactlyOneResponse : Obligations.EveryCommandReturnsExactlyOneResponse := by
  intro s w din rest hp
  set a := s.accept din rest with ha
  set f := wordEffect w a
  refine ⟨f.run a, _, step_of_command hp, by simp [ha], f.responses_run a, rfl, ?_, ?_, ?_⟩
  · by_cases h : f.succeeds = true
    · exact .inl (f.code_eq_zero_iff.mpr h)
    · obtain ⟨e, he⟩ := Effect.eq_raise_of_not_succeeds h
      rw [he]
      exact .inr ⟨e, rfl, raised_raise a e⟩
  · intro r hr hlen
    have hstv : f = .answer (keepBytes (s.reg r).len (s.storage r)) (s.reg r).len :=
      (wordEffect_of_decode hr a).trans (effect_stv hlen)
    rw [hstv]
    exact ⟨rfl, rfl, fun p _ => getMsbD_keepBytes _ _ p⟩
  · intro h
    cases hc : f with
    | answer dout olen =>
      rcases nop_or_stv_of_wordEffect_eq_answer hc with hzero | ⟨r, hr⟩
      · exact hzero
      · rcases h with h | h
        · exact absurd hr (h r)
        · exact absurd (by rw [hc]; rfl) h
    | raise | write | clearError | writeFlag | loadKey => exact ⟨rfl, rfl⟩

/-- Settles O15: only a load writes the schedules, and it writes all of both. -/
theorem schedulesStayReversedAndOnlyLdkWritesThem : Obligations.SchedulesStayReversedAndOnlyLdkWritesThem := by
  refine ⟨fun s t hs => step_keeps (P := State.SchedulesReversed) (fun _ _ _ h => h)
    (fun f _ h => f.schedulesReversed_run h) (fun _ _ _ _ hsv => by cases hsv) hs, ?_, ?_⟩
  · intro w s t ht hne
    cases (runWord_eq_run w s).symm.trans ht
    obtain ⟨key, hkey⟩ := Effect.eq_loadKey_of_schedule_ne hne
    refine ⟨(wordEffect_eq_loadKey_iff.mp hkey).1, ?_⟩
    rw [Effect.succeeded_run_iff, hkey]
    rfl
  · intro w s t ht hldk r
    cases (runWord_eq_run w s).symm.trans ht
    rw [wordEffect_eq_loadKey_iff.mpr ⟨hldk, rfl⟩]
    simp [Effect.instAfter, instanceOf, Fin.val_rev]

/-- Settles O17, from what each effect does to STATUS. -/
theorem errorFieldsChangeOnlyByFaultsAndClrerr : Obligations.ErrorFieldsChangeOnlyByFaultsAndClrerr := by
  intro w s
  refine ⟨_, runWord_eq_run w s, ?_, (wordEffect w s).errorCodeMatches_run⟩
  by_cases h : (wordEffect w s).succeeds = true
  · refine .inr ⟨((wordEffect w s).succeeded_run_iff s).mpr h, ?_⟩
    rw [Effect.status_run]
    split
    · next hclr =>
      rw [wordEffect_eq_clearError_iff.mpr hclr]
      exact ⟨rfl, rfl⟩
    · next hclr => exact Effect.errorFields_statusAfter h (mt wordEffect_eq_clearError_iff.mp hclr) s.status
  · obtain ⟨e, he⟩ := Effect.eq_raise_of_not_succeeds h
    rw [he]
    exact .inl ⟨e, raised_raise s e⟩

/-- Settles O16, bit by bit from the fields put together in `Status.word`. -/
theorem statusWordHasTheStatedLayout : Obligations.StatusWordHasTheStatedLayout := by
  intro st
  refine ⟨?_, fun k hk => st.getLsbD_word_ecode hk, ?_, ?_, ?_⟩ <;>
    (rw [Status.getLsbD_word]; rfl)

/-- Settles O18: the effect of a word does not depend on F, and only BTST's writes it. -/
theorem bitTestFlagIsWrittenOnlyByBtst : Obligations.BitTestFlagIsWrittenOnlyByBtst := by
  intro w s
  refine ⟨_, runWord_eq_run w s, ?_, ?_, ?_, ?_⟩
  · intro a pos hw hs
    rw [Effect.succeeded_run_iff, wordEffect_of_decode hw] at hs
    rw [Effect.status_run, wordEffect_of_decode hw, (effect_of_succeeds hs).2]
    rfl
  · intro hne
    rw [Effect.status_run] at hne
    obtain ⟨b, hb⟩ := Effect.eq_writeFlag_of_f_ne hne
    have hs : (wordEffect w s).succeeds = true := by rw [hb]; rfl
    obtain ⟨i, hw, -, hact⟩ := wordEffect_of_succeeds hs
    obtain ⟨a, pos, rfl⟩ := btst_of_action_eq_writeFlag (hact.symm.trans hb)
    exact ⟨a, pos, hw, (Effect.succeeded_run_iff _ s).mpr hs⟩
  · intro resp hresp
    obtain rfl := List.singleton_inj.mp (List.append_cancel_left ((Effect.responses_run _ s).symm.trans hresp))
    exact (Status.getLsbD_word _ 6).trans rfl
  · intro b
    have heff : wordEffect w (s.setStatus { s.status with f := b }) = wordEffect w s :=
      wordEffect_congr fun i _ => readsSame_setStatus i s rfl
    obtain ⟨herr, hecode, hsv⟩ := (wordEffect w s).statusAfter_of_f s.status b
    refine ⟨_, runWord_eq_run w _, ?_⟩
    rw [heff]
    exact ⟨fun _ => Effect.reg_run_congr _ rfl, by simp, by simpa using herr, by simpa using hecode,
      by simpa using hsv, Effect.sameAnswer_run _ _ _⟩

/-- Settles O19: SV changes by a load and by a reset alone, and NoSchedule is the first check that fails. -/
theorem scheduleValidFlagGuardsTheSchedules : Obligations.ScheduleValidFlagGuardsTheSchedules := by
  refine ⟨rfl, ?_, ?_, ?_⟩
  · intro w s t ht
    cases (runWord_eq_run w s).symm.trans ht
    rw [Effect.status_run, Effect.sv_statusAfter_iff, Effect.succeeded_run_iff]
    refine or_congr_right ⟨?_, ?_⟩
    · rintro ⟨key, hkey⟩
      exact ⟨(wordEffect_eq_loadKey_iff.mp hkey).1, by rw [hkey]; rfl⟩
    · rintro ⟨hldk, -⟩
      exact ⟨s.din, wordEffect_eq_loadKey_iff.mpr ⟨hldk, rfl⟩⟩
  · intro s t o rest hp ht
    cases (step_of_reset hp).symm.trans ht
    rfl
  · intro i s hi hsv hlen
    refine ⟨_, exec_eq_run i s, ?_⟩
    rw [effect_of_errors (errorsInOrder_of_no_schedule hi hsv hlen)]
    exact raised_raise s _

/-- Settles O20, from what the effect writes and from what it depends on. -/
theorem registerReadersAndWriters : Obligations.RegisterReadersAndWriters := by
  intro i s
  have hwrites := fun r : Reg => written_fst_eq_some_iff (i := i) (s := s) (r := r)
  refine ⟨_, exec_eq_run i s, ?_, ?_, ?_, ?_, ?_, ?_⟩
  · intro hfail r
    rw [Effect.succeeded_run_iff] at hfail
    exact Effect.reg_run_of_ne (fun h => hfail ((hwrites r).mp h).1) s
  · intro hs
    rw [Effect.succeeded_run_iff] at hs
    refine ⟨fun r hr => Effect.reg_run_of_ne (fun h => hr ((hwrites r).mp h).2) s, ?_⟩
    intro d n hd
    obtain ⟨hnil, heff⟩ := effect_of_succeeds hs
    rw [writes_eq_of_no_errors hnil, ← heff] at hd
    obtain ⟨⟨q, v⟩, hv, hqv⟩ := Option.map_eq_some_iff.mp hd
    cases hqv
    rw [State.lenOf, Effect.reg_run_of_written hv]
  · intro hne
    rw [Effect.status_run] at hne
    obtain ⟨b, hb⟩ := Effect.eq_writeFlag_of_f_ne hne
    have hact := (effect_of_succeeds (i := i) (s := s) (by rw [hb]; rfl)).2
    exact btst_of_action_eq_writeFlag (hact.symm.trans hb)
  · intro r v hr
    refine ⟨_, exec_eq_run_of_readsSame (readsSame_setReg hr s v), Effect.sameAnswer_run _ _ _, by simp, by simp,
      ?_, ?_, ?_⟩
    · intro q hq
      exact Effect.reg_run_congr _ (by simp [hq])
    · rintro ⟨hs, hr⟩
      rw [Effect.succeeded_run_iff] at hs
      obtain ⟨⟨d, x⟩, hd, rfl⟩ := Option.map_eq_some_iff.mp ((hwrites r).mpr ⟨hs, hr⟩)
      rw [Effect.reg_run_of_written hd, Effect.reg_run_of_written hd]
    · intro hn
      rw [Effect.succeeded_run_iff, ← hwrites r] at hn
      rw [Effect.reg_run_of_ne hn]
      simp
  · intro hi c
    exact ⟨_, exec_eq_run_of_readsSame (readsSame_setInst hi s c), Effect.sameAnswer_run _ _ _,
      fun _ => Effect.reg_run_congr _ rfl, by simp⟩
  · intro hi v
    exact ⟨_, exec_eq_run_of_readsSame (readsSame_accept hi s v s.pending), Effect.sameAnswer_run _ _ _,
      fun _ => Effect.reg_run_congr _ rfl, by simp, by simp⟩

end Sys2Proof
end

section
/-! The host's moves one after another, what reads the data-in bus, and streams that share one key
(20_memory.md R53, R55, R57, R63). -/

namespace Sys2Proof.Machine

/-! ## Moves in order (R57) -/

/-- What an effect does is independent of the bus and of the moves still to come. -/
theorem Effect.run_accept (f : Effect) (s : State) (din : Block) (rest : List HostMove) :
    f.run (s.accept din rest) = (f.run s).accept din rest := by
  cases f <;> rfl

/-- No command sees the moves after it. -/
theorem wordEffect_accept_rest (w : CmdWord) (s : State) (din : Block) (rest rest' : List HostMove) :
    wordEffect w (s.accept din rest) = wordEffect w (s.accept din rest') :=
  wordEffect_congr fun _ _ => ⟨fun _ _ => rfl, fun _ => rfl, fun _ _ => ⟨rfl, rfl⟩, fun _ => rfl⟩

theorem afterMove_command (s : State) (w : CmdWord) (din : Block) : afterMove s (.command w din) =
    (wordEffect w (s.accept din s.pending)).run (s.accept din s.pending) := by
  rw [afterMove, step_of_command rfl]
  rfl

theorem afterMove_reset (s : State) (o : Option (CmdWord × Block)) :
    afterMove s (.reset o) = s.resetBy o s.pending := rfl

@[simp] theorem pending_afterMove (s : State) (m : HostMove) : (afterMove s m).pending = s.pending := by
  cases m with
  | command w din => simp [afterMove_command]
  | reset o => simp [afterMove_reset]

/-- A step takes the first move just as if no other were waiting, and leaves the others waiting. -/
theorem step_of_move_waiting (s : State) (m : HostMove) (rest : List HostMove) :
    step { s with pending := m :: rest } = .next { afterMove s m with pending := rest } := by
  cases m with
  | command w din =>
    have heff := wordEffect_accept_rest w s din rest s.pending
    calc step { s with pending := .command w din :: rest }
      _ = .next ((wordEffect w (s.accept din rest)).run (s.accept din rest)) := step_of_command rfl
      _ = .next { afterMove s (.command w din) with pending := rest } := by
        rw [afterMove_command, heff, Effect.run_accept, Effect.run_accept]
        rfl
  | reset o => rfl

/-- Running all the moves that wait is the fold of one move at a time. -/
theorem run_moves_waiting (ms : List HostMove) (s : State) :
    Host.Core.run core ms.length { s with pending := ms } = .next { ms.foldl afterMove s with pending := [] } := by
  induction ms generalizing s with
  | nil => rfl
  | cons m ms ih =>
    simpa [Host.Core.run, core, step_of_move_waiting] using ih (afterMove s m)

theorem pending_foldl_afterMove (ms : List HostMove) (s : State) : (ms.foldl afterMove s).pending = s.pending := by
  induction ms generalizing s with
  | nil => rfl
  | cons m ms ih => rw [List.foldl_cons, ih, pending_afterMove]

theorem commandCount_cons (m : HostMove) (ms : List HostMove) :
    commandCount (m :: ms) = commandCount [m] + commandCount ms := by
  cases m with
  | command w din => exact Nat.add_comm _ 1
  | reset o => exact (Nat.zero_add _).symm

/-- A command returns one response, a reset none (R56, 70_reset_and_hazards.md R340). -/
theorem length_responses_afterMove (s : State) (m : HostMove) :
    (afterMove s m).responses.length = s.responses.length + commandCount [m] := by
  cases m with
  | command w din =>
    rw [afterMove_command, Effect.responses_run, List.length_append]
    rfl
  | reset o => rfl

theorem length_responses_foldl_afterMove (ms : List HostMove) (s : State) :
    (ms.foldl afterMove s).responses.length = s.responses.length + commandCount ms := by
  induction ms generalizing s with
  | nil => rfl
  | cons m ms ih => rw [List.foldl_cons, ih, length_responses_afterMove, commandCount_cons m ms, Nat.add_assoc]

/-! ## The data-in bus (R53, R55) -/

theorem exec_ldv_eq (d : Reg) (n : Fin 16) (s : State) : exec (.ldv d n) s =
    if n.val = 0 ∨ 8 < n.val then fail .illegalCommand s else done (s.writeReg d (Fin.ofNat 9 n.val) s.din) :=
  execLdv_eq d n s

/-- Keeping bytes looks at those bytes alone. -/
theorem keepBytes_congr {len : Fin 9} {x y : Block} (h : ∀ p < 8 * len.val, x.getMsbD p = y.getMsbD p) :
    keepBytes len x = keepBytes len y := by
  apply BitVec.eq_of_getMsbD_eq
  intro p _
  rw [getMsbD_keepBytes, getMsbD_keepBytes]
  by_cases hp : p < 8 * len.val
  · rw [h p hp]
  · simp [hp]

/-- Writing a register from two values that agree in the bytes written is the same write. -/
theorem writeReg_congr {len : Fin 9} {x y : Block} (h : ∀ p < 8 * len.val, x.getMsbD p = y.getMsbD p) (s : State)
    (d : Reg) : s.writeReg d len x = s.writeReg d len y := by
  rw [State.writeReg, State.writeReg, keepBytes_congr h]

/-! ## Streams under one key (R63) -/

/-- LDK is the one instruction that loads a key (44_key_schedule.md R195). -/
theorem effect_ne_loadKey {i : Instr} (hi : ∀ n, i ≠ .ldk n) (s : State) (key : Block) : i.effect s ≠ .loadKey key := by
  intro h
  have hact : i.action s = .loadKey key := (effect_of_succeeds (by rw [h]; rfl)).2.symm.trans h
  cases i with
  | ldk n => exact hi n rfl
  | _ => cases hact

theorem Effect.instAfter_of_ne_loadKey {f : Effect} (h : ∀ key, f ≠ .loadKey key) (c : CipherInstance) :
    f.instAfter c = c := by
  cases f with
  | loadKey key => exact absurd rfl (h key)
  | raise | answer | write | clearError | writeFlag => rfl

theorem Effect.sv_statusAfter_of_ne_loadKey {f : Effect} (h : ∀ key, f ≠ .loadKey key) (st : Status) :
    (f.statusAfter st).sv = st.sv := by
  rw [Bool.eq_iff_iff, Effect.sv_statusAfter_iff]
  simp [h]

/-- Only LDK writes KEY, CD, RK and RKD (10_state.md R24). -/
theorem inst_run_effect {i : Instr} (hi : ∀ n, i ≠ .ldk n) (s t : State) : ((i.effect s).run t).inst = t.inst := by
  rw [Effect.inst_run, Effect.instAfter_of_ne_loadKey (effect_ne_loadKey hi s)]

theorem inst_of_exec {i : Instr} {s t : State} (h : exec i s = .next t) (hi : ∀ n, i ≠ .ldk n) : t.inst = s.inst := by
  cases (exec_eq_run i s).symm.trans h
  exact inst_run_effect hi s s

/-- The registers written are among those of the writes column. -/
theorem written_ne_of_writes_ne {i : Instr} {s : State} {r : Reg} (h : (i.writes s).map Prod.fst ≠ some r) :
    (i.effect s).written.map Prod.fst ≠ some r :=
  fun hw => h (written_fst_eq_some_iff.mp hw).2

/-- An instruction that is no LDK leaves all another one reads, if it writes none of the other's source registers. -/
theorem readsSame_run_effect {i j : Instr} {s : State} (hi : ∀ n, i ≠ .ldk n)
    (hij : ∀ r ∈ j.reads, (i.writes s).map Prod.fst ≠ some r) : ReadsSame j s ((i.effect s).run s) where
  regs r hr := Effect.reg_run_of_ne (written_ne_of_writes_ne (hij r hr)) s
  sv _ := by rw [Effect.status_run, Effect.sv_statusAfter_of_ne_loadKey (effect_ne_loadKey hi s)]
  schedules _ _ := by rw [inst_run_effect hi]; exact ⟨rfl, rfl⟩
  din _ := Effect.din_run _ s

/-- Where an effect does not write a register, running it before or after another gives the register the same. -/
theorem Effect.reg_run_comm_of_ne {f : Effect} {r : Reg} (hf : f.written.map Prod.fst ≠ some r) (g : Effect)
    (s : State) : (f.run (g.run s)).reg r = (g.run (f.run s)).reg r :=
  (Effect.reg_run_of_ne hf (g.run s)).trans (g.reg_run_congr (Effect.reg_run_of_ne hf s)).symm

/-- What a block command reads and writes; it is no LDK. -/
theorem enc_or_dec_reads_writes {i : Instr} {d a : Reg} (h : i = .enc d a ∨ i = .dec d a) (s : State) :
    (∀ n, i ≠ .ldk n) ∧ i.reads = [a] ∧ (i.writes s).map Prod.fst = some d := by
  rcases h with rfl | rfl
  · exact ⟨fun _ => nofun, rfl, rfl⟩
  · exact ⟨fun _ => nofun, rfl, rfl⟩

end Sys2Proof.Machine

namespace Sys2Proof

open Machine Claims

/-! ## The obligations -/

/-- Settles O12, by induction on the moves: a step takes the first move as an idle port would. -/
theorem sequencesAreTheLeftFoldOfStep : Obligations.SequencesAreTheLeftFoldOfStep := by
  intro ms s hs
  have hpending : (ms.foldl afterMove s).pending = [] := (pending_foldl_afterMove ms s).trans hs
  refine ⟨?_, hpending, length_responses_foldl_afterMove ms s⟩
  rw [run_moves_waiting, ← hpending]
  rfl

/-- Settles O24: a word's effect depends on din only if it reads it, and LDV keeps the first N bytes. -/
theorem onlyLdvAndLdkReadDin : Obligations.OnlyLdvAndLdkReadDin := by
  constructor
  · intro w s v hw
    have heff : wordEffect w (s.accept v s.pending) = wordEffect w s :=
      wordEffect_congr fun i hi => readsSame_accept (hw i hi) s v s.pending
    refine ⟨_, runWord_eq_run w s, ?_⟩
    rw [runWord_eq_run, heff, Effect.run_accept, Effect.pending_run]
  · intro d n s v hv
    rw [exec_ldv_eq, exec_ldv_eq]
    split
    · exact ⟨_, rfl, rfl⟩
    · next hn =>
      have hlen : (Fin.ofNat 9 n.val).val = n.val := Nat.mod_eq_of_lt (by omega)
      have hwrite : (s.accept v s.pending).writeReg d (Fin.ofNat 9 n.val) v =
          (s.accept v s.pending).writeReg d (Fin.ofNat 9 n.val) s.din :=
        writeReg_congr (by rwa [hlen]) _ d
      exact ⟨_, rfl, congrArg done hwrite⟩

/-- Settles O58: neither command writes what the other reads, so each has the effect in either order that it has first,
and no register is written by both. -/
theorem streamsUnderOneInstanceAreIndependent : Obligations.StreamsUnderOneInstanceAreIndependent := by
  constructor
  · rintro d a s t (ht | ht)
    · exact inst_of_exec ht fun _ => nofun
    · exact inst_of_exec ht fun _ => nofun
  · intro i j d1 a1 d2 a2 s hi hj hd hda hdb
    obtain ⟨hildk, hireads, hiwrites⟩ := enc_or_dec_reads_writes hi s
    obtain ⟨hjldk, hjreads, hjwrites⟩ := enc_or_dec_reads_writes hj s
    have hij : ReadsSame j s ((i.effect s).run s) := readsSame_run_effect hildk (by simpa [hjreads, hiwrites])
    have hji : ReadsSame i s ((j.effect s).run s) := readsSame_run_effect hjldk (by simpa [hireads, hjwrites])
    refine ⟨_, _, _, _, exec_eq_run i s, exec_eq_run_of_readsSame hij, exec_eq_run j s, exec_eq_run_of_readsSame hji,
      ?_, ?_⟩
    · intro r
      by_cases hr : r = d1
      · have hne : (j.effect s).written.map Prod.fst ≠ some r :=
          written_ne_of_writes_ne (by simpa [hjwrites, hr] using hd.symm)
        exact (Effect.reg_run_comm_of_ne hne _ s).symm
      · have hne : (i.effect s).written.map Prod.fst ≠ some r :=
          written_ne_of_writes_ne (by simpa [hiwrites] using Ne.symm hr)
        exact Effect.reg_run_comm_of_ne hne _ s
    · simp only [inst_run_effect hildk, inst_run_effect hjldk]

end Sys2Proof
end

section
/-! The fields of a command word as numbers (30_encoding.md R83), and the words that select no row (R87). -/

namespace Sys2Proof

/-! ## Fields as numbers -/

/-- A field is its bit range of the word. -/
theorem toNat_cmdField (w : CmdWord) (lo width : Nat) :
    (cmdField w lo width).toNat = w.toNat / 2 ^ lo % 2 ^ width := by
  rw [cmdField, BitVec.extractLsb'_toNat, Nat.shiftRight_eq_div_pow]

/-- A one-bit field is that bit of the word. -/
theorem toNat_getLsbD (w : CmdWord) (i : Nat) : (w.getLsbD i).toNat = w.toNat / 2 ^ i % 2 :=
  Nat.toNat_testBit ..

theorem bit_fieldDir (w : CmdWord) : (fieldDir w).bit = (w.getLsbD 4).toNat := by
  rw [fieldDir]
  cases w.getLsbD 4 <;> rfl

/-! ## Words that select no row -/

theorem Op.code_inj {o o' : Op} (h : o.code = o'.code) : o = o' :=
  Option.some.inj (by rw [← Op.ofCode_code o, h, Op.ofCode_code])

theorem Op.ofCode_eq_none_iff {c : BitVec 6} : Op.ofCode c = none ↔ ∀ o : Op, o.code ≠ c := by
  constructor
  · rintro h o rfl
    rw [Op.ofCode_code] at h
    cases h
  · intro h
    refine List.find?_eq_none.mpr fun o _ => ?_
    rw [beq_iff_eq]
    exact h o

/-- R87 (a): the OP of the word is in no row. -/
theorem decode_of_no_row {w : CmdWord} (h : ∀ o : Op, o.code ≠ fieldOp w) : decode w = .error .reservedOpcode := by
  simp [decode, Op.ofCode_eq_none_iff.mpr h]

/-- R87 (b): a must-be-zero bit of the word's row is set. -/
theorem decode_of_mustBeZero {w : CmdWord} {o : Op} (hc : o.code = fieldOp w) (hm : w &&& o.mask ≠ o.matchWord) :
    decode w = .error .mustBeZero := by
  simp [decode, ← hc, hm]

/-- A word selects at most one row: the rows differ in OP. -/
theorem op_unique_of_match {w : CmdWord} {o o' : Op} (h : w &&& o.mask = o.matchWord)
    (h' : w &&& o'.mask = o'.matchWord) : o = o' :=
  Op.code_inj ((fieldOp_of_match h).symm.trans (fieldOp_of_match h'))

/-- The two ways a word can be illegal before its field values are looked at (R87). -/
def SelectsNoRow (w : CmdWord) : Prop :=
  (∀ o : Op, o.code ≠ fieldOp w) ∨ ∃ o : Op, o.code = fieldOp w ∧ w &&& o.mask ≠ o.matchWord

theorem selectsNoRow_iff {w : CmdWord} : SelectsNoRow w ↔ ∀ o : Op, w &&& o.mask ≠ o.matchWord := by
  constructor
  · rintro (h | ⟨o, hc, hm⟩) o' hm'
    · exact h o' (fieldOp_of_match hm').symm
    · exact hm (Op.code_inj (hc.trans (fieldOp_of_match hm')) ▸ hm')
  · intro h
    by_cases hc : ∃ o : Op, o.code = fieldOp w
    · obtain ⟨o, ho⟩ := hc
      exact .inr ⟨o, ho, h o⟩
    · exact .inl (not_exists.mp hc)

theorem decode_of_selectsNoRow {w : CmdWord} (h : SelectsNoRow w) : ∃ e, decode w = .error e := by
  rcases h with h | ⟨o, hc, hm⟩
  · exact ⟨_, decode_of_no_row h⟩
  · exact ⟨_, decode_of_mustBeZero hc hm⟩

/-- The OP values of no row (R87). -/
theorem ofCode_eq_none_iff_reserved : ∀ c : BitVec 6, Op.ofCode c = none ↔
    ((0x05 ≤ c.toNat ∧ c.toNat ≤ 0x07) ∨ (0x0B ≤ c.toNat ∧ c.toNat ≤ 0x0F) ∨
      (0x13 ≤ c.toNat ∧ c.toNat ≤ 0x17) ∨ (0x1C ≤ c.toNat ∧ c.toNat ≤ 0x1F) ∨ (0x23 ≤ c.toNat ∧ c.toNat ≤ 0x3F)) := by
  decide

/-! ## The obligations -/

open Machine Claims

/-- Settles O4: every field is `cmdField` or one bit of the word. -/
theorem fieldsAreUnsignedBitRanges : Obligations.FieldsAreUnsignedBitRanges := by
  intro w
  have field := toNat_cmdField w
  have low (width : Nat) : (cmdField w 0 width).toNat = w.toNat % 2 ^ width := by simpa using field 0 width
  exact ⟨field 26 6, field 23 3, field 20 3, field 17 3, low 4, low 4, low 3, low 2, low 6, toNat_getLsbD w 6,
    (bit_fieldDir w).trans (toNat_getLsbD w 4)⟩

/-- Settles O3: the rows differ in OP, so at most one matches; a word that none matches is illegal at decode. -/
theorem everyWordSelectsOneRowOrIsIllegal : Obligations.EveryWordSelectsOneRowOrIsIllegal := by
  have raises {w : CmdWord} (h : SelectsNoRow w) (s : State) : WordRaises w s .illegalCommand := by
    obtain ⟨e, he⟩ := decode_of_selectsNoRow h
    exact wordRaises_of_illegal he s
  refine ⟨fun w => ?_, fun w h => ⟨selectsNoRow_iff.mp h, raises h⟩, fun c => ?_⟩
  · by_cases h : SelectsNoRow w
    · exact .inr ⟨h, raises h⟩
    · obtain ⟨o, ho⟩ : ∃ o : Op, w &&& o.mask = o.matchWord := by simpa using mt selectsNoRow_iff.mpr h
      exact .inl ⟨o, ho, fun o' ho' => op_unique_of_match ho' ho⟩
  · rw [← Op.ofCode_eq_none_iff]
    exact ofCode_eq_none_iff_reserved c

end Sys2Proof
end

section
/-! What the values of a field that are out of range raise (30_encoding.md R88). -/

namespace Sys2Proof.Machine

/-! ## What a command word raises, from the checks of its instruction -/

theorem ErrorKind.code_inj {e e' : ErrorKind} (h : e.code = e'.code) : e = e' := by
  revert h
  cases e <;> cases e' <;> decide

/-- Only a failed check raises an error: no action is an error. -/
theorem effect_eq_raise_iff {i : Instr} {s : State} {e : ErrorKind} :
    i.effect s = .raise e ↔ (i.errorsInOrder s).head? = some e := by
  cases h : i.errorsInOrder s with
  | nil =>
    rw [effect_of_no_errors h]
    cases i <;> exact iff_of_false nofun nofun
  | cons e' es => simp [effect_of_errors h]

theorem wordRaises_iff_wordEffect {w : CmdWord} {s : State} {e : ErrorKind} :
    WordRaises w s e ↔ wordEffect w s = .raise e := by
  rw [WordRaises, runWord_eq_run]
  constructor
  · rintro ⟨t, ht, -, -, -, -, -, -, -, hret⟩
    cases ht
    obtain ⟨hcode, -, -⟩ := (Effect.returned_run_iff ..).mp hret
    have hfail : ¬(wordEffect w s).succeeds = true := fun hs =>
      e.code_ne_zero (hcode.symm.trans ((Effect.code_eq_zero_iff _).mpr hs))
    obtain ⟨e', he'⟩ := Effect.eq_raise_of_not_succeeds hfail
    rw [he'] at hcode ⊢
    rw [ErrorKind.code_inj hcode]
  · intro h
    exact ⟨_, rfl, h ▸ raised_raise s e⟩

/-- A command word raises the first check of its instruction that fails. -/
theorem wordRaises_iff {w : CmdWord} {i : Instr} (hw : decode w = .ok i) (s : State) (e : ErrorKind) :
    WordRaises w s e ↔ (i.errorsInOrder s).head? = some e := by
  rw [wordRaises_iff_wordEffect, wordEffect_of_decode hw, effect_eq_raise_iff]

/-- A command word succeeds if no check of its instruction fails. -/
theorem succeeded_of_no_errors {w : CmdWord} {i : Instr} {s : State} (hw : decode w = .ok i)
    (h : i.errorsInOrder s = []) : ∃ t, runWord w s = .next t ∧ Claims.Succeeded s t := by
  refine ⟨_, runWord_eq_run w s, (Effect.succeeded_run_iff _ s).mpr ?_⟩
  rw [wordEffect_of_decode hw, effect_of_no_errors h]
  cases i <;> rfl

/-- One check alone decides between success and its error. -/
theorem succeeded_or_wordRaises {w : CmdWord} {i : Instr} {s : State} {e : ErrorKind} {P : Prop} [Decidable P]
    (hw : decode w = .ok i) (h : i.errorsInOrder s = if P then [] else [e]) :
    if P then ∃ t, runWord w s = .next t ∧ Claims.Succeeded s t else WordRaises w s e := by
  split
  · next hP => exact succeeded_of_no_errors hw (by rw [h, if_pos hP])
  · next hP => exact (wordRaises_iff hw s e).mpr (by rw [h, if_neg hP]; rfl)

/-! ## The checks of the commands with a ranged field -/

theorem errorsInOrder_btst {a : Reg} {s : State} (h : s.lenOf a ≠ 0) (pos : Fin 64) :
    (Instr.btst a pos).errorsInOrder s = if pos.val < 8 * s.lenOf a then [] else [.bitIndexOutOfRange] := by
  simp [Instr.errorsInOrder, Instr.fieldError, Instr.reads, Instr.readsSchedule, Instr.lengthErrors,
    Instr.indexErrors, h]

theorem errorsInOrder_bset {d : Reg} {s : State} (h : s.lenOf d ≠ 0) (pos : Fin 64) (val : Bool) :
    (Instr.bset d pos val).errorsInOrder s = if pos.val < 8 * s.lenOf d then [] else [.bitIndexOutOfRange] := by
  simp [Instr.errorsInOrder, Instr.fieldError, Instr.reads, Instr.readsSchedule, Instr.lengthErrors,
    Instr.indexErrors, h]

theorem errorsInOrder_rkrd {s : State} (h : s.status.sv = true) (d : Reg) (dir : Direction) (idx : Fin 16) :
    (Instr.rkrd d dir idx).errorsInOrder s = [] := by
  simp [Instr.errorsInOrder, Instr.fieldError, Instr.reads, Instr.lengthErrors, Instr.indexErrors, h]

theorem errorsInOrder_ldk (n : Fin 16) (s : State) :
    (Instr.ldk n).errorsInOrder s = if n.val = 8 then [] else [.invalidKeyLength] := by
  rw [Instr.errorsInOrder, Instr.fieldError]
  split <;> rfl

/-- ROT28's amount is checked first, and no other check of it raises RotateAmount. -/
theorem head_errorsInOrder_rot28 (d : Reg) (k : Fin 4) (s : State) :
    ((Instr.rot28 d k).errorsInOrder s).head? = some .rotateAmount ↔ ¬(k.val = 1 ∨ k.val = 2) := by
  rw [← rotateAmount_illegal_iff]
  by_cases hk : k.val = 0 ∨ k.val = 3
  · have hfield : (Instr.rot28 d k).fieldError = some .rotateAmount := if_pos hk
    refine iff_of_true ?_ hk
    rw [Instr.errorsInOrder, hfield]
    rfl
  · have hfield : (Instr.rot28 d k).fieldError = none := if_neg hk
    refine iff_of_false (fun h => ?_) hk
    have hmem := List.mem_of_mem_head? h
    simp [Instr.errorsInOrder, hfield, Instr.readsSchedule, Instr.lengthErrors, Instr.indexErrors] at hmem

end Sys2Proof.Machine

namespace Sys2Proof

open Machine Claims

/-! ## The words whose field values the decoder checks -/

theorem decode_ldv_of_match {w : CmdWord} (h : w &&& Op.ldv.mask = Op.ldv.matchWord) : decode w =
    if 1 ≤ (fieldN w).val ∧ (fieldN w).val ≤ 8 then .ok (.ldv (fieldD w) (fieldN w)) else .error .byteCount :=
  decode_of_match h

theorem decode_perm_of_match {w : CmdWord} (h : w &&& Op.perm.mask = Op.perm.matchWord)
    (hsel : (fieldTbl w).val ≤ 5) :
    ∃ tbl : Table, tbl.selector = (fieldTbl w).val ∧ decode w = .ok (.perm (fieldD w) (fieldS w) tbl) := by
  have hne : Table.ofSelector (fieldTbl w) ≠ none := by
    rw [Ne, Table.ofSelector_eq_none_iff]
    omega
  obtain ⟨tbl, htbl⟩ := Option.ne_none_iff_exists'.mp hne
  refine ⟨tbl, selector_of_ofSelector htbl, ?_⟩
  rw [decode_of_match h, decodeRow, htbl]

/-- Settles O5, row by row: LDV's and PERM's fields are checked at decode, the others by the command. -/
theorem fieldValuesOutsideTheirRangeRaiseTheirError : Obligations.FieldValuesOutsideTheirRangeRaiseTheirError := by
  refine ⟨fun w s h => ?_, fun w s h => ?_, fun w s h => ?_, fun w s h => ?_, fun w s h => ?_, fun w s h => ?_,
    fun w s h => ?_⟩
  · have hw := decode_ldv_of_match h
    split
    · next hn => rw [hw, if_pos hn]
    · next hn => exact wordRaises_of_illegal (hw.trans (if_neg hn)) s
  · split
    · next hsel => exact decode_perm_of_match h hsel
    · next hsel => exact wordRaises_of_illegal (decode_perm_of_reserved h (by omega)) s
  · have hw : decode w = .ok (.rot28 (fieldD w) (fieldK w)) := decode_of_match (o := .rot28) h
    refine ⟨hw, ?_⟩
    rw [wordRaises_iff hw, head_errorsInOrder_rot28]
    split
    · next hk => exact not_not_intro hk
    · next hk => exact hk
  · have hw : decode w = .ok (.ldk (fieldN w)) := decode_of_match (o := .ldk) h
    refine ⟨hw, ?_⟩
    rw [wordRaises_iff hw, errorsInOrder_ldk]
    split
    · exact nofun
    · rfl
  · have hw : decode w = .ok (.rkrd (fieldD w) (fieldDir w) (fieldIdx w)) := decode_of_match (o := .rkrd) h
    exact ⟨hw, fun hsv => succeeded_of_no_errors hw (errorsInOrder_rkrd hsv ..)⟩
  · have hw : decode w = .ok (.btst (fieldS w) (fieldPos w)) := decode_of_match (o := .btst) h
    exact ⟨hw, fun hlen => succeeded_or_wordRaises hw (errorsInOrder_btst hlen _)⟩
  · have hw : decode w = .ok (.bset (fieldD w) (fieldPos w) (fieldVal w)) := decode_of_match (o := .bset) h
    exact ⟨hw, fun hlen => succeeded_or_wordRaises hw (errorsInOrder_bset hlen _ _)⟩

end Sys2Proof
end

section
/-! Assembler lines (30_encoding.md R92, R93): how a written line splits into its tokens, what the assembler reads from
them, and the pseudo-instructions. -/

namespace Sys2Proof.Assembler

/-! ## Trimming and splitting -/

/-- A text with no space at its ends is not trimmed. -/
theorem trim_eq_self {t : Text} (hfirst : t.head? ≠ some ' ') (hlast : t.getLast? ≠ some ' ') : trim t = t := by
  have key : ∀ x : Text, x.head? ≠ some ' ' → x.dropWhile (· == ' ') = x := by
    intro x hx
    cases x with
    | nil => rfl
    | cons c cs =>
      have hc : c ≠ ' ' := fun e => hx (congrArg some e)
      simp [hc]
  rw [trim, key t hfirst, key t.reverse (by rwa [List.head?_reverse]), List.reverse_reverse]

theorem trim_of_no_space {t : Text} (h : ' ' ∉ t) : trim t = t :=
  trim_eq_self (fun e => h (List.mem_of_mem_head? e)) (fun e => h (List.mem_of_getLast? e))

theorem trim_space_cons (t : Text) : trim (' ' :: t) = trim t := rfl

theorem splitCommas_comma_cons (t : Text) : splitCommas (',' :: t) = [] :: splitCommas t := by
  obtain ⟨w, ws, h⟩ := List.exists_cons_of_ne_nil (splitCommas_ne_nil t)
  simp [splitCommas, h]

theorem splitCommas_cons_of_ne {c : Char} {t w : Text} {ws : List Text} (hc : c ≠ ',')
    (h : splitCommas t = w :: ws) : splitCommas (c :: t) = (c :: w) :: ws := by
  simp [splitCommas, h, hc]

/-- A piece without a comma goes before the first piece of what follows it. -/
theorem splitCommas_append {t rest w : Text} {ws : List Text} (ht : ',' ∉ t) (h : splitCommas rest = w :: ws) :
    splitCommas (t ++ rest) = (t ++ w) :: ws := by
  induction t with
  | nil => exact h
  | cons c cs ih =>
    have hc : c ≠ ',' := fun e => ht (e ▸ List.mem_cons_self)
    exact splitCommas_cons_of_ne hc (ih fun hmem => ht (List.mem_cons_of_mem c hmem))

/-! ## The tokens of a written line -/

/-- What can stand as a mnemonic or an operand: a text that is not empty, with no space and no comma in it. -/
structure IsToken (t : Text) : Prop where
  ne_nil : t ≠ []
  no_space : ' ' ∉ t
  no_comma : ',' ∉ t

/-- A test of it that computes. -/
theorem isToken_of_all {c : Char} {cs : Text} (h : (c :: cs).all (fun x => x != ' ' && x != ',') = true) :
    IsToken (c :: cs) := by
  rw [List.all_eq_true] at h
  exact ⟨List.cons_ne_nil c cs, fun hmem => Bool.false_ne_true (h ' ' hmem),
    fun hmem => Bool.false_ne_true (h ',' hmem)⟩

/-- Operands as `lineText` writes them after the mnemonic. -/
def joinOperands (o : Text) (os : List Text) : Text := o ++ os.flatMap (fun x => ',' :: ' ' :: x)

theorem joinOperands_nil (o : Text) : joinOperands o [] = o := List.append_nil o

theorem joinOperands_cons (o x : Text) (xs : List Text) :
    joinOperands o (x :: xs) = o ++ ',' :: ' ' :: joinOperands x xs := by
  simp [joinOperands]

theorem lineText_cons (m o : Text) (os : List Text) : lineText m (o :: os) = m ++ ' ' :: joinOperands o os := by
  simp [lineText, joinOperands]

theorem joinOperands_ne_nil {o : Text} (ho : IsToken o) (os : List Text) : joinOperands o os ≠ [] :=
  List.append_ne_nil_of_left_ne_nil ho.ne_nil _

theorem head?_joinOperands {o : Text} (ho : IsToken o) (os : List Text) : (joinOperands o os).head? ≠ some ' ' := by
  rw [joinOperands, List.head?_append_of_ne_nil _ ho.ne_nil]
  exact fun e => ho.no_space (List.mem_of_mem_head? e)

theorem getLast?_joinOperands {o : Text} {os : List Text} (h : ∀ x ∈ o :: os, IsToken x) :
    (joinOperands o os).getLast? ≠ some ' ' := by
  induction os generalizing o with
  | nil =>
    rw [joinOperands_nil]
    exact fun e => (h o List.mem_cons_self).no_space (List.mem_of_getLast? e)
  | cons x xs ih =>
    have htail := List.forall_mem_of_forall_mem_cons h
    rw [joinOperands_cons, List.getLast?_append_cons, List.getLast?_cons_cons,
      List.getLast?_cons_of_ne_nil (joinOperands_ne_nil (htail x List.mem_cons_self) xs)]
    exact ih htail

/-- The commas split written operands into those operands, but for the spaces after the commas. -/
theorem splitCommas_joinOperands {o : Text} {os : List Text} (h : ∀ x ∈ o :: os, IsToken x) :
    splitCommas (joinOperands o os) = o :: os.map (' ' :: ·) := by
  induction os generalizing o with
  | nil =>
    have hcomma := (h o List.mem_cons_self).no_comma
    simpa [joinOperands] using splitCommas_append (rest := []) hcomma rfl
  | cons x xs ih =>
    have hcomma := (h o List.mem_cons_self).no_comma
    have hrest := splitCommas_cons_of_ne (c := ' ') (by decide) (ih (List.forall_mem_of_forall_mem_cons h))
    rw [joinOperands_cons, splitCommas_append hcomma (by rw [splitCommas_comma_cons, hrest]), List.append_nil]
    rfl

theorem map_trim_splitCommas_joinOperands {o : Text} {os : List Text} (h : ∀ x ∈ o :: os, IsToken x) :
    (splitCommas (joinOperands o os)).map trim = o :: os := by
  have hself : (o :: os).map trim = o :: os :=
    (List.map_congr_left fun x hx => trim_of_no_space (h x hx).no_space).trans (List.map_id _)
  calc (splitCommas (joinOperands o os)).map trim
    _ = (o :: os).map trim := by simp [splitCommas_joinOperands h, trim_space_cons]
    _ = o :: os := hself

/-- A written line has the tokens it was written from. -/
theorem tokens_lineText {m : Text} {ops : List Text} (hm : IsToken m) (hops : ∀ o ∈ ops, IsToken o) :
    tokens (lineText m ops) = (m, ops) := by
  obtain ⟨hne, hspace, -⟩ := hm
  have hall : ∀ c ∈ m, (c != ' ') = true := fun c hc => bne_iff_ne.mpr fun e => hspace (e ▸ hc)
  cases ops with
  | nil =>
    have hdrop : m.dropWhile (· != ' ') = [] := List.dropWhile_eq_nil_iff.mpr hall
    rw [tokens, lineText, trim_of_no_space hspace, List.takeWhile_eq_self_iff.mpr hall, hdrop]
    rfl
  | cons o os =>
    have ho := hops o List.mem_cons_self
    have hbody : trim (joinOperands o os) = joinOperands o os :=
      trim_eq_self (head?_joinOperands ho os) (getLast?_joinOperands hops)
    have hline : trim (m ++ ' ' :: joinOperands o os) = m ++ ' ' :: joinOperands o os := by
      refine trim_eq_self ?_ ?_
      · rw [List.head?_append_of_ne_nil _ hne]
        exact fun e => hspace (List.mem_of_mem_head? e)
      · rw [List.getLast?_append_cons, List.getLast?_cons_of_ne_nil (joinOperands_ne_nil ho os)]
        exact getLast?_joinOperands hops
    rw [lineText_cons, tokens, hline, List.takeWhile_append_of_pos hall, List.dropWhile_append_of_pos hall]
    simp [trim_space_cons, hbody, joinOperands_ne_nil ho os, map_trim_splitCommas_joinOperands hops]

theorem isToken_regText (r : Reg) : IsToken (regText r) := by
  refine isToken_of_all ?_
  revert r
  decide

theorem isToken_numText (n : Nat) : IsToken (numText n) := by
  have hdigit : ∀ c ∈ numText n, c.isDigit = true := fun c hc => isDigit_of_mem_number (k := 0) hc
  refine ⟨Nat.toDigits_ne_nil, fun h => ?_, fun h => ?_⟩
  · cases hdigit _ h
  · cases hdigit _ h

theorem isToken_tableText (x : Table) : IsToken (tableText x) := by cases x <;> exact isToken_of_all rfl

theorem isToken_directionText (x : Direction) : IsToken (directionText x) := by cases x <;> exact isToken_of_all rfl

theorem isToken_mnemonicText (o : Op) : IsToken (mnemonicText o) := by cases o <;> exact isToken_of_all rfl

theorem isToken_pseudoMnemonic (p : Pseudo) : IsToken (pseudoMnemonic p) := by cases p <;> exact isToken_of_all rfl

theorem isToken_of_mem_operandTexts (i : Instr) : ∀ o ∈ operandTexts i, IsToken o := by
  cases i <;>
    simp [operandTexts, isToken_regText, isToken_numText, isToken_tableText, isToken_directionText]

theorem isToken_of_mem_pseudoOperands (p : Pseudo) : ∀ o ∈ pseudoOperands p, IsToken o := by
  cases p <;> simp [pseudoOperands, isToken_regText]

theorem tokens_disassemble (i : Instr) : tokens (disassemble i) = (mnemonicText i.op, operandTexts i) :=
  tokens_lineText (isToken_mnemonicText _) (isToken_of_mem_operandTexts i)

theorem tokens_pseudoText (p : Pseudo) : tokens (pseudoText p) = (pseudoMnemonic p, pseudoOperands p) :=
  tokens_lineText (isToken_pseudoMnemonic p) (isToken_of_mem_pseudoOperands p)

/-! ## What the tokens of a line hold -/

/-- A line without its spaces is its first word and the rest without theirs. -/
theorem filter_eq_word_append_rest (t : Text) : t.filter (· != ' ') =
    (trim t).takeWhile (· != ' ') ++ (trim ((trim t).dropWhile (· != ' '))).filter (· != ' ') := by
  have hword : ((trim t).takeWhile (· != ' ')).filter (· != ' ') = (trim t).takeWhile (· != ' ') :=
    List.filter_eq_self.mpr fun c hc => List.mem_takeWhile_imp (p := (· != ' ')) hc
  calc t.filter (· != ' ')
    _ = ((trim t).takeWhile (· != ' ') ++ (trim t).dropWhile (· != ' ')).filter (· != ' ') := by
      rw [List.takeWhile_append_dropWhile, trim_noSpaces]
    _ = (trim t).takeWhile (· != ' ') ++ (trim ((trim t).dropWhile (· != ' '))).filter (· != ' ') := by
      rw [List.filter_append, hword, trim_noSpaces]

theorem filter_intercalate_comma (ws : List Text) : ([','].intercalate ws).filter (· != ' ') =
    [','].intercalate (ws.map fun w => w.filter (· != ' ')) := by
  induction ws with
  | nil => rfl
  | cons w ws ih =>
    cases ws with
    | nil => simp
    | cons w' ws => simpa [List.intercalate_cons_cons] using ih

/-- The operands of a line are the rest between its commas. -/
theorem intercalate_operands (t : Text) :
    [','].intercalate ((tokens t).2.map fun o => o.filter (· != ' ')) =
      (trim ((trim t).dropWhile (· != ' '))).filter (· != ' ') := by
  rw [tokens]
  generalize trim ((trim t).dropWhile (· != ' ')) = rest
  cases rest with
  | nil => rfl
  | cons c cs =>
    have hpiece : (fun o : Text => o.filter (· != ' ')) ∘ trim = fun o => o.filter (· != ' ') :=
      funext trim_noSpaces
    calc [','].intercalate (((splitCommas (c :: cs)).map trim).map fun o => o.filter (· != ' '))
      _ = ([','].intercalate (splitCommas (c :: cs))).filter (· != ' ') := by
        rw [List.map_map, hpiece, filter_intercalate_comma]
      _ = (c :: cs).filter (· != ' ') := by rw [splitCommas_join]

theorem no_comma_of_mem_operands {t o : Text} (h : o ∈ (tokens t).2) : ',' ∉ o := by
  rw [tokens] at h
  split at h
  · cases h
  · obtain ⟨w, hw, rfl⟩ := List.mem_map.mp h
    exact fun hc => splitCommas_no_comma _ w hw (mem_of_mem_trim hc)

/-! ## What the assembler reads from the tokens -/

/-- LDK is the one mnemonic that a row and a pseudo-instruction share. -/
theorem readMnemonic_pseudoMnemonic (p : Pseudo) :
    readMnemonic (pseudoMnemonic p) = if p = .ldk then some .ldk else none := by
  cases p <;> rfl

/-- No line is of the form of an instruction and of a pseudo-instruction: LDK has an operand in the one only. -/
theorem not_formOf_of_pseudoFormOf {p : Pseudo} {line : Text × List Text} (hp : PseudoFormOf p line) (i : Instr) :
    ¬FormOf i line := by
  rintro ⟨hm, hops⟩
  obtain ⟨hpm, hpops⟩ := hp
  have hread := readMnemonic_pseudoMnemonic p
  rw [← hpm, readMnemonic_eq_some.mpr hm] at hread
  split at hread
  · next hldk =>
    subst hldk
    rw [hpops] at hops
    cases i with
    | ldk n => cases hops
    | _ => cases hread
  · cases hread

theorem readMnemonic_bind_readForm_eq_some {m : Text} {operands : List Text} {i : Instr} :
    ((readMnemonic m).bind fun o => readForm o operands) = some i ↔ i.WellFormed ∧ FormOf i (m, operands) := by
  simp only [Option.bind_eq_some_iff, readMnemonic_eq_some, readForm_eq_some]
  constructor
  · rintro ⟨_, hm, rfl, hw, hops⟩
    exact ⟨hw, hm, hops⟩
  · rintro ⟨hw, hm, hops⟩
    exact ⟨_, hm, rfl, hw, hops⟩

/-- A line is read as an instruction of whose form it is, or as the expansion of a pseudo-instruction. -/
theorem readLine_eq_some {t : Text} {i : Instr} : readLine t = some i ↔
    (i.WellFormed ∧ FormOf i (tokens t)) ∨ ∃ p, i = expand p ∧ PseudoFormOf p (tokens t) := by
  rw [readLine]
  obtain ⟨m, operands⟩ := tokens t
  dsimp only
  split
  · next p hp =>
    have hform := readPseudo_eq_some.mp hp
    rw [or_iff_right fun h => not_formOf_of_pseudoFormOf hform i h.2]
    constructor
    · rintro ⟨⟩
      exact ⟨p, rfl, hform⟩
    · rintro ⟨p', rfl, hp'⟩
      rw [Option.some.inj (hp.symm.trans (readPseudo_eq_some.mpr hp'))]
  · next hp =>
    have hno : ¬∃ p, i = expand p ∧ PseudoFormOf p (m, operands) := by
      rintro ⟨p, -, hform⟩
      cases hp.symm.trans (readPseudo_eq_some.mpr hform)
    rw [or_iff_left hno, readMnemonic_bind_readForm_eq_some]

theorem assemble_eq_some {t : Text} {w : CmdWord} : assemble t = some w ↔
    (∃ i : Instr, i.WellFormed ∧ w = encode i ∧ FormOf i (tokens t)) ∨
      ∃ p : Pseudo, w = encode (expand p) ∧ PseudoFormOf p (tokens t) := by
  simp only [assemble, Option.map_eq_some_iff, readLine_eq_some]
  constructor
  · rintro ⟨i, ⟨hw, hform⟩ | ⟨p, rfl, hform⟩, rfl⟩
    · exact .inl ⟨i, hw, rfl, hform⟩
    · exact .inr ⟨p, rfl, hform⟩
  · rintro (⟨i, hw, rfl, hform⟩ | ⟨p, rfl, hform⟩)
    · exact ⟨i, .inl ⟨hw, hform⟩, rfl⟩
    · exact ⟨_, .inr ⟨p, rfl, hform⟩, rfl⟩

theorem assemble_eq_none {t : Text} : assemble t = none ↔
    (∀ i : Instr, i.WellFormed → ¬FormOf i (tokens t)) ∧ ∀ p : Pseudo, ¬PseudoFormOf p (tokens t) := by
  rw [Option.eq_none_iff_forall_ne_some]
  constructor
  · intro h
    exact ⟨fun i hw hform => h _ (assemble_eq_some.mpr (.inl ⟨i, hw, rfl, hform⟩)),
      fun p hform => h _ (assemble_eq_some.mpr (.inr ⟨p, rfl, hform⟩))⟩
  · rintro ⟨hi, hp⟩ w hw
    rcases assemble_eq_some.mp hw with ⟨i, hwf, -, hform⟩ | ⟨p, -, hform⟩
    · exact hi i hwf hform
    · exact hp p hform

theorem assemble_disassemble {i : Instr} (h : i.WellFormed) : assemble (disassemble i) = some (encode i) := by
  refine assemble_eq_some.mpr (.inl ⟨i, h, rfl, ?_⟩)
  rw [tokens_disassemble]
  exact ⟨rfl, List.forall₂_same.mpr fun _ _ => .inl rfl⟩

theorem assemble_pseudoText (p : Pseudo) : assemble (pseudoText p) = some (encode (expand p)) := by
  refine assemble_eq_some.mpr (.inr ⟨p, rfl, ?_⟩)
  rw [tokens_pseudoText]
  exact ⟨rfl, rfl⟩

/-! ## The commands the pseudo-instructions stand for -/

theorem decode_encode_expand (p : Pseudo) : decode (encode (expand p)) = .ok (expand p) := by
  rw [decode_of_match (Laws.RowOfEncoding.ofInstr (expand p))]
  cases p with
  | ldk => decide
  | ldb d | rot1 d | rot2 d | clr d => revert d; decide
  | iperm d s | fperm d s => revert d s; decide

end Sys2Proof.Assembler

namespace Sys2Proof.Machine

theorem errorsInOrder_xor_self (d a : Reg) (s : State) : (Instr.xor d a a).errorsInOrder s =
    if s.lenOf a = 0 then [.emptyOperand, .emptyOperand] else [] := by
  by_cases h : s.lenOf a = 0 <;>
    simp [Instr.errorsInOrder, Instr.fieldError, Instr.reads, Instr.readsSchedule, Instr.lengthErrors,
      Instr.indexErrors, h]

/-- XOR of a register with itself writes zeros of the register's length, if the register is not empty. -/
theorem xor_self_writes_zeros {d a : Reg} {s : State} (h : s.lenOf a ≠ 0) :
    Writes (.xor d a a) s d (s.lenOf a) (fun _ => false) := by
  have hrun : exec (.xor d a a) s = done (s.writeReg d (s.reg a).len 0) := by
    rw [exec_eq_run, effect_of_no_errors (by rw [errorsInOrder_xor_self, if_neg h]), Instr.action, BitVec.xor_self]
    rfl
  obtain ⟨t, ht, -, hholds, honly, hret⟩ := done_writeReg s d (s.reg a).len 0
  have hzero : (0 : Block).getMsbD = fun _ => false := funext fun _ => BitVec.getMsbD_zero
  exact ⟨t, hrun.trans ht, hzero ▸ hholds, honly, hret⟩

theorem xor_self_raises {d a : Reg} {s : State} (h : s.lenOf a = 0) : Raises (.xor d a a) s .emptyOperand := by
  refine ⟨_, exec_eq_run _ s, ?_⟩
  rw [effect_of_errors ((errorsInOrder_xor_self d a s).trans (if_pos h))]
  exact raised_raise s _

end Sys2Proof.Machine

namespace Sys2Proof

open Machine Assembler

/-! ## The obligations -/

/-- Settles O59, from the tokens of a line and what is read from them. -/
theorem assembledLinesAreTheEncodedWords : Obligations.AssembledLinesAreTheEncodedWords := by
  refine ⟨fun _ => assemble_disassemble, fun _ _ => assemble_eq_some, fun _ => assemble_eq_none,
    fun t => ⟨fun _ => no_comma_of_mem_operands, ?_⟩, by decide +kernel⟩
  rw [intercalate_operands]
  exact filter_eq_word_append_rest t

/-- Settles O60: the lines as all lines are read, and CLR as XOR of a register with itself. -/
theorem pseudoInstructionsExpandToOneCommand : Obligations.PseudoInstructionsExpandToOneCommand := by
  refine ⟨fun p => ⟨assemble_pseudoText p, decode_encode_expand p⟩,
    ⟨rfl, fun _ _ => ⟨rfl, rfl, rfl, rfl, rfl, rfl⟩⟩, fun d s => ?_⟩
  split
  · next h => exact xor_self_raises h
  · next h => exact xor_self_writes_zeros h

end Sys2Proof
end

section
/-! Host transfer and control commands (40_host_transfer.md): the effect of each, and what an effect says in the terms
of the claims. -/

namespace Sys2Proof.Machine

/-! ## From the effect of an instruction to the claims -/

theorem raises_of_effect {i : Instr} {s : State} {e : ErrorKind} (h : i.effect s = .raise e) : Raises i s e :=
  ⟨_, exec_eq_run i s, h ▸ raised_raise s e⟩

theorem outputs_of_effect {i : Instr} {s : State} {dout : Block} {olen : Fin 9} (h : i.effect s = .answer dout olen) :
    Claims.Outputs i s dout olen := by
  rw [Claims.Outputs, exec_eq_run, h]
  exact doneWith_next s dout olen

/-- What an instruction leaves that writes a register: the kept bytes, and nothing else changed. -/
theorem exec_of_effect_write {i : Instr} {s : State} {d : Reg} {len : Fin 9} {x : Block}
    (h : i.effect s = .write d len x) :
    ∃ t, exec i s = .next t ∧ t.reg d = { storage := keepBytes len x, len := len } ∧
      RegHolds t d len.val x.getMsbD ∧ WroteOnly d s t ∧ Returned 0 0 0 s t := by
  rw [exec_eq_run, h]
  exact done_writeReg s d len x

theorem writes_of_effect {i : Instr} {s : State} {d : Reg} {len : Fin 9} {x : Block}
    (h : i.effect s = .write d len x) : Writes i s d len.val x.getMsbD := by
  obtain ⟨t, ht, -, hholds, honly, hret⟩ := exec_of_effect_write h
  exact ⟨t, ht, hholds, honly, hret⟩

theorem leaves_of_effect {i : Instr} {s : State} {d : Reg} {len : Fin 9} {x : Block}
    (h : i.effect s = .write d len x) : Leaves i s d { storage := keepBytes len x, len := len } := by
  obtain ⟨t, ht, hreg, -, -, hret⟩ := exec_of_effect_write h
  exact ⟨t, ht, hreg, hret⟩

/-! ## The effects of LDV, STV and MOV -/

theorem effect_ldv {n : Fin 16} (h1 : 1 ≤ n.val) (h8 : n.val ≤ 8) (d : Reg) (s : State) :
    (Instr.ldv d n).effect s = .write d (Fin.ofNat 9 n.val) s.din := by
  have hfield : (Instr.ldv d n).fieldError = none := if_neg (by omega)
  apply effect_of_no_errors
  rw [Instr.errorsInOrder, hfield]
  rfl

/-- The one check STV makes (60_exceptions.md R301). -/
theorem errorsInOrder_stv (a : Reg) (s : State) :
    (Instr.stv a).errorsInOrder s = if s.lenOf a = 0 then [.emptyOperand] else [] := by
  by_cases h : s.lenOf a = 0 <;>
    simp [Instr.errorsInOrder, Instr.fieldError, Instr.reads, Instr.readsSchedule, Instr.lengthErrors,
      Instr.indexErrors, h]

/-- MOV makes the check of STV. -/
theorem errorsInOrder_mov (d a : Reg) (s : State) :
    (Instr.mov d a).errorsInOrder s = if s.lenOf a = 0 then [.emptyOperand] else [] :=
  errorsInOrder_stv a s

theorem effect_stv_of_empty {s : State} {a : Reg} (h : s.lenOf a = 0) :
    (Instr.stv a).effect s = .raise .emptyOperand :=
  effect_of_errors ((errorsInOrder_stv a s).trans (if_pos h))

theorem effect_mov_of_empty {s : State} {a : Reg} (h : s.lenOf a = 0) (d : Reg) :
    (Instr.mov d a).effect s = .raise .emptyOperand :=
  effect_of_errors ((errorsInOrder_mov d a s).trans (if_pos h))

theorem effect_mov {s : State} {a : Reg} (h : s.lenOf a ≠ 0) (d : Reg) :
    (Instr.mov d a).effect s = .write d (s.reg a).len (s.storage a) :=
  effect_of_no_errors ((errorsInOrder_mov d a s).trans (if_neg h))

/-- MOV of a register to itself writes what it holds (40_host_transfer.md R126). -/
theorem mov_self_outputs_nothing {s : State} {a : Reg} (h : s.lenOf a ≠ 0) (hcanon : CanonicalReg (s.reg a)) :
    Claims.Outputs (.mov a a) s 0 0 := by
  obtain ⟨t, ht, hreg, -, ⟨hother, hinst, hstatus, hport⟩, hret⟩ := exec_of_effect_write (effect_mov h a)
  refine ⟨t, ht, fun r => ?_, hinst, hstatus, hport, hret⟩
  by_cases hr : r = a
  · rw [hr, hreg, State.storage, keepBytes_of_canonical hcanon]
  · exact hother r hr

/-! ## Registers without a write, and no register made empty -/

/-- An instruction with an empty writes column leaves every register (10_state.md R24). -/
theorem sameRegs_of_writes_none {i : Instr} {s : State} (h : i.writes s = none) :
    SameRegs s ((i.effect s).run s) :=
  fun _ => Effect.reg_run_of_ne (written_ne_of_writes_ne (by simp [h])) s

/-- LDK is the one command besides LDV that reads din, and it writes no data register. -/
theorem readsDin_eq_false_or_ldk {i : Instr} (h : ∀ d n, i ≠ .ldv d n) : i.readsDin = false ∨ ∃ n, i = .ldk n := by
  cases i with
  | ldv d n => exact absurd rfl (h d n)
  | ldk n => exact .inr ⟨n, rfl⟩
  | _ => exact .inl rfl

theorem lenOf_ne_zero_of_no_errors {i : Instr} {s : State} (h : i.errorsInOrder s = []) {r : Reg}
    (hr : r ∈ i.reads) : s.lenOf r ≠ 0 := by
  simp only [Instr.errorsInOrder, List.append_eq_nil_iff, List.map_eq_nil_iff, List.filter_eq_nil_iff,
    decide_eq_true_eq] at h
  obtain ⟨⟨⟨⟨-, hreads⟩, -⟩, -⟩, -⟩ := h
  exact hreads r hr

/-- Every length a command writes is one of its own or that of a register it read, which was not empty. -/
theorem length_ne_zero_of_writes {i : Instr} {s : State} {d : Reg} {n : Nat} (h : i.errorsInOrder s = [])
    (hw : i.writes s = some (d, n)) : n ≠ 0 := by
  have hlen := fun r => lenOf_ne_zero_of_no_errors (r := r) h
  cases i with
  | nop | stv | clrerr | btst | ldk => cases hw
  | ldv _ m =>
    cases hw
    have hm : m ≠ 0 ∧ m.val ≤ 8 := by simpa [Instr.fieldError] using fieldError_of_no_errors h
    exact Fin.val_ne_zero_iff.mpr hm.1
  | mov | bset | xor =>
    cases hw
    exact hlen _ List.mem_cons_self
  | perm _ _ tbl =>
    cases hw
    cases tbl <;> decide
  | rot28 | rkrd | sbox | ffn | fround | swap | enc | dec =>
    cases hw
    decide

/-- No command makes a register empty: one it writes has a length that is not 0 (40_host_transfer.md R126). -/
theorem lenOf_run_effect_ne_zero (i : Instr) {s : State} {r : Reg} (h : s.lenOf r ≠ 0) :
    ((i.effect s).run s).lenOf r ≠ 0 := by
  by_cases hw : (i.effect s).written.map Prod.fst = some r
  · obtain ⟨hnil, heff⟩ := effect_of_succeeds (written_fst_eq_some_iff.mp hw).1
    obtain ⟨⟨d, v⟩, hv, rfl⟩ := Option.map_eq_some_iff.mp hw
    rw [State.lenOf, Effect.reg_run_of_written hv]
    refine length_ne_zero_of_writes (d := d) hnil ?_
    rw [writes_eq_of_no_errors hnil, ← heff, hv]
    rfl
  · rwa [State.lenOf, Effect.reg_run_of_ne hw]

/-! ## CLRERR -/

theorem clrerr_setsStatus (s : State) : Claims.SetsStatus .clrerr s s.status.clearError := by
  obtain ⟨t, ht, hregs, hinst, hstatus, hport, hret⟩ := done_next s.acknowledge
  exact ⟨t, ht, hstatus, hregs, hinst, hport, hret⟩

/-- Without an error there is nothing to clear. -/
theorem clearError_of_no_error {s : State} (h : s.ErrorCodeMatches) (herr : s.status.err = false) :
    s.status.clearError = s.status := by
  have hecode : s.status.ecode = 0 := h.mp herr
  rw [Status.clearError, ← herr, ← hecode]

/-- CLRERR keeps bits 5 and 6 of STATUS, SV and F, and clears the others (10_state.md R30). -/
theorem Status.word_clearError (st : Status) : st.clearError.word = st.word &&& 0x60#8 := by
  apply BitVec.eq_of_getLsbD_eq
  intro i hi
  rw [BitVec.getLsbD_and, Status.getLsbD_word, Status.getLsbD_word]
  interval_cases i <;> simp [Status.clearError]

end Sys2Proof.Machine

namespace Sys2Proof

open Machine Claims

/-! ## Rows whose fields the decoder does not check -/

/-- Where every word of a row is legal, the words that decode by the row are those that match it (30_encoding.md
R86). -/
theorem encodedAs_of_row {o : Op} {build : CmdWord → Instr} (h : ∀ w, decodeRow o w = .ok (build w)) :
    EncodedAs o.matchWord o.mask build := by
  intro w
  constructor
  · exact fun hm => (decode_of_match hm).trans (h w)
  · intro hw
    have hmatch := (match_of_decode hw).1
    rwa [op_of_decodeRow (h w)] at hmatch

/-- A row without operands is one word; any other word with its OP raises IllegalCommand (30_encoding.md R87). -/
theorem wordRaises_of_full_mask {o : Op} {w : CmdWord} (hmask : o.mask = BitVec.allOnes 32)
    (hop : fieldOp w = o.code) (hw : w ≠ o.matchWord) (s : State) : WordRaises w s .illegalCommand := by
  refine wordRaises_of_illegal (decode_of_mustBeZero hop.symm ?_) s
  rwa [hmask, BitVec.and_allOnes]

/-! ## The obligations -/

/-- Settles O27: the byte count is checked at decode, and LDV writes the kept bytes of din. -/
theorem ldvLoadsBytesFromThePort : Obligations.LdvLoadsBytesFromThePort := by
  refine ⟨fun w => ⟨?_, ?_⟩, ?_, ?_, ?_, rfl, rfl, ?_⟩
  · rintro ⟨hm, hn⟩
    exact (decode_ldv_of_match hm).trans (if_pos hn)
  · intro hw
    have hm := (match_of_decode hw).1
    refine ⟨hm, ?_⟩
    rw [decode_ldv_of_match hm] at hw
    by_contra hn
    rw [if_neg hn] at hw
    cases hw
  · intro w s hm hn
    exact wordRaises_of_illegal ((decode_ldv_of_match hm).trans (if_neg (by omega))) s
  · intro d n s h1 h8
    have hlen : (Fin.ofNat 9 n.val).val = n.val := Nat.mod_eq_of_lt (Nat.lt_succ_of_le h8)
    have hwrites := writes_of_effect (effect_ldv h1 h8 d s)
    rwa [hlen] at hwrites
  · intro i s v hi
    rcases readsDin_eq_false_or_ldk hi with hdin | ⟨n, rfl⟩
    · exact ⟨_, _, exec_eq_run i s, exec_eq_run_of_readsSame (readsSame_accept hdin s v s.pending),
        fun _ => Effect.reg_run_congr _ rfl⟩
    · refine ⟨_, _, exec_eq_run _ s, exec_eq_run _ _, fun r => ?_⟩
      have hs := sameRegs_of_writes_none (i := .ldk n) (s := s) rfl r
      have hv := sameRegs_of_writes_none (i := .ldk n) (s := s.accept v s.pending) rfl r
      exact hv.trans hs.symm
  · intro s hdin
    have h8 := leaves_of_effect (effect_ldv (n := 8) (by decide) (by decide) 0 s)
    have h4 := leaves_of_effect (effect_ldv (n := 4) (by decide) (by decide) 3 s)
    rw [hdin] at h8 h4
    exact ⟨h8, h4⟩

/-- Settles O28: STV answers the kept bytes of its register, whatever else the state holds. -/
theorem stvReturnsTheRegister : Obligations.StvReturnsTheRegister := by
  refine ⟨encodedAs_of_row (o := .stv) fun _ => rfl, ?_, fun a s h => raises_of_effect (effect_stv_of_empty h), rfl,
    ?_⟩
  · intro a s h
    refine ⟨keepBytes (s.reg a).len (s.storage a), fun p _ => getMsbD_keepBytes _ _ p, fun s' hreg => ?_⟩
    have hlen : s'.lenOf a ≠ 0 := by rwa [State.lenOf, hreg]
    have hout := outputs_of_effect (effect_stv hlen)
    rwa [State.storage, hreg] at hout
  · intro s hreg
    have hlen : s.lenOf 3 ≠ 0 := by
      rw [State.lenOf, hreg]
      decide
    have hout := outputs_of_effect (effect_stv hlen)
    rw [State.storage, hreg] at hout
    exact hout

/-- Settles O29: MOV writes the kept bytes of its source, and no command writes a length of 0. -/
theorem movCopiesTheRegister : Obligations.MovCopiesTheRegister := by
  refine ⟨encodedAs_of_row (o := .mov) fun _ => rfl, fun d a s h => writes_of_effect (effect_mov h d),
    fun d a s h => raises_of_effect (effect_mov_of_empty h d), fun a s => mov_self_outputs_nothing, ?_, rfl, ?_⟩
  · intro i s t r ht hlen
    cases (exec_eq_run i s).symm.trans ht
    exact lenOf_run_effect_ne_zero i hlen
  · intro s hreg
    have hlen : s.lenOf 0 ≠ 0 := by
      rw [State.lenOf, hreg]
      decide
    have hleaves := leaves_of_effect (effect_mov hlen 1)
    rw [State.storage, hreg] at hleaves
    exact hleaves

/-- Settles O26: NOP's row is one word, and its effect is an answer without data. -/
theorem nopDoesNothing : Obligations.NopDoesNothing :=
  ⟨encodedAs_of_row (o := .nop) fun _ => rfl, fun _ s hop hw => wordRaises_of_full_mask (o := .nop) rfl hop hw s,
    fun _ => outputs_of_effect rfl⟩

/-- Settles O30: CLRERR's row is one word, and it keeps the two bits of STATUS above ECODE. -/
theorem clrerrClearsTheErrorFields : Obligations.ClrerrClearsTheErrorFields := by
  refine ⟨encodedAs_of_row (o := .clrerr) fun _ => rfl, clrerr_setsStatus,
    fun _ s hop hw => wordRaises_of_full_mask (o := .clrerr) rfl hop hw s, ?_, ?_⟩
  · intro s hmatches herr
    have hsets := clrerr_setsStatus s
    rwa [clearError_of_no_error hmatches herr] at hsets
  · intro s hword
    obtain ⟨t, ht, hstatus, -, -, -, hret⟩ := clrerr_setsStatus s
    refine ⟨t, ht, ?_, hret⟩
    rw [hstatus, Status.word_clearError, hword]
    rfl

end Sys2Proof
end

section
/-! Bit-field commands (41_bitfield.md): BTST and BSET make the same two checks, and each has one effect past them. -/

namespace Sys2Proof.Machine

/-! ## The checks of BTST and BSET -/

/-- An empty register that a command reads is the first error, where the command's own fields raise none
(60_exceptions.md R301, R305). -/
theorem effect_of_empty_read {i : Instr} {s : State} {r : Reg} (hfield : i.fieldError = none) (hr : r ∈ i.reads)
    (h : s.lenOf r = 0) : i.effect s = .raise .emptyOperand := by
  have hmem : r ∈ i.reads.filter (fun q => decide (s.lenOf q = 0)) := List.mem_filter.mpr ⟨hr, decide_eq_true h⟩
  obtain ⟨q, qs, hq⟩ := List.exists_cons_of_ne_nil (List.ne_nil_of_mem hmem)
  apply effect_of_errors
  rw [Instr.errorsInOrder, hfield, hq]
  rfl

/-- A register with a position in bounds is not empty (41_bitfield.md R142). -/
theorem lenOf_ne_zero_of_lt {s : State} {r : Reg} {p : Nat} (h : p < 8 * s.lenOf r) : s.lenOf r ≠ 0 := by
  omega

/-- Every position is in bounds of a register of eight bytes. -/
theorem lt_lenOf_of_len_eight {s : State} {r : Reg} (h : (s.reg r).len = 8) (pos : Fin 64) :
    pos.val < 8 * s.lenOf r := by
  rw [State.lenOf, h]
  exact pos.isLt

/-! ## BTST -/

theorem effect_btst {s : State} {a : Reg} {pos : Fin 64} (h : pos.val < 8 * s.lenOf a) :
    (Instr.btst a pos).effect s = .writeFlag (s.bit a pos.val) :=
  effect_of_no_errors ((errorsInOrder_btst (lenOf_ne_zero_of_lt h) pos).trans (if_pos h))

theorem effect_btst_of_out_of_range {s : State} {a : Reg} {pos : Fin 64} (hlen : s.lenOf a ≠ 0)
    (h : 8 * s.lenOf a ≤ pos.val) : (Instr.btst a pos).effect s = .raise .bitIndexOutOfRange :=
  effect_of_errors ((errorsInOrder_btst hlen pos).trans (if_neg (Nat.not_lt.mpr h)))

/-- An instruction whose effect is to write F changes nothing else. -/
theorem setsStatus_of_effect_writeFlag {i : Instr} {s : State} {b : Bool} (h : i.effect s = .writeFlag b) :
    Claims.SetsStatus i s { s.status with f := b } := by
  obtain ⟨t, ht, hregs, hinst, hstatus, hport, hret⟩ := done_next (s.setStatus (s.status.setF b))
  rw [Claims.SetsStatus, exec_eq_run, h]
  exact ⟨t, ht, hstatus, hregs, hinst, hport, hret⟩

/-- F is bit 6 of STATUS (10_state.md R30). -/
theorem Status.getLsbD_word_f (st : Status) : st.word.getLsbD 6 = st.f := by
  rw [Status.getLsbD_word]
  rfl

/-! ## BSET -/

theorem effect_bset {s : State} {d : Reg} {pos : Fin 64} (h : pos.val < 8 * s.lenOf d) (val : Bool) :
    (Instr.bset d pos val).effect s = .write d (s.reg d).len (setBitAt (s.storage d) pos.val val) :=
  effect_of_no_errors ((errorsInOrder_bset (lenOf_ne_zero_of_lt h) pos val).trans (if_pos h))

theorem effect_bset_of_out_of_range {s : State} {d : Reg} {pos : Fin 64} (hlen : s.lenOf d ≠ 0)
    (h : 8 * s.lenOf d ≤ pos.val) (val : Bool) : (Instr.bset d pos val).effect s = .raise .bitIndexOutOfRange :=
  effect_of_errors ((errorsInOrder_bset hlen pos val).trans (if_neg (Nat.not_lt.mpr h)))

/-- A write is known by the bits at positions 0..63. -/
theorem Writes.congr {i : Instr} {s : State} {d : Reg} {len : Nat} {bits bits' : Nat → Bool}
    (h : Writes i s d len bits) (hbits : ∀ p < 64, bits p = bits' p) : Writes i s d len bits' := by
  obtain ⟨t, ht, ⟨hlen, hval⟩, honly, hret⟩ := h
  exact ⟨t, ht, ⟨hlen, fun p hp => (hval p hp).trans (by rw [hbits p hp])⟩, honly, hret⟩

/-- Setting a bit to its own value changes nothing. -/
theorem setBitAt_getMsbD (x : Block) {p : Nat} (hp : p < 64) : setBitAt x p (x.getMsbD p) = x := by
  apply BitVec.eq_of_getMsbD_eq
  intro q hq
  rw [getMsbD_setBitAt x hp hq]
  split
  · next h => rw [h]
  · rfl

theorem bset_writes_one_bit {s : State} {d : Reg} {pos : Fin 64} (h : pos.val < 8 * s.lenOf d) (val : Bool) :
    Writes (.bset d pos val) s d (s.lenOf d) (fun p => if p = pos.val then val else s.bit d p) :=
  (writes_of_effect (effect_bset h val)).congr fun _ hp => getMsbD_setBitAt (s.storage d) pos.isLt hp val

theorem bset_own_bit_leaves_register {s : State} {d : Reg} {pos : Fin 64} (h : pos.val < 8 * s.lenOf d)
    (hcanon : CanonicalReg (s.reg d)) : Leaves (.bset d pos (s.bit d pos.val)) s d (s.reg d) := by
  have hleaves := leaves_of_effect (effect_bset h (s.bit d pos.val))
  rwa [State.bit, setBitAt_getMsbD _ pos.isLt, State.storage, keepBytes_of_canonical hcanon] at hleaves

end Sys2Proof.Machine

namespace Sys2Proof

open Machine Claims

/-! ## The obligations -/

/-- Settles O31: past its two checks BTST's one effect is to write F, with the bit read. -/
theorem btstTestsTheBit : Obligations.BtstTestsTheBit := by
  refine ⟨encodedAs_of_row (o := .btst) fun _ => rfl, fun a pos s h => setsStatus_of_effect_writeFlag (effect_btst h),
    fun a pos s h => raises_of_effect (effect_of_empty_read rfl List.mem_cons_self h),
    fun a pos s hlen h => raises_of_effect (effect_btst_of_out_of_range hlen h), rfl, rfl, ?_⟩
  intro s hreg
  have hflag (pos : Fin 64) :
      ∃ t, exec (.btst 0 pos) s = .next t ∧ t.status.f = (0x0123456789ABCDEF#64).getMsbD pos.val := by
    have hpos := lt_lenOf_of_len_eight (by rw [hreg]) pos
    obtain ⟨t, ht, hstatus, -⟩ := setsStatus_of_effect_writeFlag (effect_btst hpos)
    refine ⟨t, ht, ?_⟩
    rw [hstatus, State.bit, State.storage, hreg]
  obtain ⟨t, ht, hf⟩ := hflag 7
  exact ⟨⟨t, ht, hf, (Status.getLsbD_word_f _).trans hf⟩, hflag 0⟩

/-- Settles O32: past its two checks BSET writes the kept bytes of its register with one bit set. -/
theorem bsetSetsOneBit : Obligations.BsetSetsOneBit := by
  refine ⟨encodedAs_of_row (o := .bset) fun _ => rfl, fun d pos val s h => bset_writes_one_bit h val,
    fun d pos val s h => raises_of_effect (effect_of_empty_read rfl List.mem_cons_self h),
    fun d pos val s hlen h => raises_of_effect (effect_bset_of_out_of_range hlen h val),
    fun d pos s h hcanon => bset_own_bit_leaves_register h hcanon, rfl, rfl, ?_⟩
  intro s hreg
  have hleaves (pos : Fin 64) (val : Bool) :=
    leaves_of_effect (effect_bset (lt_lenOf_of_len_eight (by rw [hreg]) pos) val)
  rw [State.storage, hreg] at hleaves
  exact ⟨hleaves 0 true, hleaves 63 false⟩

end Sys2Proof
end

section
/-! The permutation engine (42_permutation.md): two tables one after the other, the checks and the effect of PERM, and
the words that decode to it. -/

namespace Sys2Proof

/-- A table and its selector name each other (R154). -/
theorem Table.ofSelector_eq_some_iff {n : Fin 8} {t : Table} : Table.ofSelector n = some t ↔ n.val = t.selector := by
  refine ⟨fun h => (selector_of_ofSelector h).symm, fun h => ?_⟩
  revert n
  cases t <;> decide

/-- The row of PERM gives the table whose selector is TBL, and no other instruction. -/
theorem decodeRow_perm_eq_ok_iff {w : CmdWord} {d a : Reg} {tbl : Table} : decodeRow .perm w = .ok (.perm d a tbl) ↔
    fieldD w = d ∧ fieldS w = a ∧ (fieldTbl w).val = tbl.selector := by
  rw [← Table.ofSelector_eq_some_iff, decodeRow]
  cases Table.ofSelector (fieldTbl w) <;> simp

/-- The words that decode to a PERM are those of its row with its operands in their fields (30_encoding.md R86). -/
theorem decode_eq_perm_iff {w : CmdWord} {d a : Reg} {tbl : Table} : decode w = .ok (.perm d a tbl) ↔
    w &&& Op.perm.mask = Op.perm.matchWord ∧ fieldD w = d ∧ fieldS w = a ∧ (fieldTbl w).val = tbl.selector := by
  rw [← decodeRow_perm_eq_ok_iff]
  constructor
  · exact match_of_decode
  · rintro ⟨hm, hrow⟩
    exact (decode_of_match hm).trans hrow

end Sys2Proof

namespace Sys2Proof.Machine

/-! ## Tables applied to blocks and to registers -/

/-- Two tables in turn read the source through both: the second table's entry picks an entry of the first. -/
theorem getMsbD_permute_permute {n m k : Nat} {t u : List Nat} (ht : t.length = m) (hu : u.length = k) (x : BitVec n)
    {p : Nat} (hp : p < k) (hentry : u.getD p 0 < m) :
    (permute k u (permute m t x)).getMsbD p = x.getMsbD (t.getD (u.getD p 0) 0) := by
  rw [getMsbD_permute u hu _ p hp, getMsbD_permute t ht x _ hentry]

/-- A table undoes another when each of its entries picks the entry that leads back to its own position. -/
theorem permute_permute_of_inverse {m : Nat} {t u : List Nat} (ht : t.length = m) (hu : u.length = m)
    (hinv : ∀ p < m, u.getD p 0 < m ∧ t.getD (u.getD p 0) 0 = p) (x : BitVec m) :
    permute m u (permute m t x) = x := by
  apply BitVec.eq_of_getMsbD_eq
  intro p hp
  obtain ⟨hentry, hback⟩ := hinv p hp
  rw [getMsbD_permute_permute ht hu x hp hentry, hback]

theorem tableIP_getD_tableFP : ∀ p < 64, tableFP.getD p 0 < 64 ∧ tableIP.getD (tableFP.getD p 0) 0 = p := by
  decide +kernel

theorem tableFP_getD_tableIP : ∀ p < 64, tableIP.getD p 0 < 64 ∧ tableFP.getD (tableIP.getD p 0) 0 = p := by
  decide +kernel

/-- FP undoes IP (42_permutation.md R156). -/
theorem permute_tableFP_permute_tableIP (x : Block) : permute 64 tableFP (permute 64 tableIP x) = x :=
  permute_permute_of_inverse (by rfl) (by rfl) tableIP_getD_tableFP x

/-- IP undoes FP. -/
theorem permute_tableIP_permute_tableFP (x : Block) : permute 64 tableIP (permute 64 tableFP x) = x :=
  permute_permute_of_inverse (by rfl) (by rfl) tableFP_getD_tableIP x

/-- The result of a table is a whole number of bytes (42_permutation.md R154). -/
theorem eight_mul_tableBytes (t : Table) : 8 * (tableBytes t).val = (tableEntries t).length := by
  cases t <;> rfl

theorem getMsbD_permuteStorage (t : Table) (x : Block) {p : Nat} (hp : p < 8 * (tableBytes t).val) :
    (permuteStorage t x).getMsbD p = x.getMsbD ((tableEntries t).getD p 0) := by
  have hlen := eight_mul_tableBytes t
  have hbytes := (tableBytes t).isLt
  rw [permuteStorage, getMsbD_leftJustify (by omega), getMsbD_permute _ rfl x p (by omega)]

/-! ## The checks and the effect of PERM -/

theorem errorsInOrder_perm {s : State} {a : Reg} (h : s.lenOf a ≠ 0) (d : Reg) (tbl : Table) :
    (Instr.perm d a tbl).errorsInOrder s =
      if ∀ q ∈ tableEntries tbl, q < 8 * s.lenOf a then [] else [.bitIndexOutOfRange] := by
  simp [Instr.errorsInOrder, Instr.fieldError, Instr.reads, Instr.readsSchedule, Instr.lengthErrors,
    Instr.indexErrors, h]

theorem effect_perm {s : State} {a : Reg} {tbl : Table} (hlen : s.lenOf a ≠ 0)
    (h : ∀ q ∈ tableEntries tbl, q < 8 * s.lenOf a) (d : Reg) :
    (Instr.perm d a tbl).effect s = .write d (tableBytes tbl) (permuteStorage tbl (s.storage a)) :=
  effect_of_no_errors ((errorsInOrder_perm hlen d tbl).trans (if_pos h))

theorem effect_perm_of_out_of_range {s : State} {a : Reg} {tbl : Table} (hlen : s.lenOf a ≠ 0)
    (h : ∃ q ∈ tableEntries tbl, 8 * s.lenOf a ≤ q) (d : Reg) :
    (Instr.perm d a tbl).effect s = .raise .bitIndexOutOfRange := by
  obtain ⟨q, hq, hout⟩ := h
  have hbound : ¬∀ q ∈ tableEntries tbl, q < 8 * s.lenOf a := fun hall => Nat.not_lt.mpr hout (hall q hq)
  exact effect_of_errors ((errorsInOrder_perm hlen d tbl).trans (if_neg hbound))

/-- A write is known by the bits of its value alone. -/
theorem Writes.congr_value {i : Instr} {s : State} {d : Reg} {len : Nat} {bits bits' : Nat → Bool}
    (h : Writes i s d len bits) (hbits : ∀ p < 8 * len, bits p = bits' p) : Writes i s d len bits' := by
  obtain ⟨t, ht, ⟨hlen, hval⟩, honly, hret⟩ := h
  refine ⟨t, ht, ⟨hlen, fun p hp => (hval p hp).trans ?_⟩, honly, hret⟩
  by_cases hin : p < 8 * len
  · rw [hbits p hin]
  · simp [hin]

theorem perm_writes_table_bits {s : State} {a : Reg} {tbl : Table} (hlen : s.lenOf a ≠ 0)
    (h : ∀ q ∈ tableEntries tbl, q < 8 * s.lenOf a) (d : Reg) :
    Writes (.perm d a tbl) s d ((tableEntries tbl).length / 8) (fun p => s.bit a ((tableEntries tbl).getD p 0)) := by
  have hbytes : (tableEntries tbl).length / 8 = (tableBytes tbl).val :=
    Nat.div_eq_of_eq_mul_right (by decide) (eight_mul_tableBytes tbl).symm
  rw [hbytes]
  exact (writes_of_effect (effect_perm hlen h d)).congr_value fun _ hp => getMsbD_permuteStorage tbl (s.storage a) hp

end Sys2Proof.Machine

namespace Sys2Proof

open Machine Claims

/-! ## The obligations -/

/-- Settles O35, from the two tables read one through the other. -/
theorem finalPermutationInvertsTheInitialOne : Obligations.FinalPermutationInvertsTheInitialOne :=
  ⟨fun p hp => (tableFP_getD_tableIP p hp).2,
    fun x => ⟨permute_tableFP_permute_tableIP x, permute_tableIP_permute_tableFP x⟩⟩

/-- Settles O33: TBL is checked at decode, and past its two checks PERM writes the permuted storage of its source; what
the tables repeat and drop is counted in them. -/
theorem permAppliesTheTable : Obligations.PermAppliesTheTable := by
  refine ⟨fun w tbl => ?_, fun w s hm hsel => wordRaises_of_illegal (decode_perm_of_reserved hm hsel) s,
    fun d a tbl s hlen h => perm_writes_table_bits hlen h d,
    fun d a tbl s h => raises_of_effect (effect_of_empty_read rfl List.mem_cons_self h),
    fun d a tbl s hlen h => raises_of_effect (effect_perm_of_out_of_range hlen h d),
    by decide +kernel, by decide +kernel, by decide +kernel, by decide +kernel, by decide +kernel,
    permute_tableFP_permute_tableIP, rfl, fun s hreg => ?_⟩
  · constructor
    · rintro ⟨hm, hsel⟩
      exact decode_eq_perm_iff.mpr ⟨hm, rfl, rfl, hsel⟩
    · intro hw
      obtain ⟨hm, -, -, hsel⟩ := decode_eq_perm_iff.mp hw
      exact ⟨hm, hsel⟩
  · have hlen : s.lenOf 0 = 8 := by
      rw [State.lenOf, hreg]
      rfl
    have hbound : ∀ q ∈ tableEntries .ip, q < 8 * s.lenOf 0 := by
      rw [forall_tableEntries_lt_iff, hlen, tableEntries, maxEntry_tableIP]
    have hvalue : keepBytes 8 (permuteStorage .ip 0x0123456789ABCDEF#64) = 0xCC00CCFFF0AAF0AA#64 := by decide +kernel
    have hleaves := leaves_of_effect (effect_perm (by omega) hbound 1)
    rw [State.storage, hreg] at hleaves
    exact hvalue ▸ hleaves

end Sys2Proof
end

section
/-! The rotator (43_rotator.md): what it does to each half, the 32-bit technique, how rotations add up, and ROT28. -/

namespace Sys2Proof.Machine

/-! ## The two halves -/

@[simp] theorem halfC_append (c d : BitVec 28) : halfC (c ++ d) = c := BitVec.extractLsb'_append_eq_left

@[simp] theorem halfD_append (c d : BitVec 28) : halfD (c ++ d) = d := BitVec.extractLsb'_append_eq_right

@[simp] theorem halfC_rot28 (cd : CDValue) (k : Nat) : halfC (rot28 cd k) = (halfC cd).rotateLeft k :=
  halfC_append _ _

@[simp] theorem halfD_rot28 (cd : CDValue) (k : Nat) : halfD (rot28 cd k) = (halfD cd).rotateLeft k :=
  halfD_append _ _

theorem getMsbD_halfC (cd : CDValue) {i : Nat} (hi : i < 28) : (halfC cd).getMsbD i = cd.getMsbD i := by
  have hpos : 56 - (56 - i) = i := by omega
  simp [halfC, BitVec.getMsbD_extractLsb', hi, hpos]

theorem getMsbD_halfD (cd : CDValue) {i : Nat} (hi : i < 28) : (halfD cd).getMsbD i = cd.getMsbD (28 + i) := by
  have hlow : 28 - i ≤ 56 := by omega
  have hpos : 56 - (28 - i) = 28 + i := by omega
  simp [halfD, BitVec.getMsbD_extractLsb', hi, hlow, hpos]

/-- A CD value is its two halves. -/
@[simp] theorem append_halfC_halfD (cd : CDValue) : halfC cd ++ halfD cd = cd := by
  apply BitVec.eq_of_getMsbD_eq
  intro i hi
  rw [BitVec.getMsbD_append]
  split
  · rw [getMsbD_halfD cd (by omega), Nat.add_sub_cancel' ‹28 ≤ i›]
  · exact getMsbD_halfC cd (by omega)

/-- A bit of a rotated half, for every amount (R171). -/
theorem getMsbD_rotateLeft_half (h : BitVec 28) (k : Nat) {i : Nat} (hi : i < 28) :
    (h.rotateLeft k).getMsbD i = h.getMsbD ((i + k) % 28) := by
  simp [BitVec.getMsbD_rotateLeft, hi, Nat.add_comm]

theorem getMsbD_rot28_left (cd : CDValue) (k : Nat) {i : Nat} (hi : i < 28) :
    (rot28 cd k).getMsbD i = cd.getMsbD ((i + k) % 28) := by
  rw [← getMsbD_halfC _ hi, halfC_rot28, getMsbD_rotateLeft_half _ _ hi, getMsbD_halfC _ (Nat.mod_lt _ (by decide))]

theorem getMsbD_rot28_right (cd : CDValue) (k : Nat) {i : Nat} (hi : i < 28) :
    (rot28 cd k).getMsbD (28 + i) = cd.getMsbD (28 + (i + k) % 28) := by
  rw [← getMsbD_halfD _ hi, halfD_rot28, getMsbD_rotateLeft_half _ _ hi, getMsbD_halfD _ (Nat.mod_lt _ (by decide))]

/-- Every bit of a rotated CD value. -/
theorem getMsbD_rot28 (cd : CDValue) (k : Nat) {p : Nat} (hp : p < 56) : (rot28 cd k).getMsbD p =
    if p < 28 then cd.getMsbD ((p + k) % 28) else cd.getMsbD (28 + (p - 28 + k) % 28) := by
  split
  · next h => exact getMsbD_rot28_left cd k h
  · next h =>
    rw [← getMsbD_rot28_right cd k (by omega), Nat.add_sub_cancel' (Nat.not_lt.mp h)]

/-! ## The 32-bit technique (R172) -/

/-- The bits that the patch of the left half moves up: the lowest k. -/
theorem getLsbD_twoPow_sub_one {k : Nat} (hk : k = 1 ∨ k = 2) :
    ∀ i < 32, (BitVec.twoPow 32 k - 1#32).getLsbD i = decide (i < k) := by
  rcases hk with rfl | rfl <;> decide

theorem getLsbD_highMask : ∀ i < 28, (0xFFFFFFF0#32).getLsbD (4 + i) = true := by decide

theorem getLsbD_lowMask : ∀ i < 28, (0x0FFFFFFF#32).getLsbD i = true := by decide

/-- A rotated word counted from the least significant end: its lowest k bits are those that wrapped. -/
theorem getLsbD_rotateLeft_eq_ite {w k i : Nat} (hk : k < w) (hi : i < w) (x : BitVec w) :
    (x.rotateLeft k).getLsbD i = if i < k then x.getLsbD (w - k + i) else x.getLsbD (i - k) := by
  rw [BitVec.getLsbD_rotateLeft, Nat.mod_eq_of_lt hk, Bool.cond_decide, decide_eq_true hi, Bool.true_and]

/-- A half in the high bits of a word. -/
theorem getLsbD_setWidth_shiftLeft (c : BitVec 28) {i : Nat} (hi : i < 32) :
    (c.setWidth 32 <<< 4).getLsbD i = if i < 4 then false else c.getLsbD (i - 4) := by
  have hsub : i - 4 < 32 := by omega
  rw [BitVec.getLsbD_shiftLeft, BitVec.getLsbD_setWidth, decide_eq_true hi, decide_eq_true hsub]
  split <;> simp_all

/-- A half in the low bits of a word. -/
theorem getLsbD_setWidth_half (d : BitVec 28) {i : Nat} (hi : i < 32) :
    (d.setWidth 32).getLsbD i = d.getLsbD i := by
  rw [BitVec.getLsbD_setWidth, decide_eq_true hi, Bool.true_and]

/-- The left patch: bit i is bit 4 + i of the rotated word, or the wrapped bit moved up to it. -/
theorem getLsbD_foldLeft28 {k i : Nat} (hk : k = 1 ∨ k = 2) (hi : i < 28) (c : BitVec 28) :
    (foldLeft28 c k).getLsbD i = (((c.setWidth 32 <<< 4).rotateLeft k).getLsbD (4 + i) ||
      (((c.setWidth 32 <<< 4).rotateLeft k).getLsbD i && decide (i < k))) := by
  have hword : 4 + i < 32 := by omega
  rw [foldLeft28, BitVec.getLsbD_setWidth, BitVec.getLsbD_ushiftRight, BitVec.getLsbD_or, BitVec.getLsbD_and,
    getLsbD_highMask i hi, BitVec.getLsbD_shiftLeft _ 4, BitVec.getLsbD_and, Nat.add_sub_cancel_left,
    getLsbD_twoPow_sub_one hk i (by omega)]
  simp [hi, hword]

/-- The right patch: bit i is bit i of the rotated word, or the bit that left the half 28 positions above it. -/
theorem getLsbD_foldRight28 {k i : Nat} (hi : i < 28) (d : BitVec 28) :
    (foldRight28 d k).getLsbD i =
      (((d.setWidth 32).rotateLeft k).getLsbD i || ((d.setWidth 32).rotateLeft k).getLsbD (28 + i)) := by
  rw [foldRight28, BitVec.getLsbD_setWidth, BitVec.getLsbD_or, BitVec.getLsbD_and, getLsbD_lowMask i hi,
    BitVec.getLsbD_ushiftRight, decide_eq_true hi, Bool.true_and, Bool.and_true]

/-- With its patch the technique turns the left half: wrapped bits come from the second term of the patch alone. -/
theorem foldLeft28_eq_rotateLeft (c : BitVec 28) {k : Nat} (hk : k = 1 ∨ k = 2) :
    foldLeft28 c k = c.rotateLeft k := by
  apply BitVec.eq_of_getLsbD_eq
  intro i hi
  have hup : ¬4 + i < k := by omega
  rw [getLsbD_foldLeft28 hk hi, getLsbD_rotateLeft_eq_ite (by omega) hi,
    getLsbD_rotateLeft_eq_ite (by omega) (by omega), getLsbD_rotateLeft_eq_ite (by omega) (by omega), if_neg hup,
    getLsbD_setWidth_shiftLeft c (i := 4 + i - k) (by omega)]
  by_cases hwrap : i < k
  · have hzero : 4 + i - k < 4 := by omega
    have hhalf : ¬32 - k + i < 4 := by omega
    have hpos : 32 - k + i - 4 = 28 - k + i := by omega
    rw [if_pos hzero, if_pos hwrap, if_pos hwrap, getLsbD_setWidth_shiftLeft c (by omega), if_neg hhalf, hpos,
      decide_eq_true hwrap, Bool.false_or, Bool.and_true]
  · have hhalf : ¬4 + i - k < 4 := by omega
    have hpos : 4 + i - k - 4 = i - k := by omega
    rw [if_neg hhalf, if_neg hwrap, if_neg hwrap, hpos, decide_eq_false hwrap, Bool.and_false, Bool.or_false]

/-- With its patch the technique turns the right half: wrapped bits are those above position 27 of the word. -/
theorem foldRight28_eq_rotateLeft (d : BitVec 28) {k : Nat} (hk : k = 1 ∨ k = 2) :
    foldRight28 d k = d.rotateLeft k := by
  apply BitVec.eq_of_getLsbD_eq
  intro i hi
  rw [getLsbD_foldRight28 hi, getLsbD_rotateLeft_eq_ite (by omega) hi, getLsbD_rotateLeft_eq_ite (by omega) (by omega)]
  have hup : ¬28 + i < k := by omega
  by_cases hwrap : i < k
  · have hzero : d.getLsbD (32 - k + i) = false := BitVec.getLsbD_of_ge d _ (by omega)
    have hpos : 28 + i - k = 28 - k + i := by omega
    rw [getLsbD_rotateLeft_eq_ite (by omega) (by omega), if_pos hwrap, if_pos hwrap, if_neg hup,
      getLsbD_setWidth_half d (by omega), getLsbD_setWidth_half d (by omega), hzero, hpos, Bool.false_or]
  · have hzero : ((d.setWidth 32).rotateLeft k).getLsbD (28 + i) = false := by
      rw [BitVec.getLsbD_rotateLeft, Nat.mod_eq_of_lt (by omega), decide_eq_false hup, cond_false,
        BitVec.getLsbD_setWidth, BitVec.getLsbD_of_ge d _ (by omega), Bool.and_false, Bool.and_false]
    rw [if_neg hwrap, if_neg hwrap, getLsbD_setWidth_half d (by omega), hzero, Bool.or_false]

/-! ## Amounts add up (R175) -/

theorem rotateLeft_rotateLeft {w : Nat} (x : BitVec w) (a b : Nat) :
    (x.rotateLeft a).rotateLeft b = x.rotateLeft (a + b) := by
  apply BitVec.eq_of_getMsbD_eq
  intro i hi
  have hmod : (b + i) % w < w := Nat.mod_lt _ (by omega)
  simp [BitVec.getMsbD_rotateLeft, hi, hmod, Nat.add_assoc]

theorem rot28_rot28 (cd : CDValue) (a b : Nat) : rot28 (rot28 cd a) b = rot28 cd (a + b) := by
  rw [rot28, halfC_rot28, halfD_rot28, rotateLeft_rotateLeft, rotateLeft_rotateLeft, rot28]

theorem rotateLeft_zero {w : Nat} (x : BitVec w) : x.rotateLeft 0 = x := by
  apply BitVec.eq_of_getMsbD_eq
  intro i hi
  simp [BitVec.getMsbD_rotateLeft, hi, Nat.mod_eq_of_lt hi]

theorem rotateLeft_width {w : Nat} (x : BitVec w) : x.rotateLeft w = x := by
  rw [← BitVec.rotateLeft_mod_eq_rotateLeft, Nat.mod_self, rotateLeft_zero]

theorem rot28_zero (cd : CDValue) : rot28 cd 0 = cd := by
  rw [rot28, rotateLeft_zero, rotateLeft_zero, append_halfC_halfD]

/-- The period of the rotator. -/
theorem rot28_period (cd : CDValue) : rot28 cd 28 = cd := by
  rw [rot28, rotateLeft_width, rotateLeft_width, append_halfC_halfD]

/-- Rotations one after the other are one rotation by the sum of their amounts. -/
theorem foldl_rot28 (amount : Nat → Nat) (rs : List Nat) (cd : CDValue) :
    rs.foldl (fun y r => rot28 y (amount r)) cd = rot28 cd (rs.map amount).sum := by
  induction rs generalizing cd with
  | nil => exact (rot28_zero cd).symm
  | cons r rs ih => rw [List.foldl_cons, ih, rot28_rot28, List.map_cons, List.sum_cons]

theorem iterate_rot28 (k n : Nat) (cd : CDValue) : (fun y => rot28 y k)^[n] cd = rot28 cd (n * k) := by
  induction n generalizing cd with
  | zero => rw [Nat.zero_mul, rot28_zero, Function.iterate_zero, id]
  | succ n ih => rw [Function.iterate_succ_apply, ih, rot28_rot28, Nat.add_comm, Nat.succ_mul]

/-- Counting the positions at which p holds is unaffected by turning the positions. -/
theorem length_filter_range_rotate (p : Nat → Bool) (n k : Nat) :
    ((List.range n).filter fun i => p ((i + k) % n)).length = ((List.range n).filter p).length := by
  have hmap : (List.range n).map (fun i => (i + k) % n) = (List.range n).rotate k :=
    List.ext_getElem (by simp) (by simp [List.getElem_rotate])
  calc ((List.range n).filter fun i => p ((i + k) % n)).length
    _ = (((List.range n).map fun i => (i + k) % n).filter p).length := by
      rw [List.filter_map, List.length_map]
      rfl
    _ = ((List.range n).filter p).length := by
      rw [hmap]
      exact ((List.rotate_perm _ k).filter p).length_eq

/-! ## The checks and the effect of ROT28 -/

theorem fieldError_rot28 {k : Fin 4} (hk : k.val = 1 ∨ k.val = 2) (d : Reg) :
    (Instr.rot28 d k).fieldError = none :=
  if_neg fun h => (rotateAmount_illegal_iff k).mp h hk

theorem errorsInOrder_rot28 {s : State} {d : Reg} {k : Fin 4} (hk : k.val = 1 ∨ k.val = 2) (h : s.lenOf d ≠ 0) :
    (Instr.rot28 d k).errorsInOrder s = if s.lenOf d = 7 then [] else [.operandLength] := by
  simp [Instr.errorsInOrder, fieldError_rot28 hk, Instr.reads, Instr.readsSchedule, Instr.lengthErrors,
    Instr.indexErrors, h]

theorem effect_rot28 {s : State} {d : Reg} {k : Fin 4} (hk : k.val = 1 ∨ k.val = 2) (h : s.lenOf d = 7) :
    (Instr.rot28 d k).effect s = .write d 7 (leftJustify (rot28 (s.value d 56) k.val)) :=
  effect_of_no_errors ((errorsInOrder_rot28 hk (by omega)).trans (if_pos h))

theorem effect_rot28_of_amount {k : Fin 4} (hk : k.val = 0 ∨ k.val = 3) (d : Reg) (s : State) :
    (Instr.rot28 d k).effect s = .raise .rotateAmount := by
  rw [effect_eq_raise_iff, head_errorsInOrder_rot28, ← rotateAmount_illegal_iff]
  exact hk

theorem effect_rot28_of_length {s : State} {d : Reg} {k : Fin 4} (hk : k.val = 1 ∨ k.val = 2) (hlen : s.lenOf d ≠ 0)
    (h : s.lenOf d ≠ 7) : (Instr.rot28 d k).effect s = .raise .operandLength :=
  effect_of_errors ((errorsInOrder_rot28 hk hlen).trans (if_neg h))

/-- A bit of a register's value is that bit of the register (10_state.md R22). -/
theorem getMsbD_value (s : State) (r : Reg) {n p : Nat} (hn : n ≤ 64) (hp : p < n) :
    (s.value r n).getMsbD p = s.bit r p := by
  simp [State.value, getMsbD_leadingBits hn, State.bit, hp]

theorem rot28_writes_turned_halves {s : State} {d : Reg} {k : Fin 4} (hk : k.val = 1 ∨ k.val = 2)
    (h : s.lenOf d = 7) : Writes (.rot28 d k) s d 7
      (fun p => if p < 28 then s.bit d ((p + k.val) % 28) else s.bit d (28 + (p - 28 + k.val) % 28)) := by
  refine (writes_of_effect (effect_rot28 hk h)).congr_value fun p (hp : p < 56) => ?_
  have hvalue {q : Nat} (hq : q < 56) : (s.value d 56).getMsbD q = s.bit d q := getMsbD_value s d (by decide) hq
  rw [getMsbD_leftJustify (by decide), getMsbD_rot28 _ _ hp, hvalue (by omega), hvalue (by omega)]

/-- ROT28 of a register whose storage is known. -/
theorem rot28_leaves {s : State} {d : Reg} {k : Fin 4} {x : Block} (hk : k.val = 1 ∨ k.val = 2)
    (hreg : s.reg d = { storage := x, len := 7 }) :
    Leaves (.rot28 d k) s d { storage := leftJustify (rot28 (leadingBits 56 x) k.val), len := 7 } := by
  have hlen : s.lenOf d = 7 := congrArg (fun r => r.len.val) hreg
  have hleaves := leaves_of_effect (effect_rot28 hk hlen)
  rwa [keepBytes_leftJustify 7 (by decide), State.value, State.storage, hreg] at hleaves

end Sys2Proof.Machine

namespace Sys2Proof

open Machine Claims

/-! ## The obligations -/

/-- Settles O36, from the bits of each half. -/
theorem rotatorTurnsEachHalfAlone : Obligations.RotatorTurnsEachHalfAlone := fun cd k _ _ hi =>
  ⟨getMsbD_rot28_left cd k hi, getMsbD_rot28_right cd k hi⟩

/-- Settles O37: each patch puts the wrapped bits where the 28-bit rotation has them. -/
theorem foldTechniqueAgreesWithTheRotation : Obligations.FoldTechniqueAgreesWithTheRotation := by
  intro cd k hk
  rw [halfC_rot28, halfD_rot28]
  exact ⟨foldLeft28_eq_rotateLeft _ hk, foldRight28_eq_rotateLeft _ hk⟩

/-- Settles O38: rotations add up to one, and a rotation only turns the positions of each half. -/
theorem rotatorProperties : Obligations.RotatorProperties := by
  refine ⟨fun x => rot28_rot28 x 1 1, fun x => ⟨?_, ?_, ?_⟩, fun x y k _ => ⟨?_, ?_⟩, fun x k _ => ⟨?_, ?_⟩⟩
  · rw [iterate_rot28, rot28_period]
  · rw [iterate_rot28, rot28_period]
  · have hsum : ((List.range 16).map shiftOf).sum = 28 := by decide
    rw [foldl_rot28, hsum, rot28_period]
  · intro h
    rw [halfC_rot28, halfC_rot28, h]
  · intro h
    rw [halfD_rot28, halfD_rot28, h]
  · rw [← length_filter_range_rotate x.getMsbD 28 k]
    exact congrArg List.length (List.filter_congr fun i hi => getMsbD_rot28_left x k (List.mem_range.mp hi))
  · rw [← length_filter_range_rotate (fun i => x.getMsbD (28 + i)) 28 k]
    exact congrArg List.length (List.filter_congr fun i hi => getMsbD_rot28_right x k (List.mem_range.mp hi))

/-- Settles O39: past its three checks ROT28 writes its register with both halves turned. -/
theorem rot28RotatesTheRegister : Obligations.Rot28RotatesTheRegister := by
  refine ⟨encodedAs_of_row (o := .rot28) fun _ => rfl, fun _ _ _ => rot28_writes_turned_halves,
    fun d k s hk => raises_of_effect (effect_rot28_of_amount hk d s),
    fun d k s hk h => raises_of_effect (effect_of_empty_read (fieldError_rot28 hk d) List.mem_cons_self h),
    fun _ _ _ hk hlen h => raises_of_effect (effect_rot28_of_length hk hlen h), ?_, rfl,
    fun s hreg => ?_, fun s hreg => ?_⟩
  · rintro k (rfl | rfl) <;> decide
  · have hvalue : leftJustify (rot28 (leadingBits 56 0xF0CCAAF556678F00#64) 1) = 0xE19955FAACCF1E00#64 := by
      decide +kernel
    exact hvalue ▸ rot28_leaves (k := 1) (.inl rfl) hreg
  · have hvalue : leftJustify (rot28 (leadingBits 56 0xE19955FAACCF1E00#64) 1) = 0xC332ABF5599E3D00#64 := by
      decide +kernel
    exact hvalue ▸ rot28_leaves (k := 1) (.inl rfl) hreg

end Sys2Proof
end

section
/-! The key schedule (44_key_schedule.md): CD after any number of rounds as one rotation of CD_0, the round keys bit by
bit, and what LDK and RKRD do. -/

namespace Sys2Proof.Machine

/-! ## CD -/

/-- A bit of CD_0 is a bit of the key (R191). -/
theorem getMsbD_cdAfter_zero (key : Block) {i : Nat} (hi : i < 56) :
    (cdAfter key 0).getMsbD i = key.getMsbD (tablePC1.getD i 0) :=
  getMsbD_permute tablePC1 rfl key i hi

/-- The rotations of the first n rounds are one rotation of CD_0 by the sum of their amounts. -/
theorem cdAfter_eq_rot28 (key : Block) (n : Nat) :
    cdAfter key n = rot28 (cdAfter key 0) ((List.range n).map shiftOf).sum := by
  induction n with
  | zero => exact (rot28_zero _).symm
  | succ n ih =>
    calc cdAfter key (n + 1)
      _ = rot28 (rot28 (cdAfter key 0) ((List.range n).map shiftOf).sum) (shiftOf n) :=
        congrArg (rot28 · (shiftOf n)) ih
      _ = rot28 (cdAfter key 0) ((List.range (n + 1)).map shiftOf).sum := by
        rw [rot28_rot28, List.range_succ, List.map_append, List.sum_append, List.map_singleton, List.sum_singleton]

/-- Over the sixteen rounds each half turns once around (R190). -/
theorem sum_map_shiftOf : ((List.range 16).map shiftOf).sum = 28 := by decide

/-- CD ends where it began (R194). -/
theorem cdAfter_sixteen (key : Block) : cdAfter key 16 = cdAfter key 0 := by
  rw [cdAfter_eq_rot28, sum_map_shiftOf, rot28_period]

/-- The schedule of a key depends on its CD_0 alone. -/
theorem scheduleOf_congr {k k' : Block} (h : cdAfter k 0 = cdAfter k' 0) : scheduleOf k = scheduleOf k' := by
  have hcd (n : Nat) : cdAfter k n = cdAfter k' n := by rw [cdAfter_eq_rot28, h, ← cdAfter_eq_rot28]
  simp only [scheduleOf, roundKeyOf, hcd]

/-! ## Round keys bit by bit -/

/-- The position in the key of bit j of round key r: PC2[j] turned within its half by the amounts of rounds 0 to r, and
then looked up in PC1 (R190, R191). -/
def keyPosition (r j : Nat) : Nat :=
  let q := tablePC2.getD j 0
  let turned := ((List.range (r + 1)).map shiftOf).sum
  tablePC1.getD (if q < 28 then (q + turned) % 28 else 28 + (q - 28 + turned) % 28) 0

theorem getD_tablePC1_lt : ∀ i < 56, tablePC1.getD i 0 < 64 := by decide

theorem getD_tablePC2_lt : ∀ j < 48, tablePC2.getD j 0 < 56 := by decide

theorem keyPosition_lt (r j : Nat) : keyPosition r j < 64 :=
  getD_tablePC1_lt _ (by split <;> omega)

/-- A bit of round key r is the bit of CD_(r+1) that PC-2 picks (R191). -/
theorem getMsbD_roundKeyOf (key : Block) (r : Nat) {j : Nat} (hj : j < 48) :
    (roundKeyOf key r).getMsbD j = (cdAfter key (r + 1)).getMsbD (tablePC2.getD j 0) :=
  getMsbD_permute tablePC2 rfl _ j hj

/-- A bit of a round key is a bit of the key. -/
theorem getMsbD_roundKeyOf_eq_key_bit (key : Block) (r : Nat) {j : Nat} (hj : j < 48) :
    (roundKeyOf key r).getMsbD j = key.getMsbD (keyPosition r j) := by
  rw [getMsbD_roundKeyOf key r hj, cdAfter_eq_rot28, getMsbD_rot28 _ _ (getD_tablePC2_lt j hj), ← apply_ite,
    getMsbD_cdAfter_zero key (by split <;> omega), keyPosition]

theorem roundKeyOf_zero (r : Nat) : roundKeyOf 0 r = 0 := by
  apply BitVec.eq_of_getMsbD_eq
  intro j hj
  exact (getMsbD_roundKeyOf_eq_key_bit 0 r hj).trans (BitVec.getMsbD_zero.trans BitVec.getMsbD_zero.symm)

theorem roundKeyOf_allOnes (r : Nat) : roundKeyOf (BitVec.allOnes 64) r = BitVec.allOnes 48 := by
  apply BitVec.eq_of_getMsbD_eq
  intro j hj
  rw [getMsbD_roundKeyOf_eq_key_bit _ r hj, BitVec.getMsbD_allOnes, BitVec.getMsbD_allOnes, decide_eq_true hj,
    decide_eq_true (keyPosition_lt r j)]

/-! ## Parity (R193) -/

/-- PC-1 reads no parity position. -/
theorem mod_eight_of_mem_tablePC1 : ∀ q ∈ tablePC1, q % 8 ≠ 7 := by decide

theorem getD_tablePC1_mem : ∀ i < 56, tablePC1.getD i 0 ∈ tablePC1 := by decide

/-- Keys that differ in parity bits only have the same CD_0. -/
theorem cdAfter_zero_congr {k k' : Block} (h : ∀ p < 64, p % 8 ≠ 7 → k.getMsbD p = k'.getMsbD p) :
    cdAfter k 0 = cdAfter k' 0 := by
  apply BitVec.eq_of_getMsbD_eq
  intro i hi
  rw [getMsbD_cdAfter_zero k hi, getMsbD_cdAfter_zero k' hi]
  exact h _ (getD_tablePC1_lt i hi) (mod_eight_of_mem_tablePC1 _ (getD_tablePC1_mem i hi))

/-! ## The example key of the rules -/

theorem roundKeyOf_example_first : roundKeyOf 0x133457799BBCDFF1#64 0 = 0x1B02EFFC7072#48 := by decide +kernel

theorem roundKeyOf_example_last : roundKeyOf 0x133457799BBCDFF1#64 15 = 0xCB3D8B0E17F5#48 := by decide +kernel

/-! ## LDK -/

theorem effect_ldk (s : State) : (Instr.ldk 8).effect s = .loadKey s.din :=
  effect_of_no_errors (errorsInOrder_ldk 8 s)

theorem effect_ldk_of_length {n : Fin 16} (h : n.val ≠ 8) (s : State) :
    (Instr.ldk n).effect s = .raise .invalidKeyLength :=
  effect_of_errors ((errorsInOrder_ldk n s).trans (if_neg h))

/-- What LDK with N = 8 leaves: KEY, CD and the schedules of din, SV = 1, and nothing else changed (R195). -/
theorem ldk_next (s : State) : ∃ t, exec (.ldk 8) s = .next t ∧ t.inst = instanceOf s.din ∧
    t.status = s.status.setSV ∧ SameRegs s t ∧ SamePort s t ∧ Returned 0 0 0 s t := by
  rw [exec_eq_run, effect_ldk]
  exact ⟨_, rfl, rfl, rfl, fun _ => rfl, ⟨rfl, rfl, rfl⟩, rfl⟩

theorem ldk_raises {n : Fin 16} (h : n.val ≠ 8) (s : State) : Raises (.ldk n) s .invalidKeyLength :=
  raises_of_effect (effect_ldk_of_length h s)

/-- The host's move that presents LDK 8 with a key loads the key. -/
theorem afterMove_ldk (s : State) (key : Block) : afterMove s (.command 0x44000008#32 key) =
    (Effect.loadKey key).run (s.accept key s.pending) := by
  rw [afterMove_command, wordEffect_eq_loadKey_iff.mpr ⟨rfl, rfl⟩, State.din_accept]

/-! ## RKRD -/

theorem effect_rkrd {s : State} (h : s.status.sv = true) (d : Reg) (dir : Direction) (idx : Fin 16) :
    (Instr.rkrd d dir idx).effect s = .write d 6 (leftJustify (roundKeyAt (scheduleFor dir s.inst) idx)) :=
  effect_of_no_errors (errorsInOrder_rkrd h d dir idx)

theorem effect_rkrd_of_no_schedule {s : State} (h : s.status.sv = false) (d : Reg) (dir : Direction) (idx : Fin 16) :
    (Instr.rkrd d dir idx).effect s = .raise .noSchedule :=
  effect_of_errors (errorsInOrder_of_no_schedule rfl h fun _ hr => absurd hr List.not_mem_nil)

theorem rkrd_writes {s : State} (h : s.status.sv = true) (d : Reg) (dir : Direction) (idx : Fin 16) :
    Writes (.rkrd d dir idx) s d 6 (roundKeyAt (scheduleFor dir s.inst) idx).getMsbD :=
  (writes_of_effect (effect_rkrd h d dir idx)).congr_value fun p _ => getMsbD_leftJustify (by decide) _ p

/-- RKRD of a round key whose value is known. -/
theorem rkrd_leaves {s : State} {dir : Direction} {idx : Fin 16} {k : RoundKey} (h : s.status.sv = true) (d : Reg)
    (hk : roundKeyAt (scheduleFor dir s.inst) idx = k) :
    Leaves (.rkrd d dir idx) s d { storage := leftJustify k, len := 6 } := by
  have hleaves := leaves_of_effect (effect_rkrd h d dir idx)
  rwa [keepBytes_leftJustify 6 (by decide), hk] at hleaves

end Sys2Proof.Machine

namespace Sys2Proof

open Machine Claims

/-! ## The obligations -/

/-- Settles O40: CD_(r+1) is one rotation of CD_0, so PC-2, the turned position and PC-1 pick one bit of the key. -/
theorem roundKeysAreBitsOfTheKey : Obligations.RoundKeysAreBitsOfTheKey :=
  ⟨by decide, sum_map_shiftOf, fun key => ⟨fun _ hi => getMsbD_cdAfter_zero key hi, fun _ _ => rfl,
    fun r _ _ hj => getMsbD_roundKeyOf key r hj, fun r _ _ hj => getMsbD_roundKeyOf_eq_key_bit key r hj⟩⟩

/-- Settles O41: LDK leaves what it builds from din, and its schedules are read entry by entry. -/
theorem ldkBuildsTheInstance : Obligations.LdkBuildsTheInstance := by
  refine ⟨encodedAs_of_row (o := .ldk) fun _ => rfl, fun s => ?_, fun n s h => ldk_raises h s, rfl, fun s hdin => ?_⟩
  · obtain ⟨t, ht, hinst, hstatus, hregs, hport, hret⟩ := ldk_next s
    refine ⟨t, ht, ?_, ?_, fun r => ⟨?_, ?_⟩, hstatus, hregs, hport, hret⟩
    · rw [hinst, instanceOf]
    · rw [hinst, instanceOf]
    · rw [hinst, instanceOf, roundKeyAt_scheduleOf]
    · rw [hinst, instanceOf, roundKeyAt_reverseSchedule]
  · obtain ⟨t, ht, hinst, hstatus, -⟩ := ldk_next s
    rw [hdin] at hinst
    refine ⟨t, ht, ?_, ?_, ?_⟩
    · rw [hstatus, Status.setSV]
    · rw [hinst, instanceOf, roundKeyAt_scheduleOf]
      exact roundKeyOf_example_first
    · rw [hinst, instanceOf, roundKeyAt_scheduleOf]
      exact roundKeyOf_example_last

/-- Settles O42: the schedule depends on CD_0 alone, and PC-1 reads no parity position. -/
theorem parityBitsTakeNoPart : Obligations.ParityBitsTakeNoPart := by
  refine ⟨mod_eight_of_mem_tablePC1, fun k k' h => ?_, fun s => ?_, by decide +kernel, by decide +kernel⟩
  · exact ⟨cdAfter_zero_congr h, scheduleOf_congr (cdAfter_zero_congr h)⟩
  · obtain ⟨t, ht, hinst, -, -, -, hret⟩ := ldk_next s
    exact ⟨t, ht, hret, congrArg CipherInstance.rk hinst⟩

/-- Settles O43: what LDK builds is a function of din, the rotations add up to a full turn, and each bit of a round key is
a bit of the key. -/
theorem scheduleProperties : Obligations.ScheduleProperties := by
  refine ⟨fun s s' hdin => ?_, cdAfter_sixteen, fun r _ => ⟨roundKeyOf_zero r, roundKeyOf_allOnes r⟩⟩
  obtain ⟨t, ht, hinst, -⟩ := ldk_next s
  obtain ⟨t', ht', hinst', -⟩ := ldk_next s'
  exact ⟨t, t', ht, ht', by rw [hinst, hinst', hdin]⟩

/-- Settles O44: a presented LDK 8 loads its key whatever was there before, and one that fails raises its error alone. -/
theorem rekeyingReplacesTheInstance : Obligations.RekeyingReplacesTheInstance := by
  refine ⟨fun s key _ => ?_, fun s k1 k2 hinst _ => ?_, fun n s h => ?_⟩
  · rw [afterMove_ldk]
    exact ⟨rfl, rfl, fun _ => rfl⟩
  · rw [afterMove_ldk, hinst]
    rfl
  · obtain ⟨t, ht, -, hinst, -, -, -, hsv, -⟩ := ldk_raises h s
    exact ⟨t, ht, hinst, hsv⟩

/-- Settles O45: past its one check RKRD writes the left-justified round key, and a reversed schedule holds at IDX what
the other holds at 15 - IDX. -/
theorem rkrdReadsTheRoundKey : Obligations.RkrdReadsTheRoundKey := by
  refine ⟨encodedAs_of_row (o := .rkrd) fun _ => rfl,
    fun d idx s hsv => ⟨rkrd_writes hsv d .fwd idx, rkrd_writes hsv d .rev idx⟩,
    fun d dir idx s hsv => raises_of_effect (effect_rkrd_of_no_schedule hsv d dir idx),
    fun d idx s hsv hrev => ⟨_, rkrd_leaves hsv d (hrev hsv idx), rkrd_leaves hsv d rfl⟩, rfl, rfl,
    fun s hsv hinst => ⟨rkrd_leaves (k := 0x1B02EFFC7072#48) hsv 2 ?_,
      rkrd_leaves (k := 0xCB3D8B0E17F5#48) hsv 2 ?_⟩⟩
  · rw [hinst, scheduleFor, instanceOf, roundKeyAt_scheduleOf]
    exact roundKeyOf_example_first
  · rw [hinst, scheduleFor, instanceOf, roundKeyAt_reverseSchedule, roundKeyAt_scheduleOf]
    exact roundKeyOf_example_last

end Sys2Proof
end

section
/-! The Feistel unit (45_feistel.md): the S-boxes lane by lane, the round function and the round, and what XOR, SBOX,
FFN and FROUND do. -/

namespace Sys2Proof.Machine

/-! ## The S-box lanes (R211, R212) -/

theorem getMsbD_groupAt (x : BitVec 48) (i : Fin 8) {k : Nat} (hk : k < 6) :
    (groupAt x i).getMsbD k = x.getMsbD (6 * i.val + k) := by
  have hlow : 42 - 6 * i.val + 6 - k ≤ 48 := by omega
  have hpos : 48 - (42 - 6 * i.val + 6 - k) = 6 * i.val + k := by omega
  simp [groupAt, BitVec.getMsbD_extractLsb', hk, hlow, hpos]

/-- The row is read from the outer bits, the first of them high. -/
theorem val_groupRow : ∀ g : BitVec 6, (groupRow g).val = 2 * (g.getMsbD 0).toNat + (g.getMsbD 5).toNat := by decide

/-- The column is read from the inner bits, the first of them most significant. -/
theorem val_groupCol : ∀ g : BitVec 6, (groupCol g).val =
    8 * (g.getMsbD 1).toNat + 4 * (g.getMsbD 2).toNat + 2 * (g.getMsbD 3).toNat + (g.getMsbD 4).toNat := by decide

/-- A lane looks its box up at the row and the column that the six bits of its group give. -/
theorem sboxLane_eq_getD (x : BitVec 48) (i : Fin 8) :
    let g := fun k => (x.getMsbD (6 * i.val + k)).toNat
    sboxLane x i =
      ((sboxOf i).getD (2 * g 0 + g 5) []).getD (8 * g 1 + 4 * g 2 + 2 * g 3 + g 4) 0 := by
  simp [sboxLane, sboxEntry, val_groupRow, val_groupCol, getMsbD_groupAt]

/-- A lane depends on its group alone. -/
theorem sboxLane_congr {x y : BitVec 48} {i : Fin 8}
    (h : ∀ k < 6, x.getMsbD (6 * i.val + k) = y.getMsbD (6 * i.val + k)) : sboxLane x i = sboxLane y i := by
  have hgroup : groupAt x i = groupAt y i := by
    apply BitVec.eq_of_getMsbD_eq
    intro k hk
    rw [getMsbD_groupAt x i hk, getMsbD_groupAt y i hk, h k hk]
  rw [sboxLane, hgroup, sboxLane]

/-- Nibble i of the S-box output is lane i. The width is written as the sum the concatenation has, so that the lanes
before and after i come off one by one. -/
theorem getMsbD_sbox (x : BitVec 48) (i : Fin 8) {j : Nat} (hj : j < 4) :
    (sbox x).getMsbD (4 * i.val + j) = (sboxLane x i).getMsbD j := by
  change BitVec.getMsbD (w := 4 + 4 + 4 + 4 + 4 + 4 + 4 + 4) (sbox x) (4 * i.val + j) = (sboxLane x i).getMsbD j
  rw [sbox]
  fin_cases i <;> simp (disch := omega) only [BitVec.getMsbD_append, if_neg, if_pos] <;>
    exact congrArg (BitVec.getMsbD _) (by omega)

/-! ## The round function and the round (R214, R216) -/

theorem getMsbD_leftHalf (b : Block) {p : Nat} (hp : p < 32) : (leftHalf b).getMsbD p = b.getMsbD p := by
  have hpos : 64 - (64 - p) = p := by omega
  simp [leftHalf, BitVec.getMsbD_extractLsb', hp, hpos]

theorem getMsbD_rightHalf (b : Block) {p : Nat} (hp : p < 32) : (rightHalf b).getMsbD p = b.getMsbD (32 + p) := by
  have hlow : 32 - p ≤ 64 := by omega
  have hpos : 64 - (32 - p) = 32 + p := by omega
  simp [rightHalf, BitVec.getMsbD_extractLsb', hp, hlow, hpos]

@[simp] theorem leftHalf_feistelRound (b : Block) (k : RoundKey) : leftHalf (feistelRound b k) = rightHalf b :=
  leftHalf_append _ _

@[simp] theorem rightHalf_feistelRound (b : Block) (k : RoundKey) :
    rightHalf (feistelRound b k) = leftHalf b ^^^ roundFunction (rightHalf b) k :=
  rightHalf_append _ _

/-- The old right half stands in the output, so f of it can be taken off the new right half again (R218). -/
theorem feistelRound_undone (b : Block) (k : RoundKey) : rightHalf b = leftHalf (feistelRound b k) ∧
    leftHalf b = rightHalf (feistelRound b k) ^^^ roundFunction (leftHalf (feistelRound b k)) k := by
  rw [leftHalf_feistelRound, rightHalf_feistelRound, BitVec.xor_assoc, BitVec.xor_self, BitVec.xor_zero]
  exact ⟨rfl, rfl⟩

/-! ## The values of registers -/

theorem value_of_valueIs {n : Nat} {s : State} {r : Reg} {v : BitVec n} (h : Claims.ValueIs s r v) :
    s.value r n = v := by
  obtain ⟨hlen, hbits⟩ := h
  have hn : n ≤ 64 := by
    have hle : s.lenOf r ≤ 8 := Nat.le_of_lt_succ (s.reg r).len.isLt
    omega
  apply BitVec.eq_of_getMsbD_eq
  intro p hp
  rw [getMsbD_value s r hn hp, hbits p hp]

theorem lenOf_of_valueIs {n : Nat} {s : State} {r : Reg} {v : BitVec n} (h : Claims.ValueIs s r v) :
    8 * s.lenOf r = n := by
  obtain ⟨hlen, -⟩ := h
  exact hlen

theorem lenOf_of_reg {s : State} {r : Reg} {x : Block} {len : Fin 9} (h : s.reg r = { storage := x, len := len }) :
    s.lenOf r = len.val :=
  congrArg (fun q => q.len.val) h

theorem value_of_reg {s : State} {r : Reg} {x : Block} {len : Fin 9} (h : s.reg r = { storage := x, len := len })
    (n : Nat) : s.value r n = leadingBits n x :=
  congrArg (fun q : DataReg => leadingBits n q.storage) h

/-! ## What the commands of the unit have in common -/

/-- Where no operand is empty, only the lengths are left to check for an instruction that has no field of its own to
check, reads no schedule and names no position (60_exceptions.md R305). -/
theorem errorsInOrder_eq_lengthErrors {i : Instr} {s : State} (hfield : i.fieldError = none)
    (hsched : i.readsSchedule = false) (hindex : i.indexErrors s = []) (hlen : ∀ r ∈ i.reads, s.lenOf r ≠ 0) :
    i.errorsInOrder s = i.lengthErrors s := by
  have hempty : i.reads.filter (fun r => decide (s.lenOf r = 0)) = [] :=
    List.filter_eq_nil_iff.mpr fun r hr => by simp [hlen r hr]
  simp [Instr.errorsInOrder, hfield, hempty, hsched, hindex]

/-- Two operands that are not empty. -/
theorem forall_mem_pair_lenOf_ne_zero {s : State} {a b : Reg} (ha : s.lenOf a ≠ 0) (hb : s.lenOf b ≠ 0) :
    ∀ r ∈ [a, b], s.lenOf r ≠ 0 :=
  List.forall_mem_cons.mpr ⟨ha, List.forall_mem_singleton.mpr hb⟩

/-- Of two operands either raises EmptyOperand. -/
theorem raises_of_empty_pair {i : Instr} {s : State} {a b : Reg} (hfield : i.fieldError = none)
    (hreads : i.reads = [a, b]) (h : s.lenOf a = 0 ∨ s.lenOf b = 0) : Raises i s .emptyOperand := by
  rcases h with ha | hb
  · exact raises_of_effect (effect_of_empty_read hfield (by simp [hreads]) ha)
  · exact raises_of_effect (effect_of_empty_read hfield (by simp [hreads]) hb)

/-- What an instruction leaves that writes an n-bit value. -/
theorem writes_of_effect_leftJustify {i : Instr} {s : State} {d : Reg} {len : Fin 9} {n : Nat} {v : BitVec n}
    (hn : n ≤ 64) (h : i.effect s = .write d len (leftJustify v)) : Writes i s d len.val v.getMsbD :=
  (writes_of_effect h).congr fun p _ => getMsbD_leftJustify hn v p

theorem leaves_of_effect_leftJustify {i : Instr} {s : State} {d : Reg} {len : Fin 9} {n : Nat} {v : BitVec n}
    (hn : n ≤ 8 * len.val) (h : i.effect s = .write d len (leftJustify v)) :
    Leaves i s d { storage := leftJustify v, len := len } := by
  have hleaves := leaves_of_effect h
  rwa [keepBytes_leftJustify len hn] at hleaves

/-! ## XOR -/

theorem errorsInOrder_xor {s : State} {a b : Reg} (ha : s.lenOf a ≠ 0) (hb : s.lenOf b ≠ 0) (d : Reg) :
    (Instr.xor d a b).errorsInOrder s = if s.lenOf a = s.lenOf b then [] else [.operandLength] :=
  errorsInOrder_eq_lengthErrors rfl rfl rfl (forall_mem_pair_lenOf_ne_zero ha hb)

theorem effect_xor {s : State} {a b : Reg} (ha : s.lenOf a ≠ 0) (h : s.lenOf b = s.lenOf a) (d : Reg) :
    (Instr.xor d a b).effect s = .write d (s.reg a).len (s.storage a ^^^ s.storage b) :=
  effect_of_no_errors ((errorsInOrder_xor ha (h.trans_ne ha) d).trans (if_pos h.symm))

theorem effect_xor_of_lengths {s : State} {a b : Reg} (ha : s.lenOf a ≠ 0) (hb : s.lenOf b ≠ 0)
    (h : s.lenOf a ≠ s.lenOf b) (d : Reg) : (Instr.xor d a b).effect s = .raise .operandLength :=
  effect_of_errors ((errorsInOrder_xor ha hb d).trans (if_neg h))

theorem xor_writes_bits {s : State} {a b : Reg} (ha : s.lenOf a ≠ 0) (h : s.lenOf b = s.lenOf a) (d : Reg) :
    Writes (.xor d a b) s d (s.lenOf a) (fun p => s.bit a p ^^ s.bit b p) :=
  (writes_of_effect (effect_xor ha h d)).congr fun _ _ => BitVec.getMsbD_xor

/-! ## SBOX -/

theorem errorsInOrder_sbox {s : State} {a : Reg} (ha : s.lenOf a ≠ 0) (d : Reg) :
    (Instr.sbox d a).errorsInOrder s = if s.lenOf a = 6 then [] else [.operandLength] :=
  errorsInOrder_eq_lengthErrors rfl rfl rfl (fun _ hr => List.mem_singleton.mp hr ▸ ha)

theorem effect_sbox {s : State} {a : Reg} (h : s.lenOf a = 6) (d : Reg) :
    (Instr.sbox d a).effect s = .write d 4 (leftJustify (sbox (s.value a 48))) :=
  effect_of_no_errors ((errorsInOrder_sbox (by omega) d).trans (if_pos h))

theorem effect_sbox_of_length {s : State} {a : Reg} (ha : s.lenOf a ≠ 0) (h : s.lenOf a ≠ 6) (d : Reg) :
    (Instr.sbox d a).effect s = .raise .operandLength :=
  effect_of_errors ((errorsInOrder_sbox ha d).trans (if_neg h))

theorem sbox_writes {s : State} {a : Reg} {x : BitVec 48} (h : Claims.ValueIs s a x) (d : Reg) :
    Writes (.sbox d a) s d 4 (sbox x).getMsbD := by
  have hlen := lenOf_of_valueIs h
  rw [← value_of_valueIs h]
  exact writes_of_effect_leftJustify (by decide) (effect_sbox (by omega) d)

/-! ## FFN -/

theorem errorsInOrder_ffn {s : State} {a b : Reg} (ha : s.lenOf a ≠ 0) (hb : s.lenOf b ≠ 0) (d : Reg) :
    (Instr.ffn d a b).errorsInOrder s =
      (if s.lenOf a = 4 then [] else [.operandLength]) ++ (if s.lenOf b = 6 then [] else [.operandLength]) :=
  errorsInOrder_eq_lengthErrors rfl rfl rfl (forall_mem_pair_lenOf_ne_zero ha hb)

theorem effect_ffn {s : State} {a b : Reg} (ha : s.lenOf a = 4) (hb : s.lenOf b = 6) (d : Reg) :
    (Instr.ffn d a b).effect s = .write d 4 (leftJustify (roundFunction (s.value a 32) (s.value b 48))) := by
  apply effect_of_no_errors
  rw [errorsInOrder_ffn (by omega) (by omega), if_pos ha, if_pos hb, List.append_nil]

theorem effect_ffn_of_length {s : State} {a b : Reg} (ha : s.lenOf a ≠ 0) (hb : s.lenOf b ≠ 0)
    (h : s.lenOf a ≠ 4 ∨ s.lenOf b ≠ 6) (d : Reg) : (Instr.ffn d a b).effect s = .raise .operandLength := by
  have herr := errorsInOrder_ffn ha hb d
  by_cases h4 : s.lenOf a = 4
  · rw [if_pos h4, if_neg (h.resolve_left (not_not_intro h4))] at herr
    exact effect_of_errors herr
  · rw [if_neg h4] at herr
    exact effect_of_errors herr

theorem ffn_writes {s : State} {a b : Reg} {r : Half} {k : RoundKey} (hr : Claims.ValueIs s a r)
    (hk : Claims.ValueIs s b k) (d : Reg) : Writes (.ffn d a b) s d 4 (roundFunction r k).getMsbD := by
  have ha := lenOf_of_valueIs hr
  have hb := lenOf_of_valueIs hk
  rw [← value_of_valueIs hr, ← value_of_valueIs hk]
  exact writes_of_effect_leftJustify (by decide) (effect_ffn (by omega) (by omega) d)

/-! ## FROUND -/

theorem errorsInOrder_fround {s : State} {a b : Reg} (ha : s.lenOf a ≠ 0) (hb : s.lenOf b ≠ 0) (d : Reg) :
    (Instr.fround d a b).errorsInOrder s =
      (if s.lenOf a = 8 then [] else [.invalidBlockLength]) ++ (if s.lenOf b = 6 then [] else [.operandLength]) :=
  errorsInOrder_eq_lengthErrors rfl rfl rfl (forall_mem_pair_lenOf_ne_zero ha hb)

theorem effect_fround {s : State} {a b : Reg} (ha : s.lenOf a = 8) (hb : s.lenOf b = 6) (d : Reg) :
    (Instr.fround d a b).effect s = .write d 8 (leftJustify (feistelRound (s.value a 64) (s.value b 48))) := by
  apply effect_of_no_errors
  rw [errorsInOrder_fround (by omega) (by omega), if_pos ha, if_pos hb, List.append_nil]

theorem effect_fround_of_block_length {s : State} {a b : Reg} (ha : s.lenOf a ≠ 0) (hb : s.lenOf b ≠ 0)
    (h : s.lenOf a ≠ 8) (d : Reg) : (Instr.fround d a b).effect s = .raise .invalidBlockLength := by
  have herr := errorsInOrder_fround ha hb d
  rw [if_neg h] at herr
  exact effect_of_errors herr

theorem effect_fround_of_key_length {s : State} {a b : Reg} (ha : s.lenOf a = 8) (hb : s.lenOf b ≠ 0)
    (h : s.lenOf b ≠ 6) (d : Reg) : (Instr.fround d a b).effect s = .raise .operandLength := by
  have herr := errorsInOrder_fround (a := a) (by omega) hb d
  rw [if_pos ha, if_neg h] at herr
  exact effect_of_errors herr

theorem fround_writes {s : State} {a b : Reg} {x : Block} {k : RoundKey} (hx : Claims.ValueIs s a x)
    (hk : Claims.ValueIs s b k) (d : Reg) : Writes (.fround d a b) s d 8 (feistelRound x k).getMsbD := by
  have ha := lenOf_of_valueIs hx
  have hb := lenOf_of_valueIs hk
  rw [← value_of_valueIs hx, ← value_of_valueIs hk]
  exact writes_of_effect_leftJustify (by decide) (effect_fround (by omega) (by omega) d)

end Sys2Proof.Machine

namespace Sys2Proof

open Machine Claims

/-! ## The obligations -/

/-- Settles O46: past its checks XOR writes the exclusive OR of the two storages, as many bytes as the source has. -/
theorem xorCombinesEqualLengths : Obligations.XorCombinesEqualLengths := by
  refine ⟨encodedAs_of_row (o := .xor) fun _ => rfl, fun d a b s ha h => xor_writes_bits ha h d,
    fun _ _ _ _ h => raises_of_empty_pair rfl rfl h,
    fun d a b s ha hb h => raises_of_effect (effect_xor_of_lengths ha hb h d), fun d a s h => xor_self_writes_zeros h,
    rfl, fun s h3 h2 => ?_⟩
  have hlen3 := lenOf_of_reg h3
  have hlen2 := lenOf_of_reg h2
  have hvalue : keepBytes 6 (0x7A15557A15550000#64 ^^^ 0x1B02EFFC70720000#64) = 0x6117BA8665270000#64 := by
    decide +kernel
  have hleaves := leaves_of_effect (effect_xor (by rw [hlen3]; decide) (hlen2.trans hlen3.symm) 3)
  rw [State.storage, State.storage, h3, h2] at hleaves
  exact hvalue ▸ hleaves

/-- Settles O47: each nibble is one lane, a lane reads its own group, and the rows are counted in the boxes. -/
theorem sboxLanesLookUpTheirGroup : Obligations.SboxLanesLookUpTheirGroup := by
  refine ⟨fun x i j hj => ?_, fun x y i h j hj => ?_, by decide +kernel⟩
  · rw [getMsbD_sbox x i hj, sboxLane_eq_getD]
  · rw [getMsbD_sbox x i hj, getMsbD_sbox y i hj, sboxLane_congr h]

/-- Settles O48: past its two checks SBOX writes the substituted value of its source. -/
theorem sboxSubstitutesSixBytes : Obligations.SboxSubstitutesSixBytes := by
  refine ⟨encodedAs_of_row (o := .sbox) fun _ => rfl, fun d a s x h => sbox_writes h d,
    fun d a s h => raises_of_effect (effect_of_empty_read rfl List.mem_cons_self h),
    fun d a s ha h => raises_of_effect (effect_sbox_of_length ha h d), by decide +kernel, by decide +kernel,
    by decide +kernel, by decide +kernel, rfl, fun s h3 => ?_⟩
  have hvalue : leftJustify (sbox (leadingBits 48 0x6117BA8665270000#64)) = 0x5C82B59700000000#64 := by decide +kernel
  have hleaves := leaves_of_effect_leftJustify (by decide) (effect_sbox (lenOf_of_reg h3) 4)
  rw [value_of_reg h3] at hleaves
  exact hvalue ▸ hleaves

/-- Settles O49: E and P pick bits by their tables, and a round's output is made of two halves. -/
theorem roundFunctionAndRound : Obligations.RoundFunctionAndRound := by
  refine ⟨fun r k => ⟨permute 48 tableE r, fun j hj => getMsbD_permute tableE rfl r j hj,
    fun p hp => getMsbD_permute tableP rfl _ p hp⟩, fun b k => ⟨leftHalf b, rightHalf b,
    fun p hp => ⟨getMsbD_leftHalf b hp, getMsbD_rightHalf b hp⟩, fun p hp => ⟨?_, ?_⟩⟩, feistelRound_undone⟩
  · rw [← getMsbD_leftHalf _ hp, leftHalf_feistelRound]
  · rw [← getMsbD_rightHalf _ hp, rightHalf_feistelRound]

/-- Settles O50: past its checks FFN writes f of the values of its two sources. -/
theorem ffnAppliesTheRoundFunction : Obligations.FfnAppliesTheRoundFunction := by
  refine ⟨encodedAs_of_row (o := .ffn) fun _ => rfl, fun d a b s r k hr hk => ffn_writes hr hk d,
    fun _ _ _ _ h => raises_of_empty_pair rfl rfl h,
    fun d a b s ha hb h => raises_of_effect (effect_ffn_of_length ha hb h d), by decide +kernel, by decide +kernel, rfl,
    fun s h1 h2 => ?_⟩
  have hvalue : leftJustify (roundFunction (leadingBits 32 0xF0AAF0AA00000000#64)
      (leadingBits 48 0x1B02EFFC70720000#64)) = 0x234AA9BB00000000#64 := by decide +kernel
  have hleaves := leaves_of_effect_leftJustify (by decide) (effect_ffn (lenOf_of_reg h1) (lenOf_of_reg h2) 5)
  rw [value_of_reg h1, value_of_reg h2] at hleaves
  exact hvalue ▸ hleaves

/-- Settles O51: past its checks, which tell a wrong block from a wrong key, FROUND writes the round of the values of
its two sources. -/
theorem froundAppliesOneRound : Obligations.FroundAppliesOneRound := by
  refine ⟨encodedAs_of_row (o := .fround) fun _ => rfl, fun d a b s x k hx hk => fround_writes hx hk d,
    fun _ _ _ _ h => raises_of_empty_pair rfl rfl h,
    fun d a b s ha hb h => raises_of_effect (effect_fround_of_block_length ha hb h d),
    fun d a b s ha hb h => raises_of_effect (effect_fround_of_key_length ha hb h d), by decide +kernel,
    feistelRound_undone, rfl, fun s h1 h2 => ?_⟩
  have hvalue : leftJustify (feistelRound (leadingBits 64 0xCC00CCFFF0AAF0AA#64)
      (leadingBits 48 0x1B02EFFC70720000#64)) = 0xF0AAF0AAEF4A6544#64 := by decide +kernel
  have hleaves := leaves_of_effect_leftJustify (by decide) (effect_fround (lenOf_of_reg h1) (lenOf_of_reg h2) 1)
  rw [value_of_reg h1, value_of_reg h2] at hleaves
  exact hvalue ▸ hleaves

end Sys2Proof
end

section
/-! The block cipher (46_block_cipher.md): swap, the rounds undone in reverse order, the four steps of the cipher, and
what SWAP, ENC and DEC do. -/

namespace Sys2Proof.Machine

/-! ## swap (R241) -/

@[simp] theorem leftHalf_swapHalves (b : Block) : leftHalf (swapHalves b) = rightHalf b := leftHalf_append _ _

@[simp] theorem rightHalf_swapHalves (b : Block) : rightHalf (swapHalves b) = leftHalf b := rightHalf_append _ _

@[simp] theorem swapHalves_swapHalves (b : Block) : swapHalves (swapHalves b) = b := by
  rw [swapHalves, leftHalf_swapHalves, rightHalf_swapHalves, append_halves]

theorem swapHalves_of_equal_halves {b : Block} (h : leftHalf b = rightHalf b) : swapHalves b = b :=
  calc swapHalves b
    _ = leftHalf b ++ rightHalf b := congrArg₂ (· ++ ·) h.symm h
    _ = b := append_halves b

theorem getMsbD_swapHalves (b : Block) {p : Nat} (hp : p < 32) :
    (swapHalves b).getMsbD p = b.getMsbD (32 + p) ∧ (swapHalves b).getMsbD (32 + p) = b.getMsbD p := by
  constructor
  · rw [← getMsbD_leftHalf _ hp, leftHalf_swapHalves, getMsbD_rightHalf b hp]
  · rw [← getMsbD_rightHalf _ hp, rightHalf_swapHalves, getMsbD_leftHalf b hp]

/-! ## The rounds (R243 step 2) -/

/-- A round takes its own output, halves exchanged, back to its input, halves exchanged: f of the same half and the same
key is added twice. -/
theorem feistelRound_swapHalves_feistelRound (b : Block) (k : RoundKey) :
    feistelRound (swapHalves (feistelRound b k)) k = swapHalves b := by
  rw [feistelRound, leftHalf_swapHalves, rightHalf_swapHalves, ← (feistelRound_undone b k).2,
    leftHalf_feistelRound, swapHalves]

/-- The rounds with the keys in reverse order undo the rounds, up to the exchange of the halves. -/
theorem runRounds_reverse_swapHalves_runRounds (keys : List RoundKey) (x : Block) :
    runRounds keys.reverse (swapHalves (runRounds keys x)) = swapHalves x := by
  induction keys generalizing x with
  | nil => rfl
  | cons k ks ih =>
    calc runRounds (k :: ks).reverse (swapHalves (runRounds (k :: ks) x))
      _ = feistelRound (runRounds ks.reverse (swapHalves (runRounds ks (feistelRound x k)))) k := by
        simp [runRounds]
      _ = swapHalves x := by rw [ih, feistelRound_swapHalves_feistelRound]

/-! ## The cipher (R243) and its inverse (R246) -/

/-- The block inside the cipher after IP and the first r rounds. -/
def afterRounds (b : Block) (k : Schedule) (r : Nat) : Block := runRounds (k.toList.take r) (permute 64 tableIP b)

theorem afterRounds_succ (b : Block) (k : Schedule) (r : Fin 16) :
    afterRounds b k (r.val + 1) = feistelRound (afterRounds b k r.val) (roundKeyAt k r) := by
  have hr : r.val < k.toList.length := by simp
  simp [afterRounds, runRounds, List.take_succ_eq_append_getElem hr, roundKeyAt]

theorem cipher_eq_permute_afterRounds (b : Block) (k : Schedule) :
    cipher b k = permute 64 tableFP (swapHalves (afterRounds b k 16)) := by
  rw [afterRounds, List.take_of_length_le (by simp), cipher]

/-- Two schedules with the same round keys are the same. -/
theorem schedule_ext {k k' : Schedule} (h : ∀ r, roundKeyAt k r = roundKeyAt k' r) : k = k' :=
  Vector.ext fun i hi => h ⟨i, hi⟩

theorem reverseSchedule_reverseSchedule (k : Schedule) : reverseSchedule (reverseSchedule k) = k :=
  schedule_ext fun r => by rw [roundKeyAt_reverseSchedule, roundKeyAt_reverseSchedule, Fin.rev_rev]

theorem toList_reverseSchedule (k : Schedule) : (reverseSchedule k).toList = k.toList.reverse :=
  List.ext_getElem (by simp) fun i _ _ => by simp [reverseSchedule]

/-- The cipher with the reversed schedule undoes the cipher: IP meets FP and swap meets swap. -/
theorem cipher_cipher_reverseSchedule (b : Block) (k : Schedule) : cipher (cipher b k) (reverseSchedule k) = b := by
  simp only [cipher, permute_tableIP_permute_tableFP, toList_reverseSchedule, runRounds_reverse_swapHalves_runRounds,
    swapHalves_swapHalves, permute_tableFP_permute_tableIP]

theorem cipher_reverseSchedule_cipher (b : Block) (k : Schedule) : cipher (cipher b (reverseSchedule k)) k = b := by
  have h := cipher_cipher_reverseSchedule b (reverseSchedule k)
  rwa [reverseSchedule_reverseSchedule] at h

/-! ## The key 0101010101010101 (R246) -/

/-- It has parity bits only, so its schedule is that of the key 0. -/
theorem scheduleOf_weakKey : scheduleOf 0x0101010101010101#64 = scheduleOf 0 :=
  scheduleOf_congr (cdAfter_zero_congr (by decide +kernel))

theorem reverseSchedule_scheduleOf_zero : reverseSchedule (scheduleOf 0) = scheduleOf 0 :=
  schedule_ext fun r => by
    rw [roundKeyAt_reverseSchedule, roundKeyAt_scheduleOf, roundKeyAt_scheduleOf, roundKeyOf_zero, roundKeyOf_zero]

theorem reverseSchedule_scheduleOf_weakKey :
    reverseSchedule (scheduleOf 0x0101010101010101#64) = scheduleOf 0x0101010101010101#64 := by
  rw [scheduleOf_weakKey, reverseSchedule_scheduleOf_zero]

theorem roundKeyOf_weakKey (r : Fin 16) : roundKeyOf 0x0101010101010101#64 r.val = 0 := by
  rw [← roundKeyAt_scheduleOf, scheduleOf_weakKey, roundKeyAt_scheduleOf, roundKeyOf_zero]

/-! ## Registers that hold a block -/

@[simp] theorem leftJustify_block (b : Block) : leftJustify b = b :=
  BitVec.eq_of_getMsbD_eq fun p _ => getMsbD_leftJustify (by decide) b p

@[simp] theorem leadingBits_block (b : Block) : leadingBits 64 b = b := by
  have h := leadingBits_leftJustify (by decide) b
  rwa [leftJustify_block] at h

@[simp] theorem keepBytes_block (b : Block) : keepBytes 8 b = b := by
  have h := keepBytes_leftJustify 8 (by decide) b
  rwa [leftJustify_block] at h

/-- A register holds a block when the block is its whole storage. -/
theorem valueIs_block_iff {s : State} {r : Reg} {b : Block} :
    Claims.ValueIs s r b ↔ s.reg r = { storage := b, len := 8 } := by
  constructor
  · intro h
    have hlen : (s.reg r).len = 8 := Fin.ext (Nat.eq_of_mul_eq_mul_left (by decide) (lenOf_of_valueIs h))
    have hstorage : (s.reg r).storage = b := (leadingBits_block _).symm.trans (value_of_valueIs h)
    rw [← hlen, ← hstorage]
  · intro h
    refine ⟨congrArg (8 * ·) (lenOf_of_reg h), fun p _ => ?_⟩
    rw [State.bit, State.storage, h]

/-! ## SWAP -/

theorem errorsInOrder_swap {s : State} {a : Reg} (ha : s.lenOf a ≠ 0) (d : Reg) :
    (Instr.swap d a).errorsInOrder s = if s.lenOf a = 8 then [] else [.invalidBlockLength] :=
  errorsInOrder_eq_lengthErrors rfl rfl rfl (fun _ hr => List.mem_singleton.mp hr ▸ ha)

theorem effect_swap {s : State} {a : Reg} (h : s.lenOf a = 8) (d : Reg) :
    (Instr.swap d a).effect s = .write d 8 (swapHalves (s.storage a)) := by
  rw [effect_of_no_errors ((errorsInOrder_swap (by omega) d).trans (if_pos h)), Instr.action, State.value,
    leadingBits_block, leftJustify_block]

theorem effect_swap_of_length {s : State} {a : Reg} (ha : s.lenOf a ≠ 0) (h : s.lenOf a ≠ 8) (d : Reg) :
    (Instr.swap d a).effect s = .raise .invalidBlockLength :=
  effect_of_errors ((errorsInOrder_swap ha d).trans (if_neg h))

theorem swap_writes {s : State} {a : Reg} (h : s.lenOf a = 8) (d : Reg) :
    Writes (.swap d a) s d 8 (fun p => if p < 32 then s.bit a (32 + p) else s.bit a (p - 32)) := by
  refine (writes_of_effect (effect_swap h d)).congr_value fun p (hp : p < 64) => ?_
  split
  · next hlow => exact (getMsbD_swapHalves (s.storage a) hlow).1
  · next hhigh =>
    have hbit := (getMsbD_swapHalves (s.storage a) (p := p - 32) (by omega)).2
    rwa [Nat.add_sub_of_le (Nat.le_of_not_lt hhigh)] at hbit

/-! ## ENC and DEC -/

/-- The command that runs the cipher with the schedule of a direction: ENC forward, DEC reversed. They differ in nothing
else (R245), so what they do is said once. -/
def blockCommand : Direction → Reg → Reg → Instr
  | .fwd => .enc
  | .rev => .dec

/-- The two checks past the empty operand, in their order (R244). -/
theorem errorsInOrder_blockCommand (dir : Direction) {s : State} {a : Reg} (ha : s.lenOf a ≠ 0) (d : Reg) :
    (blockCommand dir d a).errorsInOrder s =
      (if s.status.sv = true then [] else [.noSchedule]) ++
        (if s.lenOf a = 8 then [] else [.invalidBlockLength]) := by
  cases dir <;> cases hsv : s.status.sv <;>
    simp [blockCommand, Instr.errorsInOrder, Instr.fieldError, Instr.reads, Instr.readsSchedule, Instr.lengthErrors,
      Instr.indexErrors, ha, hsv]

theorem action_blockCommand (dir : Direction) (s : State) (d a : Reg) : (blockCommand dir d a).action s =
    .write d 8 (leftJustify (cipher (s.value a 64) (scheduleFor dir s.inst))) := by
  cases dir <;> rfl

theorem effect_blockCommand (dir : Direction) {s : State} {a : Reg} {b : Block} (hb : Claims.ValueIs s a b)
    (hsv : s.status.sv = true) (d : Reg) :
    (blockCommand dir d a).effect s = .write d 8 (cipher b (scheduleFor dir s.inst)) := by
  have hlen : s.lenOf a = 8 := lenOf_of_reg (valueIs_block_iff.mp hb)
  have herr := errorsInOrder_blockCommand dir (s := s) (a := a) (by omega) d
  rw [if_pos hsv, if_pos hlen] at herr
  rw [effect_of_no_errors herr, action_blockCommand, value_of_valueIs hb, leftJustify_block]

theorem effect_blockCommand_of_empty (dir : Direction) {s : State} {a : Reg} (h : s.lenOf a = 0) (d : Reg) :
    (blockCommand dir d a).effect s = .raise .emptyOperand := by
  cases dir with
  | fwd | rev => exact effect_of_empty_read rfl List.mem_cons_self h

theorem effect_blockCommand_of_no_schedule (dir : Direction) {s : State} {a : Reg} (ha : s.lenOf a ≠ 0)
    (hsv : s.status.sv = false) (d : Reg) : (blockCommand dir d a).effect s = .raise .noSchedule := by
  have herr := errorsInOrder_blockCommand dir ha d
  rw [hsv, if_neg Bool.false_ne_true] at herr
  exact effect_of_errors herr

theorem effect_blockCommand_of_length (dir : Direction) {s : State} {a : Reg} (ha : s.lenOf a ≠ 0)
    (hsv : s.status.sv = true) (h : s.lenOf a ≠ 8) (d : Reg) :
    (blockCommand dir d a).effect s = .raise .invalidBlockLength := by
  have herr := errorsInOrder_blockCommand dir ha d
  rw [if_pos hsv, if_neg h] at herr
  exact effect_of_errors herr

/-- What a block command leaves: the ciphered block in its destination, with the cipher data and SV as they were. -/
theorem blockCommand_next (dir : Direction) {s : State} {a : Reg} {b : Block} (hb : Claims.ValueIs s a b)
    (hsv : s.status.sv = true) (d : Reg) : ∃ t, exec (blockCommand dir d a) s = .next t ∧
      Claims.ValueIs t d (cipher b (scheduleFor dir s.inst)) ∧ t.inst = s.inst ∧ t.status.sv = true := by
  obtain ⟨t, ht, hreg, -, ⟨-, hinst, hstatus, -⟩, -⟩ := exec_of_effect_write (effect_blockCommand dir hb hsv d)
  rw [keepBytes_block] at hreg
  exact ⟨t, ht, valueIs_block_iff.mpr hreg, hinst, hstatus ▸ hsv⟩

/-- A block command on a register whose storage is known, where the cipher's value is known. -/
theorem blockCommand_leaves (dir : Direction) {s : State} {a : Reg} {b c : Block}
    (hb : s.reg a = { storage := b, len := 8 }) (hsv : s.status.sv = true)
    (hc : cipher b (scheduleFor dir s.inst) = c) (d : Reg) :
    Leaves (blockCommand dir d a) s d { storage := c, len := 8 } := by
  have hleaves := leaves_of_effect (effect_blockCommand dir (valueIs_block_iff.mpr hb) hsv d)
  rwa [keepBytes_block, hc] at hleaves

/-- Two block commands in a row give the block back where the cipher with the second schedule undoes that with the
first. -/
theorem blockCommands_give_back {dir dir' : Direction} {s : State} {a : Reg} {b : Block} (hb : Claims.ValueIs s a b)
    (hsv : s.status.sv = true)
    (hback : cipher (cipher b (scheduleFor dir s.inst)) (scheduleFor dir' s.inst) = b) (d d' : Reg) :
    ∃ t u, exec (blockCommand dir d a) s = .next t ∧ exec (blockCommand dir' d' d) t = .next u ∧
      Claims.ValueIs u d' b := by
  obtain ⟨t, ht, hvalue, hinst, hsv'⟩ := blockCommand_next dir hb hsv d
  obtain ⟨u, hu, hvalue', -⟩ := blockCommand_next dir' hvalue hsv' d'
  rw [hinst, hback] at hvalue'
  exact ⟨t, u, ht, hu, hvalue'⟩

/-- A block command leaves a destination that is a function of the block and the cipher data (R246). -/
theorem blockCommand_pure (dir : Direction) {s s' : State} {a a' : Reg} {b : Block} (hinst : s.inst = s'.inst)
    (hsv : s.status.sv = true) (hsv' : s'.status.sv = true) (hb : Claims.ValueIs s a b)
    (hb' : Claims.ValueIs s' a' b) (d d' : Reg) :
    ∃ t t', exec (blockCommand dir d a) s = .next t ∧ exec (blockCommand dir d' a') s' = .next t' ∧
      t.reg d = t'.reg d' := by
  obtain ⟨t, ht, hvalue, -⟩ := blockCommand_next dir hb hsv d
  obtain ⟨t', ht', hvalue', -⟩ := blockCommand_next dir hb' hsv' d'
  refine ⟨t, t', ht, ht', ?_⟩
  rw [valueIs_block_iff.mp hvalue, valueIs_block_iff.mp hvalue', hinst]

/-! ## The example of the rules -/

theorem cipher_example :
    cipher 0x0123456789ABCDEF#64 (scheduleOf 0x133457799BBCDFF1#64) = 0x85E813540F0AB405#64 := by decide +kernel

/-- The example of DEC is that of ENC undone. -/
theorem cipher_reverseSchedule_example :
    cipher 0x85E813540F0AB405#64 (reverseSchedule (scheduleOf 0x133457799BBCDFF1#64)) = 0x0123456789ABCDEF#64 := by
  rw [← cipher_example, cipher_cipher_reverseSchedule]

end Sys2Proof.Machine

namespace Sys2Proof

open Machine Claims

/-! ## The obligations -/

/-- Settles O52, half by half. -/
theorem swapExchangesTheHalves : Obligations.SwapExchangesTheHalves :=
  fun b => ⟨fun _ hp => getMsbD_swapHalves b hp, swapHalves_swapHalves b⟩

/-- Settles O53: past its two checks SWAP writes the exchanged storage of its source. -/
theorem swapCommandExchangesTheHalves : Obligations.SwapCommandExchangesTheHalves := by
  refine ⟨encodedAs_of_row (o := .swap) fun _ => rfl, fun d a s h => swap_writes h d,
    fun d a s h => raises_of_effect (effect_of_empty_read rfl List.mem_cons_self h),
    fun d a s ha h => raises_of_effect (effect_swap_of_length ha h d), fun _ => swapHalves_of_equal_halves,
    swapHalves_swapHalves, rfl, fun s h1 => ?_⟩
  have hvalue : swapHalves 0x434232340A4CD995#64 = 0x0A4CD99543423234#64 := by decide +kernel
  have hleaves := leaves_of_effect (effect_swap (lenOf_of_reg h1) 1)
  rwa [State.storage, h1, keepBytes_block, hvalue] at hleaves

/-- Settles O54: x_r is the output of the rounds with the first r keys. -/
theorem cipherIsItsFourSteps : Obligations.CipherIsItsFourSteps := by
  refine fun b k => ⟨afterRounds b k, fun p hp => getMsbD_permute tableIP rfl b p hp, afterRounds_succ b k,
    fun p hp => ?_⟩
  rw [cipher_eq_permute_afterRounds]
  exact getMsbD_permute tableFP rfl _ p hp

/-- Settles O55: past its three checks ENC writes the cipher of its source with RK. -/
theorem encEncryptsOneBlock : Obligations.EncEncryptsOneBlock := by
  refine ⟨encodedAs_of_row (o := .enc) fun _ => rfl,
    fun d a s b hb hsv => writes_of_effect (effect_blockCommand .fwd hb hsv d),
    fun d a s h => raises_of_effect (effect_blockCommand_of_empty .fwd h d),
    fun d a s ha hsv => raises_of_effect (effect_blockCommand_of_no_schedule .fwd ha hsv d),
    fun d a s ha hsv h => raises_of_effect (effect_blockCommand_of_length .fwd ha hsv h d), rfl,
    fun s hsv hinst h0 => blockCommand_leaves .fwd h0 hsv ?_ 1⟩
  rw [hinst]
  exact cipher_example

/-- Settles O56: past its three checks DEC writes the cipher of its source with RKD. -/
theorem decDecryptsOneBlock : Obligations.DecDecryptsOneBlock := by
  refine ⟨encodedAs_of_row (o := .dec) fun _ => rfl,
    fun d a s b hb hsv => writes_of_effect (effect_blockCommand .rev hb hsv d),
    fun d a s h => raises_of_effect (effect_blockCommand_of_empty .rev h d),
    fun d a s ha hsv => raises_of_effect (effect_blockCommand_of_no_schedule .rev ha hsv d),
    fun d a s ha hsv h => raises_of_effect (effect_blockCommand_of_length .rev ha hsv h d), rfl,
    fun s hsv hinst h1 => blockCommand_leaves .rev h1 hsv ?_ 2⟩
  rw [hinst]
  exact cipher_reverseSchedule_example

/-- Settles O57: a loaded RKD is RK reversed, which undoes each round in turn; and the schedule of 0101010101010101 is
that of the key 0, which reads the same both ways. -/
theorem decryptionInvertsEncryption : Obligations.DecryptionInvertsEncryption := by
  refine ⟨fun s key b a d1 d2 hinst hsv hb => ⟨?_, ?_⟩,
    fun s s' a d a' d' b hinst hsv hsv' hb hb' => ⟨blockCommand_pure .fwd hinst hsv hsv' hb hb' d d',
      blockCommand_pure .rev hinst hsv hsv' hb hb' d d'⟩,
    fun r hr => roundKeyOf_weakKey ⟨r, hr⟩, reverseSchedule_scheduleOf_weakKey.symm, fun b => ⟨?_, ?_⟩⟩
  · refine blockCommands_give_back (dir := .fwd) (dir' := .rev) hb hsv ?_ d1 d2
    rw [hinst]
    exact cipher_cipher_reverseSchedule b (scheduleOf key)
  · refine blockCommands_give_back (dir := .rev) (dir' := .fwd) hb hsv ?_ d1 d2
    rw [hinst]
    exact cipher_reverseSchedule_cipher b (scheduleOf key)
  · rw [reverseSchedule_scheduleOf_weakKey]
  · have h := cipher_cipher_reverseSchedule b (scheduleOf 0x0101010101010101#64)
    rwa [reverseSchedule_scheduleOf_weakKey] at h

end Sys2Proof
end

section
/-! The encoder against the decoder (30_encoding.md R81, R86, R91). Decode of encode: a field of a word put together
from fields is the one placed there. Encode of decode: a field placed back is the word's bits of that field, and the
fields of a row fill the bits outside its mask. -/

namespace Sys2Proof

/-! ## A field of a word that fields were placed in -/

theorem getLsbD_placeField (lo v i : Nat) :
    (placeField lo v).getLsbD i = (decide (lo ≤ i) && decide (i < 32) && v.testBit (i - lo)) := by
  simp only [placeField, BitVec.getLsbD_shiftLeft, BitVec.getLsbD_ofNat]
  by_cases hlo : i < lo
  · simp [hlo]
  · by_cases hi : i < 32
    · have hsub : i - lo < 32 := by omega
      simp [hlo, hi, hsub, Nat.le_of_not_lt hlo]
    · simp [hi]

theorem cmdField_or (a b : CmdWord) (lo width : Nat) :
    cmdField (a ||| b) lo width = cmdField a lo width ||| cmdField b lo width := BitVec.extractLsb'_or

/-- What a field holds whose bits were placed. -/
theorem cmdField_placeField_same {lo width : Nat} (h : lo + width ≤ 32) (v : Nat) :
    cmdField (placeField lo v) lo width = BitVec.ofNat width v := by
  apply BitVec.eq_of_getLsbD_eq
  intro i hi
  have hlt : lo + i < 32 := by omega
  rw [cmdField, BitVec.getLsbD_extractLsb', getLsbD_placeField, BitVec.getLsbD_ofNat]
  simp [hi, hlt]

/-- A field placed below or above another leaves it zero. -/
theorem cmdField_placeField_of_disjoint {lo width lo' v : Nat} (h : v < 2 ^ (lo - lo') ∨ lo + width ≤ lo') :
    cmdField (placeField lo' v) lo width = 0#width := by
  apply BitVec.eq_of_getLsbD_eq
  intro i hi
  rw [cmdField, BitVec.getLsbD_extractLsb', getLsbD_placeField, BitVec.getLsbD_zero]
  rcases h with hbelow | habove
  · have hv : v < 2 ^ (lo + i - lo') := hbelow.trans_le (Nat.pow_le_pow_right (by decide) (by omega))
    simp [Nat.testBit_lt_two_pow hv]
  · have hlt : ¬lo' ≤ lo + i := by omega
    simp [hlt]

/-- The match column of a row is its OP and zeros (R86). -/
theorem Op.matchWord_eq_placeField (o : Op) : o.matchWord = placeField 26 o.code.toNat := by
  cases o <;> rfl

/-- VAL is a field of one bit (R83). -/
theorem fieldVal_eq_cmdField (w : CmdWord) : fieldVal w = (cmdField w 6 1).getLsbD 0 := by
  simp [fieldVal, cmdField]

/-- DIR is a field of one bit (R83). -/
theorem fieldDir_eq_cmdField (w : CmdWord) : fieldDir w = if (cmdField w 4 1).getLsbD 0 then .rev else .fwd := by
  simp [fieldDir, cmdField]

/-- The row of a well-formed instruction reads its operands back: each field of the encoding is the operand placed
there, the other operands being placed below or above it. What is left is the one check on a value, LDV's N. -/
theorem decodeRow_encode {i : Instr} (h : i.WellFormed) : decodeRow i.op (encode i) = .ok i := by
  cases i
  case' bset d pos val => cases val
  case' perm d s tbl => cases tbl
  case' rkrd d dir idx => cases dir
  all_goals
    simp (disch := omega) [decodeRow, Instr.op, encode, Op.matchWord_eq_placeField, operandBits, placeD, placeS,
      placeT, Table.selector, Table.ofSelector, Direction.bit, fieldD, fieldS, fieldT, fieldN, fieldIdx, fieldTbl,
      fieldK, fieldPos, fieldVal_eq_cmdField, fieldDir_eq_cmdField, cmdField_or, cmdField_placeField_same,
      cmdField_placeField_of_disjoint]
  case ldv d n => simpa [Instr.WellFormed, Instr.wellFormed] using h

/-! ## A word's fields placed back -/

@[simp] theorem placeD_fieldD (w : CmdWord) : placeD (fieldD w) = w &&& 0x03800000#32 :=
  placeField_extract w 23 3 (by decide)

@[simp] theorem placeS_fieldS (w : CmdWord) : placeS (fieldS w) = w &&& 0x00700000#32 :=
  placeField_extract w 20 3 (by decide)

@[simp] theorem placeT_fieldT (w : CmdWord) : placeT (fieldT w) = w &&& 0x000E0000#32 :=
  placeField_extract w 17 3 (by decide)

@[simp] theorem placeField_fieldPos (w : CmdWord) : placeField 0 (fieldPos w).val = w &&& 0x3F#32 :=
  placeField_extract w 0 6 (by decide)

@[simp] theorem placeField_fieldN (w : CmdWord) : placeField 0 (fieldN w).val = w &&& 0xF#32 :=
  placeField_extract w 0 4 (by decide)

@[simp] theorem placeField_fieldIdx (w : CmdWord) : placeField 0 (fieldIdx w).val = w &&& 0xF#32 :=
  placeField_extract w 0 4 (by decide)

@[simp] theorem placeField_fieldTbl (w : CmdWord) : placeField 0 (fieldTbl w).val = w &&& 0x7#32 :=
  placeField_extract w 0 3 (by decide)

@[simp] theorem placeField_fieldK (w : CmdWord) : placeField 0 (fieldK w).val = w &&& 0x3#32 :=
  placeField_extract w 0 2 (by decide)

theorem placeField_getLsbD (w : CmdWord) {i : Nat} (h : i + 1 ≤ 32) :
    placeField i (w.getLsbD i).toNat = w &&& 1#32 <<< i := by
  have hfield : (w.getLsbD i).toNat = (cmdField w i 1).toNat :=
    (toNat_getLsbD w i).trans (toNat_cmdField w i 1).symm
  rw [hfield]
  exact placeField_extract w i 1 h

@[simp] theorem placeField_fieldVal (w : CmdWord) : placeField 6 (fieldVal w).toNat = w &&& 0x40#32 :=
  placeField_getLsbD w (by decide)

@[simp] theorem placeField_fieldDir (w : CmdWord) : placeField 4 (fieldDir w).bit = w &&& 0x10#32 := by
  rw [bit_fieldDir]
  exact placeField_getLsbD w (by decide)

/-- The row of LDV gives a byte count in 1..8, and no other instruction (R88). -/
theorem decodeRow_ldv_eq_ok_iff {w : CmdWord} {d : Reg} {n : Fin 16} : decodeRow .ldv w = .ok (.ldv d n) ↔
    (1 ≤ n.val ∧ n.val ≤ 8) ∧ fieldD w = d ∧ fieldN w = n := by
  rw [decodeRow]
  split
  · next hn =>
    simp only [Except.ok.injEq, Instr.ldv.injEq]
    exact ⟨fun h => ⟨h.2 ▸ hn, h⟩, fun h => h.2⟩
  · next hn => exact iff_of_false nofun fun ⟨h, _, hN⟩ => hn (hN ▸ h)

/-- Well-formedness asks for what LDV's row checks (R88). -/
theorem wellFormed_of_decodeRow {w : CmdWord} {i : Instr} (h : decodeRow i.op w = .ok i) : i.WellFormed := by
  cases i with
  | ldv d n =>
    obtain ⟨⟨h1, h8⟩, -⟩ := decodeRow_ldv_eq_ok_iff.mp h
    simp [Instr.WellFormed, Instr.wellFormed, h1, h8]
  | _ => rfl

/-- The operand bits of what a row gives are the word's bits outside the row's mask (R86): the fields placed back, whose
ranges together are those bits. -/
theorem operandBits_of_decodeRow {w : CmdWord} {i : Instr} (h : decodeRow i.op w = .ok i) :
    operandBits i = w &&& ~~~i.op.mask := by
  cases i with
  | ldv d n =>
    obtain ⟨-, rfl, rfl⟩ := decodeRow_ldv_eq_ok_iff.mp h
    rw [Instr.op]
    simp [operandBits, Op.mask, ← BitVec.and_or_distrib_left]
  | perm d s tbl =>
    obtain ⟨rfl, rfl, hsel⟩ := decodeRow_perm_eq_ok_iff.mp h
    rw [Instr.op]
    simp [operandBits, Op.mask, ← hsel, ← BitVec.and_or_distrib_left]
  | _ =>
    cases h
    rw [Instr.op]
    simp [operandBits, Op.mask, ← BitVec.and_or_distrib_left]

/-! ## The obligations -/

/-- Settles O1: the encoding selects the row of its instruction, which reads the operands back. -/
theorem decodeOfEncodeIsTheInstruction : Obligations.DecodeOfEncodeIsTheInstruction := fun i h =>
  (decode_of_match (Laws.RowOfEncoding.ofInstr i)).trans (decodeRow_encode h)

/-- Settles O2: the word is its row's match under the mask and the operand bits outside it. -/
theorem encodeOfDecodeIsTheWord : Obligations.EncodeOfDecodeIsTheWord := by
  intro w i h
  obtain ⟨hm, hrow⟩ := match_of_decode h
  refine ⟨wellFormed_of_decodeRow hrow, ?_⟩
  calc encode i
    _ = w &&& i.op.mask ||| w &&& ~~~i.op.mask := by rw [encode, operandBits_of_decodeRow hrow, hm]
    _ = w &&& (i.op.mask ||| ~~~i.op.mask) := BitVec.and_or_distrib_left.symm
    _ = w := by rw [BitVec.or_not_self, BitVec.and_allOnes]

end Sys2Proof
end

section
/-! The order of the checks and what errors leave (60_exceptions.md R303, R304, R305), and the commands that need no key
(70_reset_and_hazards.md R343). -/

namespace Sys2Proof.Machine

/-! ## What an effect that raises an error is -/

theorem action_succeeds (i : Instr) (s : State) : (i.action s).succeeds = true := by
  cases i <;> rfl

/-- An effect after which the state shows an error raised it: the response carries its code. -/
theorem Effect.raised_run_iff {f : Effect} {s : State} {e : ErrorKind} : Raised e s (f.run s) ↔ f = .raise e := by
  constructor
  · rintro ⟨-, -, -, -, -, -, -, hret⟩
    obtain ⟨hcode, -, -⟩ := (Effect.returned_run_iff ..).mp hret
    cases f with
    | raise e' => rw [ErrorKind.code_inj hcode]
    | answer | write | clearError | writeFlag | loadKey => exact absurd hcode.symm e.code_ne_zero
  · rintro rfl
    exact raised_raise s e

/-- An instruction raises the first error of its checks and no other (60_exceptions.md R305). -/
theorem raises_iff {i : Instr} {s : State} {e : ErrorKind} :
    Raises i s e ↔ (i.errorsInOrder s).head? = some e := by
  rw [← effect_eq_raise_iff, ← Effect.raised_run_iff (s := s), Raises, exec_eq_run]
  constructor
  · rintro ⟨t, ht, hraised⟩
    cases ht
    exact hraised
  · exact fun hraised => ⟨_, rfl, hraised⟩

/-- An effect succeeds, or raises an error that has no effect but its bookkeeping (R303). -/
theorem Effect.succeeded_or_raised (f : Effect) (s : State) :
    Claims.Succeeded s (f.run s) ∨ ∃ e, Raised e s (f.run s) := by
  by_cases h : f.succeeds = true
  · exact .inl ((f.succeeded_run_iff s).mpr h)
  · obtain ⟨e, rfl⟩ := Effect.eq_raise_of_not_succeeds h
    exact .inr ⟨e, raised_raise s e⟩

/-! ## ERR and ECODE -/

/-- ERR and ECODE stay, once set, until they are cleared (R303). -/
theorem Effect.errorFields_sticky {f : Effect} (hf : f ≠ .clearError) {st : Status} (h : st.err = true) :
    (f.statusAfter st).err = true ∧ (f.statusAfter st).ecode = st.ecode := by
  cases f with
  | raise e => exact ⟨rfl, if_pos h⟩
  | clearError => exact absurd rfl hf
  | answer | write | writeFlag | loadKey => exact ⟨h, rfl⟩

/-- No other field of STATUS depends on ERR and ECODE (R303). -/
theorem Effect.statusAfter_of_errorFields (f : Effect) (st : Status) (b : Bool) (c : BitVec 4) :
    (f.statusAfter { st with err := b, ecode := c }).sv = (f.statusAfter st).sv ∧
      (f.statusAfter { st with err := b, ecode := c }).f = (f.statusAfter st).f := by
  cases f <;> exact ⟨rfl, rfl⟩

/-! ## SV and the cipher data -/

/-- No other field of STATUS depends on SV (10_state.md R32). -/
theorem Effect.statusAfter_of_sv (f : Effect) (st : Status) (b : Bool) :
    (f.statusAfter { st with sv := b }).err = (f.statusAfter st).err ∧
      (f.statusAfter { st with sv := b }).ecode = (f.statusAfter st).ecode ∧
      (f.statusAfter { st with sv := b }).f = (f.statusAfter st).f := by
  cases f <;> exact ⟨rfl, rfl, rfl⟩

theorem readsSame_setInst_setStatus {i : Instr} (hi : i.readsSchedule = false) (s : State) (c : CipherInstance)
    (st : Status) : ReadsSame i s ((s.setInst c).setStatus st) where
  regs _ _ := rfl
  sv h := absurd h (by simp [hi])
  schedules h := absurd h (by simp [hi])
  din _ := rfl

/-- Of the checks NoSchedule is the one on SV alone (60_exceptions.md R305). -/
theorem noSchedule_notMem_errorsInOrder {i : Instr} (hi : i.readsSchedule = false) (s : State) :
    .noSchedule ∉ i.errorsInOrder s := by
  have hfield : i.fieldError ≠ some .noSchedule := by
    cases i <;> simp [Instr.fieldError]
  have hlength : .noSchedule ∉ i.lengthErrors s := by
    cases i <;> simp [Instr.lengthErrors]
  have hindex : .noSchedule ∉ i.indexErrors s := by
    cases i <;> simp [Instr.indexErrors]
  simp [Instr.errorsInOrder, hi, hfield, hlength, hindex]

end Sys2Proof.Machine

namespace Sys2Proof

open Machine Claims

/-! ## The obligations -/

/-- Settles O21: the effect of an instruction is the first error of its checks, or its action, which succeeds. -/
theorem checksAreMadeInTheStatedOrder : Obligations.ChecksAreMadeInTheStatedOrder := by
  refine ⟨fun i s => ?_, fun w e s h => wordRaises_of_illegal h s⟩
  split
  · next e h => exact raises_iff.mpr h
  · next h =>
    refine ⟨_, exec_eq_run i s, (Effect.succeeded_run_iff _ s).mpr ?_⟩
    rw [effect_of_no_errors (List.head?_eq_none_iff.mp h)]
    exact action_succeeds i s

/-- Settles O22: the effect of a word does not depend on ERR and ECODE, and only CLRERR's clears them. -/
theorem errorsArePreciseAndSticky : Obligations.ErrorsArePreciseAndSticky := by
  refine ⟨⟨rfl, rfl, rfl, rfl, rfl, rfl, rfl, rfl⟩, fun w s => ?_⟩
  refine ⟨_, runWord_eq_run w s, Effect.succeeded_or_raised _ s, fun herr hclr => ?_, fun b c => ?_⟩
  · rw [Effect.status_run]
    exact Effect.errorFields_sticky (mt wordEffect_eq_clearError_iff.mp hclr) herr
  · have heff : wordEffect w (s.setStatus { s.status with err := b, ecode := c }) = wordEffect w s :=
      wordEffect_congr fun i _ => readsSame_setStatus i s rfl
    obtain ⟨hsv, hf⟩ := (wordEffect w s).statusAfter_of_errorFields s.status b c
    refine ⟨_, runWord_eq_run w _, ?_⟩
    rw [heff]
    exact ⟨fun _ => Effect.reg_run_congr _ rfl, by simp, by simpa using hsv, by simpa using hf,
      Effect.sameAnswer_run _ _ _⟩

/-- Settles O25: the effect of a command that reads no schedule depends on neither SV nor the cipher data. -/
theorem otherCommandsNeedNoKey : Obligations.OtherCommandsNeedNoKey := by
  intro i s hi
  constructor
  · rw [raises_iff]
    exact fun h => noSchedule_notMem_errorsInOrder hi s (List.mem_of_mem_head? h)
  · intro c b
    obtain ⟨herr, hecode, hf⟩ := (i.effect s).statusAfter_of_sv s.status b
    exact ⟨_, _, exec_eq_run i s, exec_eq_run_of_readsSame (readsSame_setInst_setStatus hi s c _),
      fun _ => Effect.reg_run_congr _ rfl, by simpa using herr, by simpa using hecode, by simpa using hf,
      Effect.sameAnswer_run _ _ _⟩

end Sys2Proof
end

section
/-! Steps, reset, and words written out (20_memory.md R55, 30_encoding.md R86, 60_exceptions.md R316,
70_reset_and_hazards.md R340, R341). -/

namespace Sys2Proof.Machine

/-- STATUS reads 0x00 after reset (10_state.md R41). -/
theorem Status.word_reset : Status.reset.word = 0 := rfl

theorem inv_reset : State.reset.Inv where
  canonical r := by
    rw [State.reg_reset]
    exact canonicalReg_empty
  errorCode := iff_of_true rfl rfl
  codeRange := Nat.zero_le 8
  schedules h := by cases h

theorem run_of_idle {s : State} (h : s.pending = []) (n : Nat) : Host.Core.run core n s = .next s := by
  induction n with
  | zero => rfl
  | succ n ih => simpa [Host.Core.run, core, step_of_idle h] using ih

/-- A step with a command waiting executes its word in the state that took its din (20_memory.md R55). -/
theorem step_eq_runWord {s : State} {w : CmdWord} {din : Block} {rest : List HostMove}
    (h : s.pending = .command w din :: rest) : step s = runWord w (s.accept din rest) := by
  simp [step, h]

theorem runWord_of_decode {w : CmdWord} {i : Instr} (h : decode w = .ok i) (s : State) : runWord w s = exec i s := by
  simp [runWord, h]

theorem lenOf_resetBy (s : State) (o : Option (CmdWord × Block)) (rest : List HostMove) (r : Reg) :
    (s.resetBy o rest).lenOf r = 0 := by
  rw [State.lenOf, State.reg_resetBy]
  rfl

/-- With every register empty and SV 0 no schedule can be read: ENC and DEC find their source empty, RKRD finds no
schedule (60_exceptions.md R301, R305). -/
theorem scheduleReader_raises {i : Instr} {s : State} (hi : i.readsSchedule = true) (hsv : s.status.sv = false)
    (hlen : ∀ r : Reg, s.lenOf r = 0) : Raises i s .emptyOperand ∨ Raises i s .noSchedule := by
  cases i with
  | rkrd d dir idx => exact .inr (raises_of_effect (effect_of_errors (errorsInOrder_of_no_schedule hi hsv nofun)))
  | enc d a | dec d a =>
    exact .inl (raises_of_effect (effect_of_empty_read rfl List.mem_cons_self (hlen a)))
  | _ => cases hi

end Sys2Proof.Machine

namespace Sys2Proof

open Machine Claims

/-! ## The obligations -/

/-- Settles O8, by induction on the number of steps. -/
theorem idleCoreHoldsItsState : Obligations.IdleCoreHoldsItsState := fun n _ h => run_of_idle h n

/-- Settles O9: every reset leaves the same registers and STATUS, and a command executed before it leaves the reset
waiting. -/
theorem resetMoveLeavesTheResetState : Obligations.ResetMoveLeavesTheResetState := by
  intro s o rest h
  refine ⟨_, step_of_reset h, fun r => ⟨lenOf_resetBy s o rest r, ?_⟩, rfl, rfl, rfl, rfl,
    Status.word_reset, rfl, rfl, fun i hi => scheduleReader_raises hi rfl (lenOf_resetBy s o rest), ?_⟩
  · rw [State.storage, State.reg_resetBy]
    rfl
  · intro w din u _ hu
    cases (step_of_command rfl).symm.trans hu
    exact ⟨_, step_of_reset (Effect.pending_run _ _), rfl, rfl, rfl⟩

/-- Settles O7: the state between is the one that took the command from the port. -/
theorem stepExecutesThePresentedCommand : Obligations.StepExecutesThePresentedCommand := by
  intro s w din rest h
  refine ⟨s.accept din rest, rfl, rfl, rfl, rfl, rfl, rfl, rfl, ?_, ?_⟩
  · intro i hi
    rw [step_eq_runWord h, runWord_of_decode hi]
  · intro e he
    rw [step_eq_runWord h]
    exact wordRaises_of_illegal he _

/-- Settles O6: each word is decoded by computation. -/
theorem writtenOutWordsDecode : Obligations.WrittenOutWordsDecode := by
  unfold Obligations.WrittenOutWordsDecode
  decide

/-- Settles O10: every register is empty, and the other fields are read off `State.reset`. -/
theorem resetStateHasTheSpecifiedValues : Obligations.ResetStateHasTheSpecifiedValues := by
  refine ⟨fun r => ?_, rfl, rfl, rfl, rfl, Status.word_reset, rfl, rfl⟩
  rw [State.storage, State.lenOf, State.reg_reset]
  exact ⟨rfl, rfl⟩

/-- Settles O14, field by field. -/
theorem resetStateMeetsTheInvariant : Obligations.ResetStateMeetsTheInvariant := inv_reset

end Sys2Proof
end
